-- ==== Sys2Proof/Word.lean ====
section
/-! DEFINITION. The byte: every register, operand and instruction byte of the block is 8 bits (00_scope.md R8). -/

namespace Sys2Proof

/-- An 8-bit unsigned value (00_scope.md R8, R12). -/
abbrev Byte := BitVec 8

end Sys2Proof
end

