-- ==== Sys2Proof/Config.lean ====
section
/-! DEFINITION. What an implementation fixes: the six delay arguments (00_scope.md R7) and the latch's content at reset. -/

namespace Sys2Proof

/-- The six millisecond arguments handed to the delay interface (00_scope.md R7, 92_eei_decisions.md D8).
They are parameters of the implementation: the machine carries them in its state, no operation writes them, and a
statement about every state is a statement about every choice of them (log 6). -/
structure Timing where
  powerUp : Nat
  rst1 : Nat
  rst2 : Nat
  rst3 : Nat
  long : Nat
  pulse : Nat
  deriving DecidableEq, Repr

/-- The lower bounds 00_scope.md R7 puts on the six. -/
abbrev Timing.WF (t : Timing) : Prop :=
  50 ≤ t.powerUp ∧ 5 ≤ t.rst1 ∧ 5 ≤ t.rst2 ∧ 1 ≤ t.rst3 ∧ 2 ≤ t.long ∧ 1 ≤ t.pulse

/-- The spec's own defaults, the lower bounds (00_scope.md R7, 92_eei_decisions.md D8). -/
def Config.defaultTiming : Timing :=
  { powerUp := 50, rst1 := 5, rst2 := 5, rst3 := 1, long := 2, pulse := 1 }

/-- DESIGN CHOICE (log 5, unsafe): what the expander's latch holds at `State.reset`. The spec calls it a free input
`L0` of every run (20_memory.md R53); `State.resetWith` takes it as an argument. -/
def Config.latchAtReset : Byte := 0x00

end Sys2Proof
end

