-- ==== Sys2Proof/Syntax.lean ====
section
/-! DEFINITION. The instructions: the 21 host operations (30_encoding.md R80) and the 8 HD44780 instruction kinds
(R83), one constructor per row of spec/opcode_table.json. -/

namespace Sys2Proof

/-- A pin value (10_state.md R25): a bit position of the shared register, or `none` for the source's `UNUSED`. -/
abbrev Pin := Option (Fin 8)

/-- The eleven pin roles (00_scope.md R15, R17). -/
inductive Role where
  | rs | rw | en | d0 | d1 | d2 | d3 | d4 | d5 | d6 | d7
  deriving DecidableEq, Repr

/-- All eleven roles. -/
def Role.all : List Role := [.rs, .rw, .en, .d0, .d1, .d2, .d3, .d4, .d5, .d6, .d7]

/-- The pin map (10_state.md R24): a pin value for every role. -/
structure PinMap where
  rs : Pin
  rw : Pin
  en : Pin
  d0 : Pin
  d1 : Pin
  d2 : Pin
  d3 : Pin
  d4 : Pin
  d5 : Pin
  d6 : Pin
  d7 : Pin
  deriving DecidableEq, Repr

/-- Role to bit position, the total look-up of 20_memory.md R61 (a). -/
def PinMap.pin (m : PinMap) : Role → Pin
  | .rs => m.rs
  | .rw => m.rw
  | .en => m.en
  | .d0 => m.d0
  | .d1 => m.d1
  | .d2 => m.d2
  | .d3 => m.d3
  | .d4 => m.d4
  | .d5 => m.d5
  | .d6 => m.d6
  | .d7 => m.d7

/-- Character cell (30_encoding.md R81): 5x8 or 5x10. -/
inductive Cell where
  | small
  | tall
  deriving DecidableEq, Repr

/-- The eight pattern bytes of a glyph, one per pixel row (43_display_cursor_ops.md R180). -/
structure Glyph where
  p0 : Byte
  p1 : Byte
  p2 : Byte
  p3 : Byte
  p4 : Byte
  p5 : Byte
  p6 : Byte
  p7 : Byte
  deriving DecidableEq, Repr

/-- The pattern bytes in the order in which they are sent. -/
def Glyph.bytes (g : Glyph) : List Byte := [g.p0, g.p1, g.p2, g.p3, g.p4, g.p5, g.p6, g.p7]

/-- Every row of the opcode table. The first 21 are the host operations (format HOSTOP), the last 8 the HD44780
instruction kinds (format LCDINSTR), whose fields are those of 30_encoding.md R84; a field the table calls unused is
kept, so that every byte has its own term. -/
inductive Instr where
  | init (bus8 : Bool) (pins : PinMap)
  | begin (cols lines : Byte) (cell : Cell)
  | clear
  | home
  | setCursor (col row : Byte)
  | displayOff
  | displayOn
  | cursorOff
  | cursorOn
  | blinkOff
  | blinkOn
  | scrollLeft
  | scrollRight
  | leftToRight
  | rightToLeft
  | autoscrollOn
  | autoscrollOff
  | writeChar (b : Byte)
  | writeString (text : List Byte)
  | createChar (slot : Byte) (pattern : Glyph)
  | setBacklight (on : Bool)
  | clearDisplay
  | returnHome (unused : BitVec 1)
  | entryModeSet (left shift : Bool)
  | displayControl (display cursor blink : Bool)
  | cursorShift (move right : Bool) (unused : BitVec 2)
  | functionSet (bus8 twoLine tallFont : Bool) (unused : BitVec 2)
  | setCgramAddress (slot : BitVec 3) (unused : BitVec 3)
  | setDdramAddress (address : BitVec 7)
  deriving DecidableEq, Repr

/-- The two instruction streams of the opcode table: host operations, which the host presents (30_encoding.md R80),
and HD44780 instruction bytes, which only the block itself sends, as `Command(b)` (R93). -/
inductive Port where
  | host
  | command
  deriving DecidableEq, Repr

/-- The stream an instruction belongs to: the table's "format". -/
def Instr.port : Instr → Port
  | .init _ _ => .host
  | .begin _ _ _ => .host
  | .clear => .host
  | .home => .host
  | .setCursor _ _ => .host
  | .displayOff => .host
  | .displayOn => .host
  | .cursorOff => .host
  | .cursorOn => .host
  | .blinkOff => .host
  | .blinkOn => .host
  | .scrollLeft => .host
  | .scrollRight => .host
  | .leftToRight => .host
  | .rightToLeft => .host
  | .autoscrollOn => .host
  | .autoscrollOff => .host
  | .writeChar _ => .host
  | .writeString _ => .host
  | .createChar _ _ => .host
  | .setBacklight _ => .host
  | .clearDisplay => .command
  | .returnHome _ => .command
  | .entryModeSet _ _ => .command
  | .displayControl _ _ _ => .command
  | .cursorShift _ _ _ => .command
  | .functionSet _ _ _ _ => .command
  | .setCgramAddress _ _ => .command
  | .setDdramAddress _ => .command

end Sys2Proof
end

