-- ==== Sys2Proof/WellFormed.lean ====
section
/-! DEFINITION. Two checks on instructions: that a term has an encoding, and that an HD44780 instruction is one of the
bytes the block can emit. Bool, pin and cell operands need no check: their types hold the admitted values only. -/

namespace Sys2Proof

/-- An instruction has an encoding. The only operand whose type admits too much is WRITE_STRING's text, which cannot
carry its terminator 0x00 (30_encoding.md R92 (d), 43_display_cursor_ops.md R179). -/
def Instr.wellFormed : Instr → Bool
  | .init _ _ => true
  | .begin _ _ _ => true
  | .clear => true
  | .home => true
  | .setCursor _ _ => true
  | .displayOff => true
  | .displayOn => true
  | .cursorOff => true
  | .cursorOn => true
  | .blinkOff => true
  | .blinkOn => true
  | .scrollLeft => true
  | .scrollRight => true
  | .leftToRight => true
  | .rightToLeft => true
  | .autoscrollOn => true
  | .autoscrollOff => true
  | .writeChar _ => true
  | .writeString text => text.all (· != 0x00)
  | .createChar _ _ => true
  | .setBacklight _ => true
  | .clearDisplay => true
  | .returnHome _ => true
  | .entryModeSet _ _ => true
  | .displayControl _ _ _ => true
  | .cursorShift _ _ _ => true
  | .functionSet _ _ _ _ => true
  | .setCgramAddress _ _ => true
  | .setDdramAddress _ => true

/-- An HD44780 instruction byte the block can emit (30_encoding.md R86): unused fields 0 and display-move set. A
host operation is no instruction byte. -/
def Instr.emittable : Instr → Bool
  | .init _ _ => false
  | .begin _ _ _ => false
  | .clear => false
  | .home => false
  | .setCursor _ _ => false
  | .displayOff => false
  | .displayOn => false
  | .cursorOff => false
  | .cursorOn => false
  | .blinkOff => false
  | .blinkOn => false
  | .scrollLeft => false
  | .scrollRight => false
  | .leftToRight => false
  | .rightToLeft => false
  | .autoscrollOn => false
  | .autoscrollOff => false
  | .writeChar _ => false
  | .writeString _ => false
  | .createChar _ _ => false
  | .setBacklight _ => false
  | .clearDisplay => true
  | .returnHome unused => unused == 0
  | .entryModeSet _ _ => true
  | .displayControl _ _ _ => true
  | .cursorShift move _ unused => move && unused == 0
  | .functionSet _ _ _ unused => unused == 0
  | .setCgramAddress _ unused => unused == 0
  | .setDdramAddress _ => true

end Sys2Proof
end

