-- ==== Sys2Proof/Decode.lean ====
section
/-! DEFINITION. Decoding and encoding of the two instruction streams: host operations in the host format
(30_encoding.md R81, R82) and HD44780 instruction bytes (R84, R94). Total on any bytes; a rejection has a name. -/

namespace Sys2Proof

/-- Why a stream of bytes does not begin with an instruction. The first four are what 60_exceptions.md R207 calls refused;
the others are the model's choice (log 17, log 2). -/
inductive Reject where
  /-- A host opcode 0x15 to 0xFF (30_encoding.md R92 (a)). -/
  | unassignedOpcode (op : Byte)
  /-- A bool operand other than 0x00 and 0x01 (30_encoding.md R81). -/
  | badBool (b : Byte)
  /-- A cell operand other than 0x00 and 0x01 (30_encoding.md R81). -/
  | badCell (b : Byte)
  /-- A pin operand 0x08 to 0xFE (30_encoding.md R81, 10_state.md R25). -/
  | badPin (b : Byte)
  /-- DESIGN CHOICE (log 17): fewer bytes than the operation's opcode fixes are refused; 30_encoding.md R81 fixes the
  number and does not say what happens when some are missing. -/
  | truncated
  /-- DESIGN CHOICE (log 17): a WRITE_STRING whose 0x00 terminator has not come is refused; 30_encoding.md R81 does not
  say what happens then. -/
  | unterminated
  /-- The byte 0x00 on the command stream has no kind (30_encoding.md R94); that it is refused is DESIGN CHOICE
  (log 2). -/
  | noKind
  deriving DecidableEq, Repr

/-! ### Operands of the host format (30_encoding.md R81) -/

/-- One operand byte; a missing one is refused (log 17). -/
def readByte : List Byte → Except Reject (Byte × List Byte)
  | [] => .error .truncated
  | b :: bytes => .ok (b, bytes)

/-- A bool operand: 0x00 false, 0x01 true. -/
def readBool : List Byte → Except Reject (Bool × List Byte)
  | [] => .error .truncated
  | b :: bytes => if b = 0x00 then .ok (false, bytes) else if b = 0x01 then .ok (true, bytes) else .error (.badBool b)

/-- A cell operand: 0x00 5x8, 0x01 5x10. -/
def readCell : List Byte → Except Reject (Cell × List Byte)
  | [] => .error .truncated
  | b :: bytes =>
    if b = 0x00 then .ok (.small, bytes) else if b = 0x01 then .ok (.tall, bytes) else .error (.badCell b)

/-- A pin operand: 0x00 to 0x07 a position, 0xFF `UNUSED` (10_state.md R25). -/
def readPin : List Byte → Except Reject (Pin × List Byte)
  | [] => .error .truncated
  | b :: bytes =>
    if b = 0xFF then .ok (none, bytes)
    else if h : b.toNat < 8 then .ok (some ⟨b.toNat, h⟩, bytes)
    else .error (.badPin b)

/-- A text operand: the bytes up to a terminating 0x00, which is consumed and is no part of the text; one
that has not come is refused (log 17). -/
def readText : List Byte → Except Reject (List Byte × List Byte)
  | [] => .error .unterminated
  | b :: bytes =>
    if b = 0x00 then .ok ([], bytes)
    else
      match readText bytes with
      | .ok (text, rest) => .ok (b :: text, rest)
      | .error r => .error r

/-- The eleven pin operands of INIT, in the order of 30_encoding.md R80. -/
def readPinMap (bytes : List Byte) : Except Reject (PinMap × List Byte) := do
  let (rs, bytes) ← readPin bytes
  let (rw, bytes) ← readPin bytes
  let (en, bytes) ← readPin bytes
  let (d0, bytes) ← readPin bytes
  let (d1, bytes) ← readPin bytes
  let (d2, bytes) ← readPin bytes
  let (d3, bytes) ← readPin bytes
  let (d4, bytes) ← readPin bytes
  let (d5, bytes) ← readPin bytes
  let (d6, bytes) ← readPin bytes
  let (d7, bytes) ← readPin bytes
  return ({ rs, rw, en, d0, d1, d2, d3, d4, d5, d6, d7 }, bytes)

/-- The eight pattern operands of CREATE_CHAR. -/
def readGlyph : List Byte → Except Reject (Glyph × List Byte)
  | p0 :: p1 :: p2 :: p3 :: p4 :: p5 :: p6 :: p7 :: bytes => .ok ({ p0, p1, p2, p3, p4, p5, p6, p7 }, bytes)
  | _ => .error .truncated

/-! ### The two decoders -/

/-- The host operation that stands first, and the bytes after it (30_encoding.md R81, R82); an incomplete one is
refused (log 17). -/
def decodeHost : List Byte → Except Reject (Instr × List Byte)
  | [] => .error .truncated
  | op :: bytes =>
    match op.toNat with
    | 0x00 => do
      let (bus8, bytes) ← readBool bytes
      let (pins, bytes) ← readPinMap bytes
      return (.init bus8 pins, bytes)
    | 0x01 => do
      let (cols, bytes) ← readByte bytes
      let (lines, bytes) ← readByte bytes
      let (cell, bytes) ← readCell bytes
      return (.begin cols lines cell, bytes)
    | 0x02 => .ok (.clear, bytes)
    | 0x03 => .ok (.home, bytes)
    | 0x04 => do
      let (col, bytes) ← readByte bytes
      let (row, bytes) ← readByte bytes
      return (.setCursor col row, bytes)
    | 0x05 => .ok (.displayOff, bytes)
    | 0x06 => .ok (.displayOn, bytes)
    | 0x07 => .ok (.cursorOff, bytes)
    | 0x08 => .ok (.cursorOn, bytes)
    | 0x09 => .ok (.blinkOff, bytes)
    | 0x0A => .ok (.blinkOn, bytes)
    | 0x0B => .ok (.scrollLeft, bytes)
    | 0x0C => .ok (.scrollRight, bytes)
    | 0x0D => .ok (.leftToRight, bytes)
    | 0x0E => .ok (.rightToLeft, bytes)
    | 0x0F => .ok (.autoscrollOn, bytes)
    | 0x10 => .ok (.autoscrollOff, bytes)
    | 0x11 => do
      let (b, bytes) ← readByte bytes
      return (.writeChar b, bytes)
    | 0x12 => do
      let (text, bytes) ← readText bytes
      return (.writeString text, bytes)
    | 0x13 => do
      let (slot, bytes) ← readByte bytes
      let (pattern, bytes) ← readGlyph bytes
      return (.createChar slot pattern, bytes)
    | 0x14 => do
      let (on, bytes) ← readBool bytes
      return (.setBacklight on, bytes)
    | _ => .error (.unassignedOpcode op)

/-- The kind and fields of an HD44780 instruction byte, by its highest set bit (30_encoding.md R94). -/
def decodeCommand (c : Byte) : Except Reject Instr :=
  if c.getLsbD 7 then .ok (.setDdramAddress (c.extractLsb' 0 7))
  else if c.getLsbD 6 then .ok (.setCgramAddress (c.extractLsb' 3 3) (c.extractLsb' 0 3))
  else if c.getLsbD 5 then
    .ok (.functionSet (c.getLsbD 4) (c.getLsbD 3) (c.getLsbD 2) (c.extractLsb' 0 2))
  else if c.getLsbD 4 then .ok (.cursorShift (c.getLsbD 3) (c.getLsbD 2) (c.extractLsb' 0 2))
  else if c.getLsbD 3 then .ok (.displayControl (c.getLsbD 2) (c.getLsbD 1) (c.getLsbD 0))
  else if c.getLsbD 2 then .ok (.entryModeSet (c.getLsbD 1) (c.getLsbD 0))
  else if c.getLsbD 1 then .ok (.returnHome (c.extractLsb' 0 1))
  else if c.getLsbD 0 then .ok .clearDisplay
  else .error .noKind

/-- The instruction that stands first on a stream, and the bytes after it. -/
def decodeAt : Port → List Byte → Except Reject (Instr × List Byte)
  | .host, bytes => decodeHost bytes
  | .command, [] => .error .truncated
  | .command, c :: bytes =>
    match decodeCommand c with
    | .ok i => .ok (i, bytes)
    | .error r => .error r

/-! ### The encoder, from the same tables -/

/-- A bool operand's byte (30_encoding.md R81). -/
def encodeBool : Bool → Byte
  | false => 0x00
  | true => 0x01

/-- A cell operand's byte (30_encoding.md R81). -/
def encodeCell : Cell → Byte
  | .small => 0x00
  | .tall => 0x01

/-- A pin value's stored byte (10_state.md R25). -/
def encodePin : Pin → Byte
  | none => 0xFF
  | some p => BitVec.ofNat 8 p.val

/-- The eleven pin operands of INIT, in the order of 30_encoding.md R80. -/
def encodePinMap (m : PinMap) : List Byte :=
  [encodePin m.rs, encodePin m.rw, encodePin m.en, encodePin m.d0, encodePin m.d1, encodePin m.d2,
    encodePin m.d3, encodePin m.d4, encodePin m.d5, encodePin m.d6, encodePin m.d7]

/-- An instruction's bytes: opcode and operands (30_encoding.md R81, R82), or the one instruction byte, laid out from
bit 7 down (R84). -/
def encode : Instr → List Byte
  | .init bus8 pins => 0x00 :: encodeBool bus8 :: encodePinMap pins
  | .begin cols lines cell => [0x01, cols, lines, encodeCell cell]
  | .clear => [0x02]
  | .home => [0x03]
  | .setCursor col row => [0x04, col, row]
  | .displayOff => [0x05]
  | .displayOn => [0x06]
  | .cursorOff => [0x07]
  | .cursorOn => [0x08]
  | .blinkOff => [0x09]
  | .blinkOn => [0x0A]
  | .scrollLeft => [0x0B]
  | .scrollRight => [0x0C]
  | .leftToRight => [0x0D]
  | .rightToLeft => [0x0E]
  | .autoscrollOn => [0x0F]
  | .autoscrollOff => [0x10]
  | .writeChar b => [0x11, b]
  | .writeString text => 0x12 :: (text ++ [0x00])
  | .createChar slot pattern => 0x13 :: slot :: pattern.bytes
  | .setBacklight on => [0x14, encodeBool on]
  | .clearDisplay => [0b00000001#8]
  | .returnHome unused => [0b0000001#7 ++ unused]
  | .entryModeSet left shift => [0b000001#6 ++ BitVec.ofBool left ++ BitVec.ofBool shift]
  | .displayControl display cursor blink =>
    [0b00001#5 ++ BitVec.ofBool display ++ BitVec.ofBool cursor ++ BitVec.ofBool blink]
  | .cursorShift move right unused => [0b0001#4 ++ BitVec.ofBool move ++ BitVec.ofBool right ++ unused]
  | .functionSet bus8 twoLine tallFont unused =>
    [0b001#3 ++ BitVec.ofBool bus8 ++ BitVec.ofBool twoLine ++ BitVec.ofBool tallFont ++ unused]
  | .setCgramAddress slot unused => [0b01#2 ++ slot ++ unused]
  | .setDdramAddress address => [0b1#1 ++ address]

/-! ### The opcode table's numbering -/

/-- The bytes of an instruction whose bits are `w`, first byte in bits 7..0, the bits above `nbits` zero, long enough
for the longest operation with a fixed length (INIT, 13 bytes) and for a terminator. -/
def tableBytes (nbits w : Nat) : List Byte :=
  (List.range (max 13 (nbits / 8 + 1))).map fun k => BitVec.ofNat 8 ((w % 2 ^ nbits) >>> (8 * k))

/-- The stream on which the bytes of a table word are read: the host's, unless its opcode is unassigned there and the
byte is an HD44780 instruction byte. The table holds both formats and its words do not say which they are (log 3). -/
def tablePort (nbits w : Nat) : Port :=
  match decodeHost (tableBytes nbits w) with
  | .error (.unassignedOpcode _) => .command
  | .error _ => .host
  | .ok _ => .host

/-- The instruction the decoders read from a table word. -/
def decodeTableWord (nbits w : Nat) : Option Instr :=
  match decodeAt (tablePort nbits w) (tableBytes nbits w) with
  | .ok (i, _) => some i
  | .error _ => none

/-- The bytes of a table word that its instruction takes up; all of them where no decoder reads one. -/
def tableWordBytes (nbits w : Nat) : List Byte :=
  match decodeAt (tablePort nbits w) (tableBytes nbits w) with
  | .ok (_, rest) => (tableBytes nbits w).take ((tableBytes nbits w).length - rest.length)
  | .error _ => tableBytes nbits w

end Sys2Proof
end

