-- ==== Sys2Proof/Machine/State.lean ====
section
/-! DEFINITION. The machine's state as plain data: the block's own fields, the delay parameters, the environment behind
the register-proxy interface, the bytes waiting at the block, and the record of what the block did. -/

namespace Sys2Proof.Machine

/-- The lifecycle state (10_state.md R21, 42_initialization.md R142). -/
inductive Fsm where
  | unconfigured
  | roleAssigned
  | ready
  deriving DecidableEq, Repr

/-- The kind of transaction that failed, the model-level cause of a BusError (60_exceptions.md R201). -/
inductive Cause where
  | read
  | write
  deriving DecidableEq, Repr

/-- What an operation returns to the host (00_scope.md R10). -/
inductive Status where
  /-- `Ok`. -/
  | ok
  /-- `Ok(flag)`: BEGIN's success flag (42_initialization.md R148). -/
  | okFlag (flag : Bool)
  /-- `BusError(cause)` with whatever the proxy attached, opaque to the block (60_exceptions.md R201, log 16). -/
  | busError (cause : Cause) (detail : Nat)
  deriving DecidableEq, Repr

/-- The register proxy's answer to one transaction (20_memory.md R51, R54, R67). -/
inductive Reply where
  /-- The transaction succeeds under the contract of R52: a read returns the latch, a write replaces it. -/
  | ok
  /-- The transaction succeeds; a read answers `v` whatever the latch holds (R64: the single-owner premise is broken). -/
  | answer (v : Byte)
  /-- The transaction fails with BusError; after a failed write the latch holds `after`, any byte (R54). `detail` is
  what the proxy attaches (60_exceptions.md R201). -/
  | fail (after : Byte) (detail : Nat)
  /-- The transaction is never answered (70_reset_and_hazards.md R246). Where it is a write the spec does not say what
  the latch holds then: `after`, any byte (DESIGN CHOICE, a free value, log 10). -/
  | silent (after : Byte)
  deriving DecidableEq, Repr

/-- An event of the trace (00_scope.md R14). -/
inductive Event where
  /-- `RD(v)`: a read that returned `v`. -/
  | rd (v : Byte)
  /-- `WR(v)`: a write of `v` that succeeded. -/
  | wr (v : Byte)
  /-- `RD!`: a read that failed. -/
  | rdFail
  /-- `WR!(v)`: a write of `v` that failed. -/
  | wrFail (v : Byte)
  /-- `DLY(n)`: a delay of `n` milliseconds that returned. -/
  | dly (n : Nat)
  deriving DecidableEq, Repr

/-- A byte whose Send ran to its end, with its command/data select: `isData` is the level of RS
(41_byte_transmission.md R124). -/
structure Sent where
  byte : Byte
  isData : Bool
  deriving DecidableEq, Repr

/-- Why the machine stops for good. -/
inductive Fault where
  /-- Raised by `step` when an earlier transaction was never answered: the block stays at that transaction for ever
  (70_reset_and_hazards.md R246; 93_implementation_defined.md U10, treatment `stuck`). Safe: no claim passes through
  it, and the hardware takes no step there either (log 10). -/
  | transactionUnanswered
  deriving DecidableEq, Repr

/-- Why an instruction has no meaning. -/
inductive Refusal where
  /-- Raised by an arm of `exec` whose instruction is not modelled. Safe. No arm is left that raises it. -/
  | notModelled (mnemonic : String)
  /-- Raised by `step` when the bytes at a port begin with no instruction: an unassigned opcode, a bool, cell or pin
  operand outside its values (60_exceptions.md R207); DESIGN CHOICE, an incomplete operation (log 17) and the byte 0x00
  on the command stream (log 2). Safe. -/
  | undecodable (why : Reject)
  /-- Raised by an operation presented in a lifecycle state in which it is not defined (42_initialization.md R143,
  60_exceptions.md R207). Safe. -/
  | outsideLifecycle (fsm : Fsm)
  /-- Raised by SETCURSOR when the row after clamping is above 3 (43_display_cursor_ops.md R165,
  60_exceptions.md R207). Safe. -/
  | rowOutsideTable (row : Byte)
  deriving DecidableEq, Repr

/-- The state of the machine. -/
structure State where
  /-- Lifecycle state (10_state.md R21). -/
  fsm : Fsm
  /-- Role to bit position, fixed at INIT (10_state.md R24). -/
  pinMap : PinMap
  /-- Bit 4 BUS8, bit 3 TWO_LINE, bit 2 TALL_FONT (10_state.md R27). -/
  modeFlags : Byte
  /-- Bit 2 DISPLAY_ON, bit 1 CURSOR_ON, bit 0 BLINK_ON (10_state.md R28). -/
  displayControlFlags : Byte
  /-- Bit 1 ENTRY_LEFT, bit 0 SHIFT_INCREMENT (10_state.md R29). -/
  entryModeFlags : Byte
  /-- The configured line geometry (10_state.md R30). -/
  lineCount : Byte
  /-- Written by BEGIN, read by nothing (10_state.md R31). -/
  currentLine : Byte
  /-- The six delay arguments (00_scope.md R7); written by nothing. -/
  timing : Timing
  /-- L, the content of the expander's output register (10_state.md R38 (a)). -/
  latch : Byte
  /-- The proxy's coming answers, one per transaction, the next first; past its end every transaction succeeds under
  the contract (log 7). -/
  replies : List Reply
  /-- The bytes the host presents, in the host format (30_encoding.md R81). -/
  hostPort : List Byte
  /-- HD44780 instruction bytes waiting to be delivered by `Command` (30_encoding.md R93, log 2). -/
  commandPort : List Byte
  /-- Every interface event so far, oldest first (00_scope.md R14). -/
  trace : List Event
  /-- What the last operation returned; `none` while none has returned (log 12). -/
  status : Option Status
  /-- Every byte whose Send ran to its end, oldest first (log 13). -/
  sent : List Sent
  /-- A transaction is outstanding that will never be answered (70_reset_and_hazards.md R246). -/
  waiting : Bool
  deriving DecidableEq, Repr

/-! ### Named updates -/

def State.setFsm (s : State) (v : Fsm) : State := { s with fsm := v }
def State.setPinMap (s : State) (v : PinMap) : State := { s with pinMap := v }
def State.setModeFlags (s : State) (v : Byte) : State := { s with modeFlags := v }
def State.setDisplayControlFlags (s : State) (v : Byte) : State := { s with displayControlFlags := v }
def State.setEntryModeFlags (s : State) (v : Byte) : State := { s with entryModeFlags := v }
def State.setLineCount (s : State) (v : Byte) : State := { s with lineCount := v }
def State.setCurrentLine (s : State) (v : Byte) : State := { s with currentLine := v }
def State.setLatch (s : State) (v : Byte) : State := { s with latch := v }
def State.setReplies (s : State) (v : List Reply) : State := { s with replies := v }
def State.setHostPort (s : State) (v : List Byte) : State := { s with hostPort := v }
def State.setCommandPort (s : State) (v : List Byte) : State := { s with commandPort := v }
def State.setStatus (s : State) (v : Option Status) : State := { s with status := v }
def State.setWaiting (s : State) (v : Bool) : State := { s with waiting := v }

/-- The event `v` happens at an interface. -/
def State.log (s : State) (v : Event) : State := { s with trace := s.trace ++ [v] }

/-- A Send has run to its end. -/
def State.recordSent (s : State) (v : Sent) : State := { s with sent := s.sent ++ [v] }

/-! ### Reset -/

/-- The block as reset creates it, over a latch that holds `latch0` (10_state.md R39, 70_reset_and_hazards.md R230):
`Unconfigured`, idle, no transaction or delay issued, OUT not touched. The spec gives the other fields no value there;
theirs are DESIGN CHOICE (log 4), and the lifecycle lets no operation read one before it is written. -/
def State.resetWith (latch0 : Byte) : State where
  fsm := .unconfigured
  pinMap := { rs := none, rw := none, en := none, d0 := none, d1 := none, d2 := none, d3 := none, d4 := none,
              d5 := none, d6 := none, d7 := none }
  modeFlags := 0x00
  displayControlFlags := 0x00
  entryModeFlags := 0x00
  lineCount := 0x00
  currentLine := 0x00
  timing := Config.defaultTiming
  latch := latch0
  replies := []
  hostPort := []
  commandPort := []
  trace := []
  status := none
  sent := []
  waiting := false

/-- The machine right after reset, with the latch at the value of log 5. -/
def State.reset : State := State.resetWith Config.latchAtReset

end Sys2Proof.Machine
end

