-- ==== Sys2Proof/Machine/Flags.lean ====
section
/-! DEFINITION. The three flag registers: their bits, merging and clearing a flag, and the instruction bytes composed
from them (10_state.md R27 to R29, 30_encoding.md R83, R87). -/

namespace Sys2Proof.Machine

/-- `BUS8`, the 8-bit-mode flag (10_state.md R27). -/
def flagBus8 : Byte := 0x10
/-- `TWO_LINE` (10_state.md R27). -/
def flagTwoLine : Byte := 0x08
/-- `TALL_FONT` (10_state.md R27). -/
def flagTallFont : Byte := 0x04
/-- `DISPLAY_ON` (10_state.md R28). -/
def flagDisplayOn : Byte := 0x04
/-- `CURSOR_ON` (10_state.md R28). -/
def flagCursorOn : Byte := 0x02
/-- `BLINK_ON` (10_state.md R28). -/
def flagBlinkOn : Byte := 0x01
/-- `ENTRY_LEFT` (10_state.md R29). -/
def flagEntryLeft : Byte := 0x02
/-- `SHIFT_INCREMENT` (10_state.md R29). -/
def flagShiftIncrement : Byte := 0x01

/-- Merging a flag: bitwise OR (30_encoding.md R95). -/
def mergeFlag (register flag : Byte) : Byte := register ||| flag

/-- Clearing a flag: AND with its complement (30_encoding.md R95). -/
def clearFlag (register flag : Byte) : Byte := register &&& ~~~flag

/-- `mode_flags` as INIT leaves it: the bus width, one line, 5x8 (42_initialization.md R140). -/
def initMode (bus8 : Bool) : Byte := if bus8 then flagBus8 else 0x00

/-- `mode_flags` as BEGIN leaves it: the two-line flag is merged when there is more than one line, the tall-font flag
when the cell is 5x10 and there is exactly one (42_initialization.md R141, R146 (c)). -/
def beginMode (lines : Byte) (cell : Cell) (mode : Byte) : Byte :=
  let mode := if 1 < lines then mergeFlag mode flagTwoLine else mode
  if cell = .tall ∧ lines = 1 then mergeFlag mode flagTallFont else mode

/-- The bus-width mode that selects the framing: bit 4 of `mode_flags` (30_encoding.md R90). -/
def isBus8 (mode : Byte) : Bool := mode.getLsbD 4

/-- The function-set instruction (30_encoding.md R83). -/
def functionSetByte (mode : Byte) : Byte := 0x20 ||| mode

/-- The display-control instruction (30_encoding.md R83). -/
def displayControlByte (flags : Byte) : Byte := 0x08 ||| flags

/-- The entry-mode-set instruction (30_encoding.md R83). -/
def entryModeByte (flags : Byte) : Byte := 0x04 ||| flags

/-- The cursor-shift instruction with display-move set (30_encoding.md R87). -/
def scrollByte (right : Bool) : Byte := 0x10 ||| 0x08 ||| (if right then 0x04 else 0x00)

end Sys2Proof.Machine
end

