-- ==== Sys2Proof/Machine/Operands.lean ====
section
/-! DEFINITION. Operand arithmetic: bit replacement, nibbles, the row clamp and the address bytes (00_scope.md R13,
30_encoding.md R87 to R89, R95). All of it is 8-bit unsigned. -/

namespace Sys2Proof.Machine

/-- `setbit(v, p, l)` of 00_scope.md R13. -/
def setBit (v : Byte) (p : Fin 8) (level : Bool) : Byte :=
  if level then v ||| ((0x01 : Byte) <<< p.val) else v &&& ~~~((0x01 : Byte) <<< p.val)

/-- Bits 7 to 4 of a byte, the nibble sent first (41_byte_transmission.md R124). -/
def highNibble (b : Byte) : BitVec 4 := b.extractLsb' 4 4

/-- Bits 3 to 0 of a byte. -/
def lowNibble (b : Byte) : BitVec 4 := b.extractLsb' 0 4

/-- The row SETCURSOR uses: a row at or above `line_count` becomes `line_count - 1`, which wraps to 0xFF when
`line_count` is 0 (43_display_cursor_ops.md R165). -/
def clampRow (lineCount row : Byte) : Byte := if lineCount ≤ row then lineCount - 1 else row

/-- The `row_offset` table (30_encoding.md R88); no entry for a row above 3. -/
def rowOffset (row : Byte) : Option Byte :=
  match row.toNat with
  | 0 => some 0x00
  | 1 => some 0x40
  | 2 => some 0x14
  | 3 => some 0x54
  | _ => none

/-- The set-DDRAM-address instruction, an 8-bit sum and then the OR (30_encoding.md R87). -/
def ddramByte (col offset : Byte) : Byte := 0x80 ||| (col + offset)

/-- The set-CGRAM-address instruction of a glyph slot, the slot masked to 3 bits (30_encoding.md R89). -/
def cgramByte (slot : Byte) : Byte := 0x40 ||| ((slot &&& 0x07) <<< 3)

end Sys2Proof.Machine
end

