-- ==== Sys2Proof/Machine/Ops.lean ====
section
/-! DEFINITION. The operations every instruction is written with: the two transactions of the register proxy, the
delay, the bus error, the sequencer that runs a straight-line list of pin-level actions, and the internal procedures
PulseEnable, Write4Bits, Write8Bits and Send as such lists. -/

namespace Sys2Proof.Machine

/-- The outcome of one operation. -/
abbrev Outcome := Host.Outcome State Fault Refusal

/-! ### The bus error -/

/-- TAKING THE EXCEPTION: the block's one exception ends the running operation with status `BusError` and saves
nothing, moves to no handler and rolls nothing back (60_exceptions.md R203, R204). There is no return from it: the
block is idle again and accepts the next operation (R206). -/
def raiseBusError (cause : Cause) (detail : Nat) (s : State) : State := s.setStatus (some (.busError cause detail))

/-- The answer to the next transaction (20_memory.md R67); past the end of the list, success under the contract. -/
def nextReply (s : State) : Reply := s.replies.headD .ok

/-- The answer to the next transaction has been used up. -/
def dropReply (s : State) : State := s.setReplies s.replies.tail

/-! ### Transactions and delays -/

/-- How far an operation has come: it goes on in `s`, or it has ended in `s` (a BusError, or a transaction that is
never answered). -/
inductive Progress where
  | going (s : State)
  | ended (s : State)
  deriving DecidableEq, Repr

/-- What comes next is done only if the operation has not ended: no later transaction, delay or field write
(60_exceptions.md R203). -/
def Progress.andThen : Progress → (State → Progress) → Progress
  | .going s, k => k s
  | .ended s, _ => .ended s

/-- The outcome of a read: the byte it answered, or the operation has ended. -/
inductive Read where
  | got (v : Byte) (s : State)
  | ended (s : State)
  deriving DecidableEq, Repr

/-- `RdReg()` (20_memory.md R51, R52). Only a write can change the latch (log 8, log 10). -/
def rdReg (s : State) : Read :=
  match nextReply s with
  | .ok => .got s.latch ((dropReply s).log (.rd s.latch))
  | .answer v => .got v ((dropReply s).log (.rd v))
  | .fail _ detail => .ended (raiseBusError .read detail ((dropReply s).log .rdFail))
  | .silent _ => .ended ((dropReply s).setWaiting true)

/-- `WrReg(v)` (20_memory.md R52, R54). DESIGN CHOICE (log 10): after a write that is never answered the latch holds any
byte, the one the answer names. -/
def wrReg (v : Byte) (s : State) : Progress :=
  match nextReply s with
  | .ok => .going (((dropReply s).setLatch v).log (.wr v))
  | .answer _ => .going (((dropReply s).setLatch v).log (.wr v))
  | .fail after detail => .ended (raiseBusError .write detail (((dropReply s).setLatch after).log (.wrFail v)))
  | .silent after => .ended (((dropReply s).setLatch after).setWaiting true)

/-- One read, then one write of the byte read with bit `p` replaced (40_pin_io.md R110, R112). -/
def readModifyWrite (p : Fin 8) (level : Bool) (s : State) : Progress :=
  match rdReg s with
  | .got v s => wrReg (setBit v p level) s
  | .ended s => .ended s

/-- `SetPin(p, level)` (40_pin_io.md R110): a no-op with no transaction when the pin is `UNUSED`. -/
def setPin (p : Pin) (level : Bool) (s : State) : Progress :=
  match p with
  | none => .going s
  | some p => readModifyWrite p level s

/-- `Delay(n)` (20_memory.md R66): never fails and always returns. -/
def delay (n : Nat) (s : State) : Progress := .going (s.log (.dly n))

/-! ### The sequencer

Inside an operation the pseudocode is straight-line once the mode bit, the pin map and the operands are known
(10_state.md R22), so a procedure is the list of its actions, and running it is running them in order. -/

/-- One action of the sequencer. -/
inductive Action where
  /-- `SetPin(p, level)`. -/
  | drive (p : Pin) (level : Bool)
  /-- `Delay(ms)`. -/
  | wait (ms : Nat)
  /-- A Send has run to its end: no interface event, only the model's record (log 13). -/
  | delivered (b : Byte) (isData : Bool)
  deriving DecidableEq, Repr

/-- One action. -/
def runAction : Action → State → Progress
  | .drive p level, s => setPin p level s
  | .wait ms, s => delay ms s
  | .delivered b isData, s => .going (s.recordSent { byte := b, isData := isData })

/-- Actions in the order written, up to the first that ends the operation (20_memory.md R62, 60_exceptions.md R203). -/
def runActions : List Action → State → Progress
  | [], s => .going s
  | a :: rest, s => (runAction a s).andThen (runActions rest)

/-- `PulseEnable()` (41_byte_transmission.md R120): Enable low, high, low, a wait after each. -/
def pulseEnable (pins : PinMap) (t : Timing) : List Action :=
  [.drive (pins.pin .en) false, .wait t.pulse, .drive (pins.pin .en) true, .wait t.pulse,
    .drive (pins.pin .en) false, .wait t.pulse]

/-- `Write4Bits(n)` (41_byte_transmission.md R122): bit i of the nibble on Data_i, ascending, then one pulse. -/
def write4Bits (pins : PinMap) (t : Timing) (n : BitVec 4) : List Action :=
  [.drive (pins.pin .d0) (n.getLsbD 0), .drive (pins.pin .d1) (n.getLsbD 1), .drive (pins.pin .d2) (n.getLsbD 2),
    .drive (pins.pin .d3) (n.getLsbD 3)] ++ pulseEnable pins t

/-- `Write8Bits(b)` (41_byte_transmission.md R123): bit i of the byte on Data_i, ascending, then one pulse. -/
def write8Bits (pins : PinMap) (t : Timing) (b : Byte) : List Action :=
  [.drive (pins.pin .d0) (b.getLsbD 0), .drive (pins.pin .d1) (b.getLsbD 1), .drive (pins.pin .d2) (b.getLsbD 2),
    .drive (pins.pin .d3) (b.getLsbD 3), .drive (pins.pin .d4) (b.getLsbD 4), .drive (pins.pin .d5) (b.getLsbD 5),
    .drive (pins.pin .d6) (b.getLsbD 6), .drive (pins.pin .d7) (b.getLsbD 7)] ++ pulseEnable pins t

/-- `Send(b, isData)` (41_byte_transmission.md R124): RS, then RW low, then the byte in the framing of the bus mode,
the high nibble first in 4-bit mode. -/
def send (pins : PinMap) (t : Timing) (bus8 : Bool) (b : Byte) (isData : Bool) : List Action :=
  [.drive (pins.pin .rs) isData, .drive (pins.pin .rw) false]
    ++ (if bus8 then write8Bits pins t b
        else write4Bits pins t (highNibble b) ++ write4Bits pins t (lowNibble b))
    ++ [.delivered b isData]

/-- `Send(b, isData)` with the block's own pin map, mode and delays. -/
def State.send (s : State) (b : Byte) (isData : Bool) : List Action :=
  Machine.send s.pinMap s.timing (isBus8 s.modeFlags) b isData

/-- `Command(b)`, that is `Send(b, 0)` (30_encoding.md R93). -/
def State.command (s : State) (b : Byte) : List Action := s.send b false

/-- `Data(b)` for each byte in order, that is `Send(b, 1)` (30_encoding.md R93). -/
def State.dataBytes (s : State) (bytes : List Byte) : List Action := bytes.flatMap fun b => s.send b true

/-! ### Beginning and ending an operation -/

/-- A new operation has been accepted: nothing has been returned for it yet. -/
def accept (s : State) : State := s.setStatus none

/-- An operation that has run to its end returns `result`; one that has ended early keeps what ended it. -/
def finish (result : Status) : Progress → Outcome
  | .going s => .next (s.setStatus (some result))
  | .ended s => .next s

/-- An operation defined in `Unconfigured` only (42_initialization.md R143). -/
def inUnconfigured (s : State) (run : State → Outcome) : Outcome :=
  match s.fsm with
  | .unconfigured => run (accept s)
  | .roleAssigned => .refused (.outsideLifecycle .roleAssigned)
  | .ready => .refused (.outsideLifecycle .ready)

/-- An operation defined in `RoleAssigned` only (42_initialization.md R143). -/
def inRoleAssigned (s : State) (run : State → Outcome) : Outcome :=
  match s.fsm with
  | .unconfigured => .refused (.outsideLifecycle .unconfigured)
  | .roleAssigned => run (accept s)
  | .ready => .refused (.outsideLifecycle .ready)

/-- An operation defined in `Ready` only (42_initialization.md R143). -/
def inReady (s : State) (run : State → Outcome) : Outcome :=
  match s.fsm with
  | .unconfigured => .refused (.outsideLifecycle .unconfigured)
  | .roleAssigned => .refused (.outsideLifecycle .roleAssigned)
  | .ready => run (accept s)

/-- A `Command` of the block itself: it needs the pin map and the bus mode, which INIT writes, so it is defined once
INIT has run; BEGIN issues commands in `RoleAssigned`, the other operations in `Ready` (log 2). -/
def onceConfigured (s : State) (run : State → Outcome) : Outcome :=
  match s.fsm with
  | .unconfigured => .refused (.outsideLifecycle .unconfigured)
  | .roleAssigned => run (accept s)
  | .ready => run (accept s)

/-- A whole operation that is a list of actions and returns `Ok`. -/
def perform (actions : List Action) (s : State) : Outcome := finish .ok (runActions actions s)

end Sys2Proof.Machine
end

