-- ==== Sys2Proof/Machine/Characters.lean ====
section
/-! DEFINITION. Character output, custom glyphs and the backlight (43_display_cursor_ops.md sections 7 to 9). -/

namespace Sys2Proof.Machine

/-- WRITE_CHAR (43_display_cursor_ops.md R178). -/
def execWriteChar (b : Byte) (s : State) : Outcome :=
  inReady s fun s => perform (s.send b true) s

/-- WRITE_STRING (43_display_cursor_ops.md R179): the characters in order; the terminator is not sent. -/
def execWriteString (text : List Byte) (s : State) : Outcome :=
  inReady s fun s => perform (s.dataBytes text) s

/-- CREATE_CHAR (43_display_cursor_ops.md R180): the set-CGRAM-address instruction, then the eight pattern bytes. -/
def execCreateChar (slot : Byte) (pattern : Glyph) (s : State) : Outcome :=
  inReady s fun s => perform (s.command (cgramByte slot) ++ s.dataBytes pattern.bytes) s

/-- SET_BACKLIGHT (43_display_cursor_ops.md R181): one read and one write of bit 7, past the pin map. -/
def execSetBacklight (on : Bool) (s : State) : Outcome :=
  inReady s fun s => finish .ok (readModifyWrite 7 on s)

end Sys2Proof.Machine
end

