-- ==== Sys2Proof/Machine/Command.lean ====
section
/-! DEFINITION. The eight HD44780 instruction kinds as the block executes them: `Command(b)`, that is `Send(b, 0)`, of
the instruction byte (30_encoding.md R83, R84, R91, R93; log 2). Send makes no wait of its own, so the long wait after
clear-display and return-home belongs to CLEAR, HOME and BEGIN (41_byte_transmission.md R124). -/

namespace Sys2Proof.Machine

/-- Deliver one instruction byte: each field of 30_encoding.md R84 has been put at its place by the caller. -/
def deliver (b : Byte) (s : State) : Outcome :=
  onceConfigured s fun s => perform (s.command b) s

/-- One field of an instruction byte: `flag` where `on`, nothing otherwise (30_encoding.md R83). -/
def field (on : Bool) (flag : Byte) : Byte := if on then flag else 0x00

/-- clear-display, 0x01 (30_encoding.md R84). -/
def execClearDisplay (s : State) : Outcome := deliver 0x01 s

/-- return-home, 0x02 with bit 0 as given (30_encoding.md R84, R94). -/
def execReturnHome (unused : BitVec 1) (s : State) : Outcome :=
  deliver (0x02 ||| unused.setWidth 8) s

/-- entry-mode-set, 0x04 with entry-left and shift-increment (30_encoding.md R84). -/
def execEntryModeSet (left shift : Bool) (s : State) : Outcome :=
  deliver (entryModeByte (field left flagEntryLeft ||| field shift flagShiftIncrement)) s

/-- display-control, 0x08 with display-on, cursor-on and blink-on (30_encoding.md R84). -/
def execDisplayControl (display cursor blink : Bool) (s : State) : Outcome :=
  deliver (displayControlByte
    (field display flagDisplayOn ||| field cursor flagCursorOn ||| field blink flagBlinkOn)) s

/-- cursor-shift, 0x10 with display-move, move-right and bits 1 to 0 as given (30_encoding.md R84, R94). -/
def execCursorShift (move right : Bool) (unused : BitVec 2) (s : State) : Outcome :=
  deliver (0x10 ||| field move 0x08 ||| field right 0x04 ||| unused.setWidth 8) s

/-- function-set, 0x20 with 8-bit-mode, 2-line, tall-font and bits 1 to 0 as given (30_encoding.md R84, R94). -/
def execFunctionSet (bus8 twoLine tallFont : Bool) (unused : BitVec 2) (s : State) : Outcome :=
  deliver (functionSetByte
    (field bus8 flagBus8 ||| field twoLine flagTwoLine ||| field tallFont flagTallFont ||| unused.setWidth 8)) s

/-- set-CGRAM-address, 0x40 with the slot in bits 5 to 3 and bits 2 to 0 as given (30_encoding.md R84, R94). -/
def execSetCgramAddress (slot : BitVec 3) (unused : BitVec 3) (s : State) : Outcome :=
  deliver (cgramByte (slot.setWidth 8) ||| unused.setWidth 8) s

/-- set-DDRAM-address, 0x80 with the address in bits 6 to 0 (30_encoding.md R84). -/
def execSetDdramAddress (address : BitVec 7) (s : State) : Outcome :=
  deliver (0x80 ||| address.setWidth 8) s

end Sys2Proof.Machine
end

