-- ==== Sys2Proof/Machine/Cursor.lean ====
section
/-! DEFINITION. CLEAR, HOME, SETCURSOR and the two scrolls (43_display_cursor_ops.md sections 2, 3 and 5). -/

namespace Sys2Proof.Machine

/-- CLEAR (43_display_cursor_ops.md R161): the long wait comes after the whole Send. -/
def execClear (s : State) : Outcome :=
  inReady s fun s => perform (s.command 0x01 ++ [.wait s.timing.long]) s

/-- HOME (43_display_cursor_ops.md R162). -/
def execHome (s : State) : Outcome :=
  inReady s fun s => perform (s.command 0x02 ++ [.wait s.timing.long]) s

/-- SETCURSOR (43_display_cursor_ops.md R165): a row the table has no entry for after the clamp is refused. -/
def execSetCursor (col row : Byte) (s : State) : Outcome :=
  inReady s fun s =>
    match rowOffset (clampRow s.lineCount row) with
    | some offset => perform (s.command (ddramByte col offset)) s
    | none => .refused (.rowOutsideTable (clampRow s.lineCount row))

/-- SCROLL_LEFT (43_display_cursor_ops.md R172). -/
def execScrollLeft (s : State) : Outcome :=
  inReady s fun s => perform (s.command (scrollByte false)) s

/-- SCROLL_RIGHT (43_display_cursor_ops.md R173). -/
def execScrollRight (s : State) : Outcome :=
  inReady s fun s => perform (s.command (scrollByte true)) s

end Sys2Proof.Machine
end

