-- ==== Sys2Proof/Machine/DisplayControl.lean ====
section
/-! DEFINITION. The six operations on `display_control_flags` (43_display_cursor_ops.md section 4). -/

namespace Sys2Proof.Machine

/-- The register is written first, then the whole display-control instruction is sent (43_display_cursor_ops.md
R160 (d)). -/
def resendDisplayControl (flags : Byte) (s : State) : Outcome :=
  let s := s.setDisplayControlFlags flags
  perform (s.command (displayControlByte s.displayControlFlags)) s

/-- DISPLAY_ON (43_display_cursor_ops.md R166). -/
def execDisplayOn (s : State) : Outcome :=
  inReady s fun s => resendDisplayControl (mergeFlag s.displayControlFlags flagDisplayOn) s

/-- DISPLAY_OFF (43_display_cursor_ops.md R167). -/
def execDisplayOff (s : State) : Outcome :=
  inReady s fun s => resendDisplayControl (clearFlag s.displayControlFlags flagDisplayOn) s

/-- CURSOR_ON (43_display_cursor_ops.md R168). -/
def execCursorOn (s : State) : Outcome :=
  inReady s fun s => resendDisplayControl (mergeFlag s.displayControlFlags flagCursorOn) s

/-- CURSOR_OFF (43_display_cursor_ops.md R169). -/
def execCursorOff (s : State) : Outcome :=
  inReady s fun s => resendDisplayControl (clearFlag s.displayControlFlags flagCursorOn) s

/-- BLINK_ON (43_display_cursor_ops.md R170). -/
def execBlinkOn (s : State) : Outcome :=
  inReady s fun s => resendDisplayControl (mergeFlag s.displayControlFlags flagBlinkOn) s

/-- BLINK_OFF (43_display_cursor_ops.md R171). -/
def execBlinkOff (s : State) : Outcome :=
  inReady s fun s => resendDisplayControl (clearFlag s.displayControlFlags flagBlinkOn) s

end Sys2Proof.Machine
end

