-- ==== Sys2Proof/Machine/EntryMode.lean ====
section
/-! DEFINITION. The four operations on `entry_mode_flags` (43_display_cursor_ops.md section 6). -/

namespace Sys2Proof.Machine

/-- The register is written first, then the whole entry-mode-set instruction is sent (43_display_cursor_ops.md
R160 (d)). -/
def resendEntryMode (flags : Byte) (s : State) : Outcome :=
  let s := s.setEntryModeFlags flags
  perform (s.command (entryModeByte s.entryModeFlags)) s

/-- LEFT_TO_RIGHT (43_display_cursor_ops.md R174). -/
def execLeftToRight (s : State) : Outcome :=
  inReady s fun s => resendEntryMode (mergeFlag s.entryModeFlags flagEntryLeft) s

/-- RIGHT_TO_LEFT (43_display_cursor_ops.md R175). -/
def execRightToLeft (s : State) : Outcome :=
  inReady s fun s => resendEntryMode (clearFlag s.entryModeFlags flagEntryLeft) s

/-- AUTOSCROLL_ON (43_display_cursor_ops.md R176). -/
def execAutoscrollOn (s : State) : Outcome :=
  inReady s fun s => resendEntryMode (mergeFlag s.entryModeFlags flagShiftIncrement) s

/-- AUTOSCROLL_OFF (43_display_cursor_ops.md R177). -/
def execAutoscrollOff (s : State) : Outcome :=
  inReady s fun s => resendEntryMode (clearFlag s.entryModeFlags flagShiftIncrement) s

end Sys2Proof.Machine
end

