-- ==== Sys2Proof/Machine/Lifecycle.lean ====
section
/-! DEFINITION. INIT and BEGIN, the two operations of the lifecycle state machine (42_initialization.md). -/

namespace Sys2Proof.Machine

/-- INIT (42_initialization.md R140): the pin map, the bus width, one line; no transaction, no delay. -/
def execInit (bus8 : Bool) (pins : PinMap) (s : State) : Outcome :=
  inUnconfigured s fun s =>
    .next (((((s.setPinMap pins).setModeFlags (initMode bus8)).setLineCount 1).setFsm .roleAssigned).setStatus
      (some .ok))

/-- The 4-bit reset sequence (42_initialization.md R144): nibbles 3, 3, 3, 2, RS and RW left low. -/
def resetSequence4 (pins : PinMap) (t : Timing) : List Action :=
  write4Bits pins t 0x3 ++ [.wait t.rst1] ++ write4Bits pins t 0x3 ++ [.wait t.rst2]
    ++ write4Bits pins t 0x3 ++ [.wait t.rst3] ++ write4Bits pins t 0x2

/-- The 8-bit reset sequence (42_initialization.md R145): the function-set command three times. -/
def resetSequence8 (pins : PinMap) (t : Timing) (mode : Byte) : List Action :=
  send pins t true (functionSetByte mode) false ++ [.wait t.rst1]
    ++ send pins t true (functionSetByte mode) false ++ [.wait t.rst2]
    ++ send pins t true (functionSetByte mode) false ++ [.wait t.rst3]

/-- BEGIN up to its final function-set (42_initialization.md R141): the power-up wait, RS, Enable and RW low, the
reset sequence of the bus mode, the function-set. -/
def wakeUp (s : State) : List Action :=
  [.wait s.timing.powerUp, .drive (s.pinMap.pin .rs) false, .drive (s.pinMap.pin .en) false,
      .drive (s.pinMap.pin .rw) false]
    ++ (if isBus8 s.modeFlags then resetSequence8 s.pinMap s.timing s.modeFlags
        else resetSequence4 s.pinMap s.timing)
    ++ s.command (functionSetByte s.modeFlags)

/-- The field writes BEGIN makes before its first event (42_initialization.md R141). -/
def storeGeometry (lines : Byte) (cell : Cell) (s : State) : State :=
  ((s.setLineCount lines).setCurrentLine 0).setModeFlags (beginMode lines cell s.modeFlags)

/-- BEGIN's hardware bring-up (42_initialization.md R141): each flag register is written just before its instruction,
and the lifecycle state only when everything has been sent. -/
def bringUp (lines : Byte) (cell : Cell) (s : State) : Progress :=
  let s := storeGeometry lines cell s
  (runActions (wakeUp s) s).andThen fun s =>
  let s := s.setDisplayControlFlags 0x04
  (runActions (s.command (displayControlByte s.displayControlFlags) ++ s.command 0x01 ++ [.wait s.timing.long])
    s).andThen fun s =>
  let s := s.setEntryModeFlags 0x02
  (runActions (s.command (entryModeByte s.entryModeFlags)) s).andThen fun s =>
  .going (s.setFsm .ready)

/-- BEGIN (42_initialization.md R141). The column count is read by nothing; the success flag is true once the end is
reached (R148). -/
def execBegin (_cols lines : Byte) (cell : Cell) (s : State) : Outcome :=
  inRoleAssigned s fun s => finish (.okFlag true) (bringUp lines cell s)

end Sys2Proof.Machine
end

