-- ==== Sys2Proof/Machine/Dispatch.lean ====
section
/-! DEFINITION. One arm per instruction. -/

namespace Sys2Proof.Machine

def exec (i : Instr) (s : State) : Host.Outcome State Fault Refusal :=
  match i with
  | .init bus8 pins => Sys2Proof.Machine.execInit bus8 pins s
  | .begin cols lines cell => Sys2Proof.Machine.execBegin cols lines cell s
  | .clear => Sys2Proof.Machine.execClear s
  | .home => Sys2Proof.Machine.execHome s
  | .setCursor col row => Sys2Proof.Machine.execSetCursor col row s
  | .displayOff => Sys2Proof.Machine.execDisplayOff s
  | .displayOn => Sys2Proof.Machine.execDisplayOn s
  | .cursorOff => Sys2Proof.Machine.execCursorOff s
  | .cursorOn => Sys2Proof.Machine.execCursorOn s
  | .blinkOff => Sys2Proof.Machine.execBlinkOff s
  | .blinkOn => Sys2Proof.Machine.execBlinkOn s
  | .scrollLeft => Sys2Proof.Machine.execScrollLeft s
  | .scrollRight => Sys2Proof.Machine.execScrollRight s
  | .leftToRight => Sys2Proof.Machine.execLeftToRight s
  | .rightToLeft => Sys2Proof.Machine.execRightToLeft s
  | .autoscrollOn => Sys2Proof.Machine.execAutoscrollOn s
  | .autoscrollOff => Sys2Proof.Machine.execAutoscrollOff s
  | .writeChar b => Sys2Proof.Machine.execWriteChar b s
  | .writeString text => Sys2Proof.Machine.execWriteString text s
  | .createChar slot pattern => Sys2Proof.Machine.execCreateChar slot pattern s
  | .setBacklight on => Sys2Proof.Machine.execSetBacklight on s
  | .clearDisplay => Sys2Proof.Machine.execClearDisplay s
  | .returnHome unused => Sys2Proof.Machine.execReturnHome unused s
  | .entryModeSet left shift => Sys2Proof.Machine.execEntryModeSet left shift s
  | .displayControl display cursor blink => Sys2Proof.Machine.execDisplayControl display cursor blink s
  | .cursorShift move right unused => Sys2Proof.Machine.execCursorShift move right unused s
  | .functionSet bus8 twoLine tallFont unused => Sys2Proof.Machine.execFunctionSet bus8 twoLine tallFont unused s
  | .setCgramAddress slot unused => Sys2Proof.Machine.execSetCgramAddress slot unused s
  | .setDdramAddress address => Sys2Proof.Machine.execSetDdramAddress address s

end Sys2Proof.Machine
end

