-- ==== Sys2Proof/Machine/Fetch.lean ====
section
/-! DEFINITION. Taking the next operation from the ports. The block has no program counter and fetches nothing
(10_state.md R22): when it is idle, the operation that stands first at a port is the next one (log 1). -/

namespace Sys2Proof.Machine

/-- What stands at the ports. -/
inductive Fetched where
  /-- A transaction is outstanding that is never answered: nothing is taken. -/
  | blocked
  /-- No operation is presented: the block is idle. -/
  | idle
  /-- The next operation, and the state with its bytes taken off the port. -/
  | got (i : Instr) (s : State)
  /-- The bytes begin with no instruction. -/
  | rejected (why : Reject)
  deriving DecidableEq, Repr

/-- The instruction that stands first at a port; `after` puts back what is left there. -/
def takeFrom (port : Port) (bytes : List Byte) (after : List Byte → State) : Fetched :=
  match decodeAt port bytes with
  | .ok (i, rest) => .got i (after rest)
  | .error why => .rejected why

/-- The next operation: the block's own commands before the host's operations, since the host's next operation starts
only when the block is idle (20_memory.md R62 (c)). -/
def fetch (s : State) : Fetched :=
  if s.waiting then .blocked
  else
    match s.commandPort with
    | c :: bytes => takeFrom .command (c :: bytes) s.setCommandPort
    | [] =>
      match s.hostPort with
      | b :: bytes => takeFrom .host (b :: bytes) s.setHostPort
      | [] => .idle

/-- `s` with the instruction of a table word placed first at its port, the block idle and nothing before it. -/
def placeWord (s : State) (nbits w : Nat) : State :=
  match tablePort nbits w with
  | .host => ((s.setWaiting false).setCommandPort []).setHostPort (tableWordBytes nbits w ++ s.hostPort)
  | .command => (s.setWaiting false).setCommandPort (tableWordBytes nbits w ++ s.commandPort)

end Sys2Proof.Machine
end

