-- ==== Sys2Proof/Machine/Step.lean ====
section
/-! DEFINITION. One step of the machine: one operation, run to its end (10_state.md R22, 92_eei_decisions.md D28). -/

namespace Sys2Proof.Machine

/-- One step. An idle block with nothing presented stays as it is (70_reset_and_hazards.md R248); a block at a
transaction that is never answered takes no further step (R246, log 10). -/
def step (s : State) : Host.Outcome State Fault Refusal :=
  match fetch s with
  | .blocked => .fault .transactionUnanswered
  | .idle => .next s
  | .got i s => exec i s
  | .rejected why => .refused (.undecodable why)

/-- `s` with the instruction of a table word placed where `step` takes its next instruction. -/
def State.withFetchWord (s : State) (nbits w : Nat) : State := placeWord s nbits w

end Sys2Proof.Machine
end

