-- ==== Sys2Proof/Machine/Observe.lean ====
section
/-! DEFINITION. What an observer of the interfaces sees: what a list of actions does when the proxy keeps its contract,
the strobes a trace shows the LCD controller, and counts over a trace (20_memory.md R52, 41_byte_transmission.md R125,
R128). No step uses these; statements do. -/

namespace Sys2Proof.Machine

/-! ### Premises on the proxy's coming answers -/

/-- An answer that shows another agent's write (20_memory.md R56, R64). -/
def Reply.isForeign : Reply → Bool
  | .ok => false
  | .answer _ => true
  | .fail _ _ => false
  | .silent _ => false

/-- An answer that fails the transaction (20_memory.md R51). -/
def Reply.isFailure : Reply → Bool
  | .ok => false
  | .answer _ => false
  | .fail _ _ => true
  | .silent _ => false

/-- No answer at all (70_reset_and_hazards.md R246). -/
def Reply.isSilent : Reply → Bool
  | .ok => false
  | .answer _ => false
  | .fail _ _ => false
  | .silent _ => true

/-- THE SINGLE-OWNER PREMISE (20_memory.md R56, 10_state.md R33): no agent but the block writes OUT, so no answer shows a
foreign byte. It allows BusErrors and a hang. -/
abbrev State.soleOwner (s : State) : Prop := ∀ r ∈ s.replies, r.isForeign = false

/-- No coming transaction fails (60_exceptions.md R206). -/
abbrev State.noBusError (s : State) : Prop := ∀ r ∈ s.replies, r.isFailure = false

/-- Every coming transaction is answered (70_reset_and_hazards.md R246). -/
abbrev State.answered (s : State) : Prop := ∀ r ∈ s.replies, r.isSilent = false

/-! ### Running under the contract -/

/-- The proxy answers every coming transaction under the contract of 20_memory.md R52: the three premises above together. -/
abbrev State.busOk (s : State) : Prop := ∀ r ∈ s.replies, r = Reply.ok

/-- The events of one action over the latch content `L`, under the contract. -/
def actionEvents : Action → Byte → List Event
  | .drive none _, _ => []
  | .drive (some p) level, L => [.rd L, .wr (setBit L p level)]
  | .wait ms, _ => [.dly ms]
  | .delivered _ _, _ => []

/-- The latch after one action, under the contract. -/
def actionLatch : Action → Byte → Byte
  | .drive none _, L => L
  | .drive (some p) level, L => setBit L p level
  | .wait _, L => L
  | .delivered _ _, L => L

/-- The number of transactions of one action: two on a position, none on an unused pin (40_pin_io.md R110). -/
def actionCalls : Action → Nat
  | .drive none _ => 0
  | .drive (some _) _ => 2
  | .wait _ => 0
  | .delivered _ _ => 0

/-- The byte one action completes. -/
def actionSent : Action → List Sent
  | .drive _ _ => []
  | .wait _ => []
  | .delivered b isData => [{ byte := b, isData := isData }]

/-- The events of a list of actions over the latch content `L`, under the contract. -/
def eventsOf : List Action → Byte → List Event
  | [], _ => []
  | a :: rest, L => actionEvents a L ++ eventsOf rest (actionLatch a L)

/-- The latch after a list of actions, under the contract. -/
def latchOf : List Action → Byte → Byte
  | [], L => L
  | a :: rest, L => latchOf rest (actionLatch a L)

/-- The number of transactions of a list of actions. -/
def callsOf : List Action → Nat
  | [] => 0
  | a :: rest => actionCalls a + callsOf rest

/-- The bytes a list of actions completes. -/
def sentOf : List Action → List Sent
  | [] => []
  | a :: rest => actionSent a ++ sentOf rest

/-- The state after a list of actions, under the contract: the latch, the trace, the record of bytes sent and the
proxy's coming answers move on; nothing else changes. -/
def State.after (s : State) (actions : List Action) : State :=
  { s with
    latch := latchOf actions s.latch
    trace := s.trace ++ eventsOf actions s.latch
    sent := s.sent ++ sentOf actions
    replies := s.replies.drop (callsOf actions) }

/-! ### Strobes -/

/-- The level of a role's line in the latch content `w`; an unmapped role is shown low. -/
def lineLevel (pins : PinMap) (role : Role) (w : Byte) : Bool :=
  match pins.pin role with
  | some p => w.getLsbD p.val
  | none => false

/-- The number on the data lines whose levels are given: Data0 to Data7 where `wide`, Data0 to Data3 otherwise, Data0
least significant. -/
def dataLines (wide : Bool) (level : Role → Bool) : Byte :=
  if wide then
    BitVec.ofBool (level .d7) ++ BitVec.ofBool (level .d6) ++ BitVec.ofBool (level .d5) ++ BitVec.ofBool (level .d4)
      ++ BitVec.ofBool (level .d3) ++ BitVec.ofBool (level .d2) ++ BitVec.ofBool (level .d1) ++ BitVec.ofBool (level .d0)
  else
    0#4 ++ BitVec.ofBool (level .d3) ++ BitVec.ofBool (level .d2) ++ BitVec.ofBool (level .d1)
      ++ BitVec.ofBool (level .d0)

/-- The bit of a byte that goes to a data role: bit i to Data_i (20_memory.md R55). -/
def roleBit (b : Byte) : Role → Bool
  | .rs => false
  | .rw => false
  | .en => false
  | .d0 => b.getLsbD 0
  | .d1 => b.getLsbD 1
  | .d2 => b.getLsbD 2
  | .d3 => b.getLsbD 3
  | .d4 => b.getLsbD 4
  | .d5 => b.getLsbD 5
  | .d6 => b.getLsbD 6
  | .d7 => b.getLsbD 7

/-- The part of a value that reaches the controller: a data role that is not mapped does not carry its bit
(41_byte_transmission.md R123). -/
def presented (pins : PinMap) (wide : Bool) (b : Byte) : Byte :=
  dataLines wide fun role => (pins.pin role).isSome && roleBit b role

/-- What the controller is shown at a strobe: the select and the data (41_byte_transmission.md R128). -/
structure Strobe where
  select : Bool
  data : Byte
  deriving DecidableEq, Repr

/-- What the lines show in the latch content `w`. -/
def shown (pins : PinMap) (wide : Bool) (w : Byte) : Strobe :=
  { select := lineLevel pins .rs w, data := dataLines wide fun role => lineLevel pins role w }

/-- The strobes of a trace over the latch content `L`: the writes that take Enable from 0 to 1
(41_byte_transmission.md R128). -/
def strobes (pins : PinMap) (wide : Bool) : Byte → List Event → List Strobe
  | _, [] => []
  | L, .wr w :: rest =>
    if lineLevel pins .en L = false ∧ lineLevel pins .en w = true then shown pins wide w :: strobes pins wide w rest
    else strobes pins wide w rest
  | L, .rd _ :: rest => strobes pins wide L rest
  | L, .rdFail :: rest => strobes pins wide L rest
  | L, .wrFail _ :: rest => strobes pins wide L rest
  | L, .dly _ :: rest => strobes pins wide L rest

/-! ### Events -/

/-- A transaction: an `RD`, `WR`, `RD!` or `WR!` event (00_scope.md R18). -/
def Event.isTransaction : Event → Bool
  | .rd _ => true
  | .wr _ => true
  | .rdFail => true
  | .wrFail _ => true
  | .dly _ => false

/-- A failed transaction. -/
def Event.isFailure : Event → Bool
  | .rd _ => false
  | .wr _ => false
  | .rdFail => true
  | .wrFail _ => true
  | .dly _ => false

/-- The write law's shape (40_pin_io.md R112): every write stands directly after the read it derives from, and writes
that byte with one bit replaced. -/
def writesFollowReads : List Event → Prop
  | [] => True
  | .rd v :: .wr w :: rest => (∃ p level, w = setBit v p level) ∧ writesFollowReads rest
  | .rd v :: .wrFail w :: rest => (∃ p level, w = setBit v p level) ∧ writesFollowReads rest
  | .rd _ :: rest => writesFollowReads rest
  | .rdFail :: rest => writesFollowReads rest
  | .dly _ :: rest => writesFollowReads rest
  | .wr _ :: _ => False
  | .wrFail _ :: _ => False

/-- The latch after events that begin over the latch content `L`, if only the block writes: the last byte written. -/
def lastWritten : Byte → List Event → Byte
  | L, [] => L
  | _, .wr w :: rest => lastWritten w rest
  | L, .rd _ :: rest => lastWritten L rest
  | L, .rdFail :: rest => lastWritten L rest
  | L, .wrFail _ :: rest => lastWritten L rest
  | L, .dly _ :: rest => lastWritten L rest

/-- Every read answers the byte last written, and before the first write the latch content `L` (20_memory.md R52). -/
def readsReturnLatch : Byte → List Event → Prop
  | _, [] => True
  | L, .rd v :: rest => v = L ∧ readsReturnLatch L rest
  | _, .wr w :: rest => readsReturnLatch w rest
  | L, .rdFail :: rest => readsReturnLatch L rest
  | L, .wrFail _ :: rest => readsReturnLatch L rest
  | L, .dly _ :: rest => readsReturnLatch L rest

/-- The last instruction byte of a kind among the bytes sent: the kind is given by its mask and match in the opcode
table. -/
def lastInstruction (mask pattern : Byte) (sent : List Sent) : Option Byte :=
  (sent.reverse.find? fun x => !x.isData && x.byte &&& mask == pattern).map Sent.byte

end Sys2Proof.Machine
end

