-- ==== Sys2Proof/Safety.lean ====
section
/-! DEFINITION. The premises claims name and the invariants of the machine. -/

namespace Sys2Proof

/-- Well-formed pin map (10_state.md R26): two different roles that are both mapped have different positions. Nothing
checks it. -/
abbrev PinMap.WF (m : PinMap) : Prop :=
  ∀ r ∈ Role.all, ∀ q ∈ Role.all, r ≠ q → m.pin r = none ∨ m.pin r ≠ m.pin q

/-- `WF` and no role on the backlight's position 7 (10_state.md R26). -/
abbrev PinMap.WF7 (m : PinMap) : Prop := m.WF ∧ ∀ r ∈ Role.all, m.pin r ≠ some 7

/-- Every role that 4-bit mode needs is mapped; RW may be unused (10_state.md R26). -/
abbrev PinMap.mapped4 (m : PinMap) : Prop := ∀ r ∈ [Role.rs, .en, .d0, .d1, .d2, .d3], m.pin r ≠ none

/-- Every role is unused. -/
abbrev PinMap.allUnused (m : PinMap) : Prop := ∀ r ∈ Role.all, m.pin r = none

namespace Machine

/-- The lifecycle states in which an instruction is defined (42_initialization.md R143): INIT in `Unconfigured`, BEGIN in
`RoleAssigned`, the nineteen other host operations in `Ready`, and the block's own commands once it is configured. -/
def admittedIn : Instr → Fsm → Bool
  | .init _ _, fsm => fsm == .unconfigured
  | .begin _ _ _, fsm => fsm == .roleAssigned
  | .clear, fsm => fsm == .ready
  | .home, fsm => fsm == .ready
  | .setCursor _ _, fsm => fsm == .ready
  | .displayOff, fsm => fsm == .ready
  | .displayOn, fsm => fsm == .ready
  | .cursorOff, fsm => fsm == .ready
  | .cursorOn, fsm => fsm == .ready
  | .blinkOff, fsm => fsm == .ready
  | .blinkOn, fsm => fsm == .ready
  | .scrollLeft, fsm => fsm == .ready
  | .scrollRight, fsm => fsm == .ready
  | .leftToRight, fsm => fsm == .ready
  | .rightToLeft, fsm => fsm == .ready
  | .autoscrollOn, fsm => fsm == .ready
  | .autoscrollOff, fsm => fsm == .ready
  | .writeChar _, fsm => fsm == .ready
  | .writeString _, fsm => fsm == .ready
  | .createChar _ _, fsm => fsm == .ready
  | .setBacklight _, fsm => fsm == .ready
  | .clearDisplay, fsm => fsm != .unconfigured
  | .returnHome _, fsm => fsm != .unconfigured
  | .entryModeSet _ _, fsm => fsm != .unconfigured
  | .displayControl _ _ _, fsm => fsm != .unconfigured
  | .cursorShift _ _ _, fsm => fsm != .unconfigured
  | .functionSet _ _ _ _, fsm => fsm != .unconfigured
  | .setCgramAddress _ _, fsm => fsm != .unconfigured
  | .setDdramAddress _, fsm => fsm != .unconfigured

/-- The bits of the three flag registers that nothing sets are 0 (10_state.md R27 to R29). -/
abbrev State.ReservedZero (s : State) : Prop :=
  s.modeFlags &&& 0xE3 = 0 ∧ s.displayControlFlags &&& 0xF8 = 0 ∧ s.entryModeFlags &&& 0xFC = 0

/-- The machine's invariant: the delays keep their bounds (00_scope.md R7), the unused flag bits are 0 (10_state.md R27
to R29), the whole trace keeps the write law (40_pin_io.md R112), and a returned success flag is true
(42_initialization.md R148). -/
def State.Inv (s : State) : Prop :=
  s.timing.WF ∧ s.ReservedZero ∧ writesFollowReads s.trace ∧ ∀ flag, s.status = some (.okFlag flag) → flag = true

/-- In-memory flags agree with what was last sent (10_state.md R32): display-control, entry-mode-set, function-set. -/
def State.FlagsSent (s : State) : Prop :=
  lastInstruction 0xF8 0x08 s.sent = some (displayControlByte s.displayControlFlags)
    ∧ lastInstruction 0xFC 0x04 s.sent = some (entryModeByte s.entryModeFlags)
    ∧ lastInstruction 0xE0 0x20 s.sent = some (functionSetByte s.modeFlags)

/-- The flags-sent invariant of 10_state.md R32, over a block to which nothing but host operations is presented. -/
def State.FlagsSentInv (s : State) : Prop :=
  s.commandPort = [] ∧ s.ReservedZero ∧ (s.fsm = .ready → s.FlagsSent)

/-- Every instruction byte sent so far is one of those of 30_encoding.md R86, over a block to which nothing but host
operations is presented. -/
def State.EmittedInv (s : State) : Prop :=
  s.commandPort = [] ∧ s.ReservedZero
    ∧ ∀ x ∈ s.sent, x.isData = false → ∃ i, decodeCommand x.byte = .ok i ∧ i.emittable = true

/-- An operation has returned without a BusError. -/
abbrev State.returnedOk (s : State) : Prop := s.status = some .ok ∨ s.status = some (.okFlag true)

/-- The frame: every field of the block, the delays and the bytes waiting at the ports are in `t` as they are in `s`.
Only the latch, the proxy's answers and the record of what was done may differ. -/
structure State.SameFields (s t : State) : Prop where
  fsm : t.fsm = s.fsm
  pinMap : t.pinMap = s.pinMap
  modeFlags : t.modeFlags = s.modeFlags
  displayControlFlags : t.displayControlFlags = s.displayControlFlags
  entryModeFlags : t.entryModeFlags = s.entryModeFlags
  lineCount : t.lineCount = s.lineCount
  currentLine : t.currentLine = s.currentLine
  timing : t.timing = s.timing
  hostPort : t.hostPort = s.hostPort
  commandPort : t.commandPort = s.commandPort

end Machine

end Sys2Proof
end

