-- ==== Sys2Proof/Certificates/Slice0/Obligations.lean ====
section
/-! DEFINITION. The statements for the provers. `s.send b isData` is the list of actions of `Send(b, isData)`,
`s.after actions` the state after a list of actions when the proxy keeps its contract, `s.busOk` the premise that it does
(20_memory.md R52), `s.SameFields t` the frame: every field of the block, the delays and the ports as before. -/

open Sys2Proof Sys2Proof.Machine

/-! ### Encodings -/

/-- Decoding an encoded well-formed instruction gives it back, whatever follows (30_encoding.md sections 1 and 2). -/
def Obligations.DecodeEncodeRoundTrip : Prop :=
  ∀ (i : Instr) (rest : List Byte), i.wellFormed = true → decodeAt i.port (encode i ++ rest) = .ok (i, rest)

/-- Bytes that decode are the encoding of what they decode to, and it is well-formed: no two byte sequences mean the
same (30_encoding.md sections 1 and 6). -/
def Obligations.DecodedBytesAreTheEncoding : Prop :=
  ∀ (port : Port) (bytes rest : List Byte) (i : Instr), decodeAt port bytes = .ok (i, rest) →
    i.port = port ∧ i.wellFormed = true ∧ bytes = encode i ++ rest

/-- Words written out from the spec's encodings decode to what they stand for (95_test_vectors.md part 4, V35). -/
def Obligations.WrittenOutWordsDecode : Prop :=
  decodeHost [0x00, 0x00, 0x01, 0xFF, 0x02, 0x03, 0x04, 0x05, 0x06, 0xFF, 0xFF, 0xFF, 0xFF]
      = .ok (.init false { rs := some 1, rw := none, en := some 2, d0 := some 3, d1 := some 4, d2 := some 5,
                           d3 := some 6, d4 := none, d5 := none, d6 := none, d7 := none }, [])
    ∧ decodeHost [0x01, 0x14, 0x01, 0x01] = .ok (.begin 20 1 .tall, [])
    ∧ decodeHost [0x04, 0x05, 0x01] = .ok (.setCursor 5 1, [])
    ∧ decodeHost [0x12, 0x48, 0x69, 0x00] = .ok (.writeString [0x48, 0x69], [])
    ∧ decodeHost [0x14, 0x01] = .ok (.setBacklight true, [])
    ∧ decodeCommand 0x06 = .ok (.entryModeSet true false)
    ∧ decodeCommand 0x28 = .ok (.functionSet false true false 0)
    ∧ decodeCommand 0x58 = .ok (.setCgramAddress 3 0)
    ∧ decodeCommand 0xC5 = .ok (.setDdramAddress 0x45)

/-- The field layout of the eight instruction kinds (30_encoding.md R84): each byte, bit by bit from bit 7 down. -/
def Obligations.InstructionByteLayout : Prop :=
  encode .clearDisplay = [0b00000001] ∧ encode (.returnHome 0) = [0b00000010]
    ∧ (∀ l s, ∃ b, encode (.entryModeSet l s) = [b]
        ∧ b.getLsbD 1 = l ∧ b.getLsbD 0 = s ∧ b.extractLsb' 2 6 = 0b000001#6)
    ∧ (∀ d c k, ∃ b, encode (.displayControl d c k) = [b]
        ∧ b.getLsbD 2 = d ∧ b.getLsbD 1 = c ∧ b.getLsbD 0 = k ∧ b.extractLsb' 3 5 = 0b00001#5)
    ∧ (∀ m r, ∃ b, encode (.cursorShift m r 0) = [b]
        ∧ b.getLsbD 3 = m ∧ b.getLsbD 2 = r ∧ b.extractLsb' 4 4 = 0b0001#4 ∧ b.extractLsb' 0 2 = 0#2)
    ∧ (∀ w n f, ∃ b, encode (.functionSet w n f 0) = [b]
        ∧ b.getLsbD 4 = w ∧ b.getLsbD 3 = n ∧ b.getLsbD 2 = f
        ∧ b.extractLsb' 5 3 = 0b001#3 ∧ b.extractLsb' 0 2 = 0#2)
    ∧ (∀ slot, ∃ b, encode (.setCgramAddress slot 0) = [b]
        ∧ b.extractLsb' 3 3 = slot ∧ b.extractLsb' 6 2 = 0b01#2 ∧ b.extractLsb' 0 3 = 0#3)
    ∧ (∀ a, ∃ b, encode (.setDdramAddress a) = [b] ∧ b.extractLsb' 0 7 = a ∧ b.getLsbD 7 = true)

/-- The eight match and mask pairs of 30_encoding.md R94: the kind of an instruction byte is given by its highest set
bit, and 0x00 has no kind. -/
def Obligations.CommandKindByHighestBit : Prop :=
  ∀ c : Byte,
    (c &&& 0x80 = 0x80 → ∃ a, decodeCommand c = .ok (.setDdramAddress a))
    ∧ (c &&& 0xC0 = 0x40 → ∃ slot u, decodeCommand c = .ok (.setCgramAddress slot u))
    ∧ (c &&& 0xE0 = 0x20 → ∃ w n f u, decodeCommand c = .ok (.functionSet w n f u))
    ∧ (c &&& 0xF0 = 0x10 → ∃ m r u, decodeCommand c = .ok (.cursorShift m r u))
    ∧ (c &&& 0xF8 = 0x08 → ∃ d k b, decodeCommand c = .ok (.displayControl d k b))
    ∧ (c &&& 0xFC = 0x04 → ∃ l s, decodeCommand c = .ok (.entryModeSet l s))
    ∧ (c &&& 0xFE = 0x02 → ∃ u, decodeCommand c = .ok (.returnHome u))
    ∧ (c = 0x01 → decodeCommand c = .ok .clearDisplay)
    ∧ (c = 0x00 → decodeCommand c = .error .noKind)

/-- Host bytes that begin no operation are rejected by name: unassigned opcodes, and bool, cell and pin operands outside
their values, the pin at any of the eleven places (30_encoding.md sections 1 and 4); and every proper beginning of a
well-formed operation's encoding, as `unterminated` for a WRITE_STRING whose terminator has not come and as `truncated`
otherwise (that an incomplete operation is refused is the model's choice, log 17). -/
def Obligations.HostBytesWithoutMeaningRefused : Prop :=
  (∀ (op : Byte) (bytes : List Byte), 0x15 ≤ op → decodeHost (op :: bytes) = .error (.unassignedOpcode op))
    ∧ (∀ (b : Byte) (bytes : List Byte), 1 < b → decodeHost (0x14 :: b :: bytes) = .error (.badBool b)
        ∧ decodeHost (0x00 :: b :: bytes) = .error (.badBool b)
        ∧ ∀ cols lines, decodeHost (0x01 :: cols :: lines :: b :: bytes) = .error (.badCell b))
    ∧ (∀ (bus8 : Byte) (pins bytes : List Byte), bus8 ≤ 1 → pins.length = 11 →
        (∃ b ∈ pins, 0x08 ≤ b ∧ b ≠ 0xFF) →
        ∃ b ∈ pins, 0x08 ≤ b ∧ b ≠ 0xFF ∧ decodeHost (0x00 :: bus8 :: (pins ++ bytes)) = .error (.badPin b))
    ∧ (∀ (i : Instr) (n : Nat), i.port = .host → i.wellFormed = true → n < (encode i).length →
        (n = 0 ∨ ∀ text, i ≠ .writeString text) → decodeHost ((encode i).take n) = .error .truncated)
    ∧ (∀ (text : List Byte) (n : Nat), (Instr.writeString text).wellFormed = true → 0 < n →
        n < (encode (.writeString text)).length →
        decodeHost ((encode (.writeString text)).take n) = .error .unterminated)

/-- The row table (30_encoding.md R88): 0x00, 0x40, 0x14, 0x54 for rows 0 to 3, and no entry for a row above 3. -/
def Obligations.RowOffsetTable : Prop :=
  rowOffset 0 = some 0x00 ∧ rowOffset 1 = some 0x40 ∧ rowOffset 2 = some 0x14 ∧ rowOffset 3 = some 0x54
    ∧ ∀ row : Byte, 3 < row → rowOffset row = none

/-! ### Reset and steps -/

/-- What reset leaves, over any latch content (10_state.md section 9, 70_reset_and_hazards.md section 1; the values of the
unwritten fields are the model's choice, log 4, and are not stated): `Unconfigured`, idle, no transaction or delay
issued, OUT not touched, and only INIT among the host operations has a meaning then. That a step from reset leaves the
state as it is, is the model's choice: nothing is presented at reset (log 1), and an idle block's step changes nothing
(log 14). -/
def Obligations.ResetCreatesAnIdleUnconfiguredBlock : Prop :=
  ∀ latch0 : Byte,
    (State.resetWith latch0).fsm = .unconfigured ∧ (State.resetWith latch0).latch = latch0
      ∧ (State.resetWith latch0).trace = [] ∧ (State.resetWith latch0).sent = []
      ∧ (State.resetWith latch0).waiting = false
      ∧ step (State.resetWith latch0) = .next (State.resetWith latch0)
      ∧ ∀ (i : Instr) (t : State), i.port = .host → exec i (State.resetWith latch0) = .next t →
          ∃ bus8 pins, i = .init bus8 pins

/-- A step runs the instruction that stands first at a port, with its bytes taken off: the block's own command if one
waits, otherwise the host's operation (the ports are the model's, log 1 and log 2). -/
def Obligations.StepRunsTheDecodedInstruction : Prop :=
  ∀ (s : State) (i : Instr) (rest : List Byte), s.waiting = false →
    (decodeAt .command s.commandPort = .ok (i, rest) → step s = exec i (s.setCommandPort rest))
    ∧ (s.commandPort = [] → decodeAt .host s.hostPort = .ok (i, rest) → step s = exec i (s.setHostPort rest))

/-- A well-formed host operation presented in the host format is the operation the next step runs, and what is presented
after it is still there (30_encoding.md section 1, 20_memory.md section 4). -/
def Obligations.PresentedOperationRuns : Prop :=
  ∀ (s : State) (i : Instr) (rest : List Byte), s.waiting = false → s.commandPort = [] → i.port = .host →
    i.wellFormed = true → s.hostPort = encode i ++ rest → step s = exec i (s.setHostPort rest)

/-- When no instruction runs: a block at a transaction that is never answered takes no further step, an idle block stays
as it is, and bytes without a meaning are refused by name, at the host port and, for the byte 0x00, at the command port
(70_reset_and_hazards.md R246 and R248, 60_exceptions.md R207; the model's choices: log 10, log 14, log 17 for an
incomplete operation, log 2 for the command port). -/
def Obligations.StepWithoutAnInstruction : Prop :=
  ∀ s : State,
    (s.waiting = true → step s = .fault .transactionUnanswered)
    ∧ (s.waiting = false → s.commandPort = [] → s.hostPort = [] → step s = .next s)
    ∧ (∀ b bytes why, s.waiting = false → s.commandPort = [] → s.hostPort = b :: bytes →
        decodeHost (b :: bytes) = .error why → step s = .refused (.undecodable why))
    ∧ (∀ bytes, s.waiting = false → s.commandPort = 0x00 :: bytes → step s = .refused (.undecodable .noKind))

/-- A table word placed where `step` takes its next instruction is the instruction the next step runs, over the state as
it was (the ports are the model's, log 1 to log 3). -/
def Obligations.PlacedWordRuns : Prop :=
  ∀ (s : State) (nbits w : Nat) (i : Instr), decodeTableWord nbits w = some i →
    (i.port = .host → step (s.withFetchWord nbits w) = exec i ((s.setWaiting false).setCommandPort []))
    ∧ (i.port = .command → step (s.withFetchWord nbits w) = exec i (s.setWaiting false))

/-! ### Lifecycle -/

/-- An instruction presented in a lifecycle state in which it is not defined is refused (42_initialization.md section 1):
INIT outside `Unconfigured`, BEGIN outside `RoleAssigned`, the nineteen others outside `Ready`, a command of the block
itself in `Unconfigured` (log 2). -/
def Obligations.RefusedOutsideTheLifecycle : Prop :=
  ∀ (i : Instr) (s : State), admittedIn i s.fsm = false → exec i s = .refused (.outsideLifecycle s.fsm)

/-- Where an instruction is defined it ends in a next state whatever the proxy answers, except SETCURSOR with a row above 3
after the clamp, which is refused. Two parts of this are the model's choice: with an unanswered transaction the operation
never returns, and the next state is the one of log 10; the block's own commands are defined once INIT has run (log 2). -/
def Obligations.DefinedInstructionsHaveANextState : Prop :=
  ∀ (i : Instr) (s : State), admittedIn i s.fsm = true →
    (∀ col row, i = .setCursor col row → rowOffset (clampRow s.lineCount row) ≠ none) → ∃ t, exec i s = .next t

/-- Two transitions and no others (42_initialization.md R142): `Unconfigured` to `RoleAssigned` by INIT, `RoleAssigned` to
`Ready` by a BEGIN that runs to its end; none out of `Ready`, none backwards. -/
def Obligations.TwoLifecycleTransitions : Prop :=
  ∀ (i : Instr) (s t : State), exec i s = .next t →
    (∀ bus8 pins, i = .init bus8 pins → s.fsm = .unconfigured ∧ t.fsm = .roleAssigned)
    ∧ (∀ cols lines cell, i = .begin cols lines cell →
        s.fsm = .roleAssigned ∧ (t.status = some (.okFlag true) → t.fsm = .ready)
          ∧ (t.status ≠ some (.okFlag true) → t.fsm = .roleAssigned))
    ∧ ((∀ bus8 pins, i ≠ .init bus8 pins) → (∀ cols lines cell, i ≠ .begin cols lines cell) → t.fsm = s.fsm)

/-- INIT (42_initialization.md section 2): the pin map, the bus width with one line and 5x8, one line, `RoleAssigned`,
status `Ok`; no transaction, no delay, nothing else changed. -/
def Obligations.InitCompletes : Prop :=
  ∀ (bus8 : Bool) (pins : PinMap) (s : State), s.fsm = .unconfigured →
    exec (.init bus8 pins) s = .next { s with
      pinMap := pins, modeFlags := if bus8 then 0x10 else 0x00, lineCount := 1, fsm := .roleAssigned,
      status := some .ok }

/-- BEGIN under the contract (42_initialization.md sections 3 and 4): every field it writes, and its actions in order. -/
def Obligations.BeginCompletes : Prop :=
  ∀ (cols lines : Byte) (cell : Cell) (s : State), s.fsm = .roleAssigned → s.busOk →
    let twoLine : Byte := if lines > 1 then 0x08 else 0x00
    let tallFont : Byte := if cell = .tall ∧ lines = 1 then 0x04 else 0x00
    let mode := s.modeFlags ||| twoLine ||| tallFont
    let s1 : State := { s with lineCount := lines, currentLine := 0, modeFlags := mode }
    let reset :=
      if s.modeFlags.getLsbD 4 then
        s1.send (0x20 ||| mode) false ++ [.wait s.timing.rst1] ++ s1.send (0x20 ||| mode) false
          ++ [.wait s.timing.rst2] ++ s1.send (0x20 ||| mode) false ++ [.wait s.timing.rst3]
      else
        write4Bits s.pinMap s.timing 0x3 ++ [.wait s.timing.rst1] ++ write4Bits s.pinMap s.timing 0x3
          ++ [.wait s.timing.rst2] ++ write4Bits s.pinMap s.timing 0x3 ++ [.wait s.timing.rst3]
          ++ write4Bits s.pinMap s.timing 0x2
    let actions :=
      [.wait s.timing.powerUp, .drive (s.pinMap.pin .rs) false, .drive (s.pinMap.pin .en) false,
          .drive (s.pinMap.pin .rw) false]
        ++ reset ++ s1.send (0x20 ||| mode) false ++ s1.send 0x0C false ++ s1.send 0x01 false
        ++ [.wait s.timing.long] ++ s1.send 0x06 false
    exec (.begin cols lines cell) s = .next { s1.after actions with
      displayControlFlags := 0x04, entryModeFlags := 0x02, fsm := .ready, status := some (.okFlag true) }

/-- The power-up wait is the first event of every BEGIN trace, before any transaction, whatever the proxy answers, and with
the bounds of 00_scope.md R7 it is at least 50 ms (70_reset_and_hazards.md R236). -/
def Obligations.BeginWaitsForPowerUpFirst : Prop :=
  ∀ (cols lines : Byte) (cell : Cell) (s t : State), exec (.begin cols lines cell) s = .next t →
    (∃ events, t.trace = s.trace ++ .dly s.timing.powerUp :: events) ∧ (s.timing.WF → 50 ≤ s.timing.powerUp)

/-- What a completed BEGIN strobes in 4-bit mode (42_initialization.md section 4): nibbles 3, 3, 3, 2, then function-set,
0x0C, 0x01, 0x06 as two nibbles each, all with RS low; RS, RW and Enable end low. -/
def Obligations.BeginStrobesFourBit : Prop :=
  ∀ (cols lines : Byte) (cell : Cell) (s : State), s.fsm = .roleAssigned → s.busOk → s.pinMap.WF → s.pinMap.mapped4 →
    s.modeFlags.getLsbD 4 = false →
    ∃ t events, exec (.begin cols lines cell) s = .next t ∧ t.trace = s.trace ++ events
      ∧ strobes s.pinMap false s.latch events =
          ([0x3, 0x3, 0x3, 0x2, (0x20 ||| t.modeFlags) >>> 4, t.modeFlags &&& 0x0F, 0x0, 0xC, 0x0, 0x1, 0x0, 0x6] :
            List Byte).map (fun data => ({ select := false, data := data } : Strobe))
      ∧ lineLevel s.pinMap .rs t.latch = false ∧ lineLevel s.pinMap .rw t.latch = false
      ∧ lineLevel s.pinMap .en t.latch = false

/-- What a completed BEGIN strobes in 8-bit mode: function-set four times, 0x0C, 0x01, 0x06, all with RS low, as far as the
mapped data roles carry them (no well-formed map has all ten roles, 90_conflicts.md C3, so the data roles may be any). -/
def Obligations.BeginStrobesEightBit : Prop :=
  ∀ (cols lines : Byte) (cell : Cell) (s : State), s.fsm = .roleAssigned → s.busOk → s.pinMap.WF →
    s.pinMap.en ≠ none → s.modeFlags.getLsbD 4 = true →
    ∃ t events, exec (.begin cols lines cell) s = .next t ∧ t.trace = s.trace ++ events
      ∧ strobes s.pinMap true s.latch events =
          ([0x20 ||| t.modeFlags, 0x20 ||| t.modeFlags, 0x20 ||| t.modeFlags, 0x20 ||| t.modeFlags, 0x0C, 0x01, 0x06] :
            List Byte).map (fun b => ({ select := false, data := presented s.pinMap true b } : Strobe))

/-- A BEGIN that ends in BusError (42_initialization.md section 3, 60_exceptions.md section 2): nothing is rolled back.
`RoleAssigned` stays, the geometry written first stands, and each later flag register has its new value exactly if the
Sends before its write have run to their end: function-set (once in 4-bit mode, four times in 8-bit mode) before
`display_control_flags`, then 0x0C and 0x01 before `entry_mode_flags`. Nothing else is written. -/
def Obligations.BeginAbortKeepsItsWrites : Prop :=
  ∀ (cols lines : Byte) (cell : Cell) (s t : State) (cause : Cause) (detail : Nat),
    exec (.begin cols lines cell) s = .next t → t.status = some (.busError cause detail) →
    let mode := beginMode lines cell s.modeFlags
    let wakeSends := if s.modeFlags.getLsbD 4 then 4 else 1
    let commands := List.replicate wakeSends (0x20 ||| mode) ++ [0x0C, 0x01, 0x06]
    t.fsm = .roleAssigned ∧ t.lineCount = lines ∧ t.currentLine = 0 ∧ t.modeFlags = mode
      ∧ (∃ n < commands.length,
          t.sent = s.sent ++ (commands.take n).map (fun b => ({ byte := b, isData := false } : Sent))
          ∧ t.displayControlFlags = (if wakeSends ≤ n then 0x04 else s.displayControlFlags)
          ∧ t.entryModeFlags = (if wakeSends + 2 ≤ n then 0x02 else s.entryModeFlags))
      ∧ t.pinMap = s.pinMap ∧ t.timing = s.timing ∧ t.hostPort = s.hostPort ∧ t.commandPort = s.commandPort

/-- The geometry BEGIN merges (42_initialization.md section 4 (a) to (c)): no flag for 0 lines; the two-line flag for more
than one line, with the tall font dropped; the tall-font flag for one line of 5x10; bits are only ever set. -/
def Obligations.BeginMergesGeometry : Prop :=
  (∀ cell mode, beginMode 0 cell mode = mode)
    ∧ (∀ lines cell mode, lines > 1 → beginMode lines cell mode = mode ||| 0x08)
    ∧ (∀ mode, beginMode 1 .tall mode = mode ||| 0x04 ∧ beginMode 1 .small mode = mode)

/-- The bus width is written by INIT alone: from INIT on no instruction changes bit 4 of `mode_flags` (10_state.md
section 3). -/
def Obligations.BusWidthFixedFromInit : Prop :=
  ∀ (i : Instr) (s t : State), exec i s = .next t → s.fsm ≠ .unconfigured →
    t.modeFlags.getLsbD 4 = s.modeFlags.getLsbD 4

/-! ### Pins and byte transmission -/

/-- A SetPin on an unused role, whatever the role and the state of the bus, makes no transaction and no delay and raises
nothing (40_pin_io.md R113). -/
def Obligations.UnusedPinNoTransaction : Prop :=
  ∀ (role : Role) (level : Bool) (s : State), s.pinMap.pin role = none → setPin (s.pinMap.pin role) level s = .going s

/-- SetPin on a position under the contract (40_pin_io.md section on R110 and R111): one read and one write, the bit takes
the level, every other bit of the latch is kept, no field of the block changes. -/
def Obligations.SetPinIsolation : Prop :=
  ∀ (p : Fin 8) (level : Bool) (s : State), s.busOk →
    ∃ t, setPin (some p) level s = .going t ∧ t.trace = s.trace ++ [.rd s.latch, .wr t.latch]
      ∧ t.latch.getLsbD p.val = level ∧ (∀ q : Fin 8, q ≠ p → t.latch.getLsbD q.val = s.latch.getLsbD q.val)
      ∧ s.SameFields t ∧ t.status = s.status

/-- What a failing or unanswered SetPin does (40_pin_io.md, 20_memory.md sections 1 and 6), the byte read being the latch or
a foreign one: a failed read leaves the latch and makes no write; a failed write leaves in the latch whatever byte the
proxy's answer says. An unanswered read or write leaves the block waiting, with no event and no status, and after an
unanswered write the latch holds whatever byte the answer says (the model's choices, log 10). -/
def Obligations.SetPinFailures : Prop :=
  ∀ (p : Fin 8) (level : Bool) (s : State) (v after : Byte) (detail : Nat) (first : Reply) (rest : List Reply),
    (s.replies = .fail after detail :: rest →
      setPin (some p) level s = .ended { s with
        replies := rest, trace := s.trace ++ [.rdFail], status := some (.busError .read detail) })
    ∧ (s.replies = .silent after :: rest → setPin (some p) level s = .ended { s with replies := rest, waiting := true })
    ∧ ((first = .ok ∧ v = s.latch) ∨ first = .answer v →
      (s.replies = first :: .fail after detail :: rest →
        setPin (some p) level s = .ended { s with
          replies := rest, latch := after, trace := s.trace ++ [.rd v, .wrFail (setBit v p level)],
          status := some (.busError .write detail) })
      ∧ (s.replies = first :: .silent after :: rest →
        setPin (some p) level s = .ended { s with
          replies := rest, latch := after, trace := s.trace ++ [.rd v], waiting := true }))

/-- A read whose answer is not the latch (the single-owner premise broken, 20_memory.md section 4, vector V71): the byte
answered is the byte written back with one bit replaced. -/
def Obligations.ForeignWriteIsLost : Prop :=
  ∀ (p : Fin 8) (level : Bool) (s : State) (v : Byte) (rest : List Reply), s.replies = .answer v :: .ok :: rest →
    setPin (some p) level s = .going { s with
      replies := rest, latch := setBit v p level, trace := s.trace ++ [.rd v, .wr (setBit v p level)] }

/-- The Enable pulse (70_reset_and_hazards.md R239): Enable low, high, low, and a wait of `T_PULSE`, at least 1, after each;
with Enable unused, the three waits alone. -/
def Obligations.EnablePulseWaits : Prop :=
  ∀ (pins : PinMap) (t : Timing) (L : Byte), (t.WF → 1 ≤ t.pulse) ∧
    (∀ p, pins.en = some p →
      eventsOf (pulseEnable pins t) L =
        [.rd L, .wr (setBit L p false), .dly t.pulse,
          .rd (setBit L p false), .wr (setBit (setBit L p false) p true), .dly t.pulse,
          .rd (setBit (setBit L p false) p true), .wr (setBit (setBit (setBit L p false) p true) p false),
          .dly t.pulse])
    ∧ (pins.en = none → eventsOf (pulseEnable pins t) L = [.dly t.pulse, .dly t.pulse, .dly t.pulse])

/-- The counts of one Send that meets no BusError (41_byte_transmission.md, the rule on counts): transactions and delays in
either bus mode, for any pin map. -/
def Obligations.SendCounts : Prop :=
  ∀ (pins : PinMap) (t : Timing) (b L : Byte) (isData : Bool),
    let count := fun (p : Pin) => if p = none then 0 else 1
    let four := count pins.d0 + count pins.d1 + count pins.d2 + count pins.d3
    let eight := four + count pins.d4 + count pins.d5 + count pins.d6 + count pins.d7
    let events4 := eventsOf (send pins t false b isData) L
    let events8 := eventsOf (send pins t true b isData) L
    events4.countP Event.isTransaction = 2 * count pins.rs + 2 * count pins.rw + 4 * four + 12 * count pins.en
      ∧ events8.countP Event.isTransaction = 2 * count pins.rs + 2 * count pins.rw + 2 * eight + 6 * count pins.en
      ∧ events4.countP (fun e => !e.isTransaction) = 6 ∧ events8.countP (fun e => !e.isTransaction) = 3

/-- What a Send shows the controller in 4-bit mode (41_byte_transmission.md, the strobe law): exactly two strobes, the high
nibble and then the low one, with the select; on exit Enable is low, RS is the select, RW is low if mapped, and the data
lines hold the low nibble. -/
def Obligations.SendStrobesFourBit : Prop :=
  ∀ (pins : PinMap) (t : Timing) (b L : Byte) (isData : Bool), pins.WF → pins.mapped4 →
    let actions := send pins t false b isData
    strobes pins false L (eventsOf actions L)
        = [{ select := isData, data := b >>> 4 }, { select := isData, data := b &&& 0x0F }]
      ∧ lineLevel pins .en (latchOf actions L) = false ∧ lineLevel pins .rs (latchOf actions L) = isData
      ∧ lineLevel pins .rw (latchOf actions L) = false
      ∧ (shown pins false (latchOf actions L)).data = b &&& 0x0F

/-- What a Send shows the controller in 8-bit mode: exactly one strobe, with the bits of the byte that the mapped data
roles carry, and the select if RS is mapped. -/
def Obligations.SendStrobesEightBit : Prop :=
  ∀ (pins : PinMap) (t : Timing) (b L : Byte) (isData : Bool), pins.WF → pins.en ≠ none →
    strobes pins true L (eventsOf (send pins t true b isData) L)
        = [{ select := (pins.pin .rs).isSome && isData, data := presented pins true b }]
      ∧ lineLevel pins .en (latchOf (send pins t true b isData) L) = false

/-! ### Completion and frame of the operations in `Ready` -/

/-- CLEAR (43_display_cursor_ops.md R161): host opcode 0x02; refused outside `Ready`; under the contract it sends 0x01 as a command and then
waits `T_LONG`; whatever the proxy answers, no field is written; on a BusError the operation ended inside the Send, so
the long wait is not issued. -/
def Obligations.ClearCompletes : Prop :=
  ∀ s : State, encode .clear = [0x02]
    ∧ (s.fsm ≠ .ready → exec .clear s = .refused (.outsideLifecycle s.fsm))
    ∧ (s.fsm = .ready → s.busOk →
        exec .clear s = .next ((s.after (s.send 0x01 false ++ [.wait s.timing.long])).setStatus (some .ok)))
    ∧ (∀ t, exec .clear s = .next t → s.SameFields t
        ∧ ∀ cause detail, t.status = some (.busError cause detail) →
            runActions (s.send 0x01 false) (s.setStatus none) = .ended t)
    ∧ (s.timing.WF → 2 ≤ s.timing.long)

/-- HOME (43_display_cursor_ops.md R162), in the shape of CLEAR, with host opcode 0x03 and instruction 0x02. -/
def Obligations.HomeCompletes : Prop :=
  ∀ s : State, encode .home = [0x03]
    ∧ (s.fsm ≠ .ready → exec .home s = .refused (.outsideLifecycle s.fsm))
    ∧ (s.fsm = .ready → s.busOk →
        exec .home s = .next ((s.after (s.send 0x02 false ++ [.wait s.timing.long])).setStatus (some .ok)))
    ∧ (∀ t, exec .home s = .next t → s.SameFields t
        ∧ ∀ cause detail, t.status = some (.busError cause detail) →
            runActions (s.send 0x02 false) (s.setStatus none) = .ended t)
    ∧ (s.timing.WF → 2 ≤ s.timing.long)

/-- SETCURSOR (43_display_cursor_ops.md section 3): the row clamped to `line_count - 1`, the offset added modulo 256, bit 7
forced; whatever the proxy answers, no field is written. -/
def Obligations.SetCursorCompletes : Prop :=
  ∀ (s : State) (col row offset : Byte), s.fsm = .ready →
    rowOffset (if row ≥ s.lineCount then s.lineCount - 1 else row) = some offset →
    (s.busOk →
      exec (.setCursor col row) s = .next ((s.after (s.send (0x80 ||| (col + offset)) false)).setStatus (some .ok)))
    ∧ ∃ t, exec (.setCursor col row) s = .next t ∧ s.SameFields t

/-- Where SETCURSOR is refused (43_display_cursor_ops.md section 3 (b)): exactly when the row after the clamp is above 3,
and it ends in a next state when it is not; so it is refused always with no lines, never with one to four lines, and with
more lines when the row is above 3. -/
def Obligations.SetCursorRefusals : Prop :=
  ∀ (s : State) (col row : Byte), s.fsm = .ready →
    (3 < clampRow s.lineCount row →
      exec (.setCursor col row) s = .refused (.rowOutsideTable (clampRow s.lineCount row)))
    ∧ (clampRow s.lineCount row ≤ 3 → ∃ t, exec (.setCursor col row) s = .next t)
    ∧ (s.lineCount = 0 → 3 < clampRow s.lineCount row)
    ∧ (1 ≤ s.lineCount → s.lineCount ≤ 4 → clampRow s.lineCount row ≤ 3)
    ∧ (4 < s.lineCount → (3 < clampRow s.lineCount row ↔ 3 < row))

/-- The six display-control operations (43_display_cursor_ops.md R166 to R171): the host opcode; refused outside `Ready`; the new value of
the register and, under the contract, the send of the whole instruction 0x08 with the new flags; whatever the proxy
answers, the register has its new value and no other field changes. -/
def Obligations.DisplayControlOperations : Prop :=
  ∀ (s : State) (i : Instr) (op flags : Byte),
    (i, op, flags) ∈ [(Instr.displayOn, 0x06, s.displayControlFlags ||| 0x04),
      (.displayOff, 0x05, s.displayControlFlags &&& ~~~0x04), (.cursorOn, 0x08, s.displayControlFlags ||| 0x02),
      (.cursorOff, 0x07, s.displayControlFlags &&& ~~~0x02), (.blinkOn, 0x0A, s.displayControlFlags ||| 0x01),
      (.blinkOff, 0x09, s.displayControlFlags &&& ~~~0x01)] →
    encode i = [op] ∧ (s.fsm ≠ .ready → exec i s = .refused (.outsideLifecycle s.fsm))
    ∧ (s.fsm = .ready → s.busOk → exec i s =
        .next (((s.setDisplayControlFlags flags).after (s.send (0x08 ||| flags) false)).setStatus (some .ok)))
    ∧ (s.fsm = .ready → ∃ t, exec i s = .next t ∧ (s.setDisplayControlFlags flags).SameFields t)

/-- The four entry-mode operations (43_display_cursor_ops.md R174 to R177), in the same shape, with 0x04. -/
def Obligations.EntryModeOperations : Prop :=
  ∀ (s : State) (i : Instr) (op flags : Byte),
    (i, op, flags) ∈ [(Instr.leftToRight, 0x0D, s.entryModeFlags ||| 0x02),
      (.rightToLeft, 0x0E, s.entryModeFlags &&& ~~~0x02), (.autoscrollOn, 0x0F, s.entryModeFlags ||| 0x01),
      (.autoscrollOff, 0x10, s.entryModeFlags &&& ~~~0x01)] →
    encode i = [op] ∧ (s.fsm ≠ .ready → exec i s = .refused (.outsideLifecycle s.fsm))
    ∧ (s.fsm = .ready → s.busOk → exec i s =
        .next (((s.setEntryModeFlags flags).after (s.send (0x04 ||| flags) false)).setStatus (some .ok)))
    ∧ (s.fsm = .ready → ∃ t, exec i s = .next t ∧ (s.setEntryModeFlags flags).SameFields t)

/-- The two scrolls (43_display_cursor_ops.md section 5): 0x18 left, 0x1C right; no field is written, `entry_mode_flags`
among them. -/
def Obligations.ScrollsComplete : Prop :=
  ∀ (s : State) (i : Instr) (b : Byte), (i, b) ∈ [(Instr.scrollLeft, 0x18), (.scrollRight, 0x1C)] → s.fsm = .ready →
    (s.busOk → exec i s = .next ((s.after (s.send b false)).setStatus (some .ok)))
    ∧ ∃ t, exec i s = .next t ∧ s.SameFields t

/-- WRITE_CHAR (43_display_cursor_ops.md R178): host opcode 0x11; the byte as it is, with RS high; refused outside `Ready`; no field is
written. -/
def Obligations.WriteCharCompletes : Prop :=
  ∀ (s : State) (b : Byte), encode (.writeChar b) = [0x11, b]
    ∧ (s.fsm ≠ .ready → exec (.writeChar b) s = .refused (.outsideLifecycle s.fsm))
    ∧ (s.fsm = .ready → s.busOk → exec (.writeChar b) s = .next ((s.after (s.send b true)).setStatus (some .ok)))
    ∧ (s.fsm = .ready → ∃ t, exec (.writeChar b) s = .next t ∧ s.SameFields t)

/-- WRITE_STRING (43_display_cursor_ops.md section 7): each character as data in order; the empty string has the empty
trace and returns `Ok`; no field is written. -/
def Obligations.WriteStringCompletes : Prop :=
  ∀ (s : State) (text : List Byte), s.fsm = .ready →
    (s.busOk → exec (.writeString text) s =
      .next ((s.after (text.flatMap fun c => s.send c true)).setStatus (some .ok)))
    ∧ (∃ t, exec (.writeString text) s = .next t ∧ s.SameFields t)
    ∧ exec (.writeString []) s = .next (s.setStatus (some .ok))

/-- WRITE_STRING is WRITE_CHAR for each character in order (30_encoding.md section 5), whatever the proxy answers, and what
ends a character ends the whole string. -/
def Obligations.WriteStringIsCharByChar : Prop :=
  ∀ (s t : State) (c : Byte) (text : List Byte), exec (.writeChar c) s = .next t →
    (t.status = some .ok → exec (.writeString (c :: text)) s = exec (.writeString text) t)
    ∧ (t.status ≠ some .ok → exec (.writeString (c :: text)) s = .next t)

/-- CREATE_CHAR (43_display_cursor_ops.md R180): the set-CGRAM-address instruction of the slot masked to three bits, then
the eight pattern bytes as data in order, and no wait beyond the pulses'; refused outside `Ready`; no field is written;
a slot above 7 acts as its low three bits. -/
def Obligations.CreateCharCompletes : Prop :=
  ∀ (s : State) (slot : Byte) (g : Glyph),
    (s.fsm ≠ .ready → exec (.createChar slot g) s = .refused (.outsideLifecycle s.fsm))
    ∧ (s.fsm = .ready → s.busOk → exec (.createChar slot g) s =
        .next ((s.after (s.send (0x40 ||| ((slot &&& 0x07) <<< 3)) false
          ++ s.send g.p0 true ++ s.send g.p1 true ++ s.send g.p2 true ++ s.send g.p3 true
          ++ s.send g.p4 true ++ s.send g.p5 true ++ s.send g.p6 true ++ s.send g.p7 true)).setStatus (some .ok)))
    ∧ (s.fsm = .ready → ∃ t, exec (.createChar slot g) s = .next t ∧ s.SameFields t)
    ∧ exec (.createChar slot g) s = exec (.createChar (slot &&& 0x07) g) s

/-- SET_BACKLIGHT (43_display_cursor_ops.md section 9): one read and one write of OUT with bit 7 replaced, no delay; no
field is written; with no role on position 7 it strobes nothing. -/
def Obligations.SetBacklightCompletes : Prop :=
  ∀ (s : State) (on : Bool), s.fsm = .ready →
    (s.busOk →
      exec (.setBacklight on) s = .next { s with
        latch := setBit s.latch 7 on, trace := s.trace ++ [.rd s.latch, .wr (setBit s.latch 7 on)],
        replies := s.replies.drop 2, status := some .ok }
      ∧ (s.pinMap.WF7 → ∀ wide, strobes s.pinMap wide s.latch [.rd s.latch, .wr (setBit s.latch 7 on)] = []))
    ∧ ∃ t, exec (.setBacklight on) s = .next t ∧ s.SameFields t

/-- The backlight round trip (95_test_vectors.md E10): on, on again and off; the second on changes nothing in the latch,
and after off every bit but bit 7 is as it was. -/
def Obligations.BacklightRoundTrip : Prop :=
  ∀ s : State, s.fsm = .ready → s.busOk →
    ∃ t u v, exec (.setBacklight true) s = .next t ∧ exec (.setBacklight true) t = .next u
      ∧ exec (.setBacklight false) u = .next v
      ∧ t.latch.getLsbD 7 = true ∧ u.latch = t.latch ∧ v.latch.getLsbD 7 = false
      ∧ ∀ q : Fin 8, q ≠ 7 → v.latch.getLsbD q.val = s.latch.getLsbD q.val

/-- The eight instruction kinds as the block executes them, `Command(b)` of their one byte (30_encoding.md section 5;
log 2): clear-display, return-home, entry-mode-set, display-control, cursor-shift, function-set, set-CGRAM-address,
set-DDRAM-address, each for every value of its fields; no field of the block is written; refused before INIT. -/
def Obligations.CommandsComplete : Prop :=
  ∀ (i : Instr) (s : State), i.port = .command →
    (s.fsm ≠ .unconfigured → s.busOk →
      ∃ b, encode i = [b] ∧ exec i s = .next ((s.after (s.send b false)).setStatus (some .ok)))
    ∧ (s.fsm ≠ .unconfigured → ∃ t, exec i s = .next t ∧ s.SameFields t)
    ∧ (s.fsm = .unconfigured → exec i s = .refused (.outsideLifecycle .unconfigured))

/-! ### What no instruction does -/

/-- Who writes what (10_state.md section 10): a field changes only by the instructions the table names; the delays and the
bytes waiting at the ports by none. -/
def Obligations.OnlyNamedInstructionsWriteAField : Prop :=
  ∀ (i : Instr) (s t : State), exec i s = .next t →
    t.timing = s.timing ∧ t.hostPort = s.hostPort ∧ t.commandPort = s.commandPort
    ∧ ((∀ b p, i ≠ .init b p) → t.pinMap = s.pinMap)
    ∧ ((∀ b p, i ≠ .init b p) → (∀ c l ce, i ≠ .begin c l ce) →
        t.fsm = s.fsm ∧ t.modeFlags = s.modeFlags ∧ t.lineCount = s.lineCount)
    ∧ ((∀ c l ce, i ≠ .begin c l ce) → t.currentLine = s.currentLine)
    ∧ ((∀ c l ce, i ≠ .begin c l ce) →
        i ∉ [Instr.displayOn, .displayOff, .cursorOn, .cursorOff, .blinkOn, .blinkOff] →
        t.displayControlFlags = s.displayControlFlags)
    ∧ ((∀ c l ce, i ≠ .begin c l ce) →
        i ∉ [Instr.leftToRight, .rightToLeft, .autoscrollOn, .autoscrollOff] → t.entryModeFlags = s.entryModeFlags)

/-- The bits of the latch that belong to no role and are not the backlight bit of a SET_BACKLIGHT are kept (20_memory.md
section 1): under the single-owner premise, also when the operation ends in a BusError, every byte the block writes or
tries to write has them as the latch had them, and so has the latch afterwards unless a write failed or a transaction was
never answered. INIT and an empty string touch no bit of the latch at all, whatever the proxy answers. -/
def Obligations.UnownedLatchBitsKept : Prop :=
  ∀ (i : Instr) (s t : State), exec i s = .next t →
    (∀ p : Fin 8, s.soleOwner → (∀ role ∈ Role.all, s.pinMap.pin role ≠ some p) →
        ((∀ on, i ≠ .setBacklight on) ∨ p ≠ 7) →
        (∃ events, t.trace = s.trace ++ events ∧
          ∀ w, Event.wr w ∈ events ∨ Event.wrFail w ∈ events → w.getLsbD p.val = s.latch.getLsbD p.val)
        ∧ (t.returnedOk ∨ (∃ detail, t.status = some (.busError .read detail)) →
            t.latch.getLsbD p.val = s.latch.getLsbD p.val))
    ∧ ((∃ bus8 pins, i = .init bus8 pins) ∨ i = .writeString [] → t.latch = s.latch)

/-- The write law (40_pin_io.md, 20_memory.md section 4): an instruction only adds to the trace, and every write it makes,
failed or not, stands directly after the read it derives from and replaces one bit. -/
def Obligations.EveryWriteFollowsItsRead : Prop :=
  ∀ (i : Instr) (s t : State), exec i s = .next t →
    ∃ events, t.trace = s.trace ++ events ∧ writesFollowReads events

/-- A BusError (60_exceptions.md sections 1 and 2): it ends the operation at once, so the failed transaction is the last
event and the only failed one; the cause is the kind of transaction; what the proxy attached is passed through; the
lifecycle state is unchanged; after a failed write the latch holds any byte the proxy's answer says. Conversely an
operation that returned `Ok` met no failed transaction. -/
def Obligations.BusErrorEndsTheOperation : Prop :=
  ∀ (i : Instr) (s t : State), exec i s = .next t →
    (∀ cause detail, t.status = some (.busError cause detail) →
      t.fsm = s.fsm ∧ t.waiting = s.waiting
        ∧ ∃ before e after, t.trace = s.trace ++ before ++ [e] ∧ (∀ x ∈ before, x.isFailure = false)
            ∧ Reply.fail after detail ∈ s.replies
            ∧ ((cause = .read ∧ e = .rdFail) ∨ (cause = .write ∧ (∃ v, e = .wrFail v) ∧ t.latch = after)))
    ∧ (t.returnedOk → ∃ events, t.trace = s.trace ++ events ∧ ∀ x ∈ events, x.isFailure = false)

/-- The next operation after a BusError, or after any other result, runs as if nothing had been returned before
(60_exceptions.md R206: no state remembers that a BusError happened). -/
def Obligations.EarlierResultIsNeverRead : Prop :=
  ∀ (i : Instr) (s : State) (v : Option Status), exec i (s.setStatus v) = exec i s

/-- Everything before the failed transaction is what the same operation does when nothing fails (60_exceptions.md section
2: the abort is precise with respect to the trace). -/
def Obligations.FailedRunIsAPrefix : Prop :=
  ∀ (i : Instr) (s t u : State) (n : Nat) (after : Byte) (detail : Nat) (rest : List Reply) (cause : Cause),
    s.replies = List.replicate n .ok ++ .fail after detail :: rest → exec i s = .next t →
    t.status = some (.busError cause detail) → exec i (s.setReplies []) = .next u →
    ((t.trace.drop s.trace.length).dropLast <+: u.trace.drop s.trace.length)
      ∧ (t.trace.drop s.trace.length).countP Event.isTransaction = n + 1

/-- If the proxy answers every call, every operation ends: it returns a status and no transaction stays outstanding
(70_reset_and_hazards.md R246, under its premise). -/
def Obligations.OperationsEndIfAnswered : Prop :=
  ∀ (i : Instr) (s t : State), s.answered → exec i s = .next t →
    t.waiting = s.waiting ∧ t.status ≠ none

/-- With every role unused no operation but SET_BACKLIGHT makes a transaction, so none can raise BusError
(60_exceptions.md section 1); INIT and the empty string make none whatever the map. -/
def Obligations.NoTransactionNoBusError : Prop :=
  ∀ (i : Instr) (s t : State), exec i s = .next t →
    ((s.pinMap.allUnused ∧ ∀ on, i ≠ .setBacklight on) ∨ (∃ b p, i = .init b p) ∨ i = .writeString []) →
    t.returnedOk ∧ t.latch = s.latch ∧ t.replies = s.replies
      ∧ ∃ events, t.trace = s.trace ++ events ∧ events.countP Event.isTransaction = 0

/-- `current_line` influences nothing (10_state.md section 4): changing it before an operation changes nothing but
itself. -/
def Obligations.CurrentLineIsNeverRead : Prop :=
  ∀ (i : Instr) (s : State) (v : Byte),
    (∀ t, exec i s = .next t → ∃ u, exec i (s.setCurrentLine v) = .next u ∧ u.setCurrentLine 0 = t.setCurrentLine 0)
    ∧ (∀ r, exec i s = .refused r → exec i (s.setCurrentLine v) = .refused r)

/-- The column count has no effect (42_initialization.md section 4 (f)). -/
def Obligations.ColumnCountIsNeverRead : Prop :=
  ∀ (cols cols' lines : Byte) (cell : Cell) (s : State),
    exec (.begin cols lines cell) s = exec (.begin cols' lines cell) s

/-! ### Invariants -/

/-- Every step keeps the invariant: delay bounds, unused flag bits 0, the write law over the whole trace, a success flag
that is never false. -/
def Obligations.StepKeepsInv : Prop :=
  ∀ s t : State, s.Inv → step s = .next t → t.Inv

/-- The flags-sent invariant (10_state.md section 5, 90_conflicts.md C2): every step whose operation returned `Ok` keeps it,
so in `Ready` the last display-control, entry-mode-set and function-set instructions sent are those of the flag
registers. A block to which instruction bytes are handed directly (log 2) is left out. -/
def Obligations.StepKeepsFlagsSent : Prop :=
  ∀ s t : State, s.FlagsSentInv → step s = .next t → t.returnedOk → t.FlagsSentInv

/-- The instruction bytes the block can emit (30_encoding.md section 2): every step keeps that every byte sent as a command
so far is one of them, also through BusErrors. -/
def Obligations.StepKeepsEmitted : Prop :=
  ∀ s t : State, s.EmittedInv → step s = .next t → t.EmittedInv

/-- The three invariants hold at reset, over any latch (the flag registers' values there are the model's choice, log 4, the
delays' the spec's defaults, log 6; nothing has been sent). -/
def Obligations.InvariantsAtReset : Prop :=
  ∀ latch0 : Byte, (State.resetWith latch0).Inv ∧ (State.resetWith latch0).FlagsSentInv
    ∧ (State.resetWith latch0).EmittedInv

/-! ### The single-owner premise -/

/-- Under the single-owner premise (20_memory.md sections 1 and 4, 10_state.md section 5) the block sees its own writes, also
in an operation that ends in a BusError: every read answers the byte last written, before the first write what the latch
held; the latch afterwards is the byte last written unless a write failed or a transaction was never answered; and the
premise holds of what comes after. -/
def Obligations.SoleOwnerReadsLastWritten : Prop :=
  ∀ (i : Instr) (s t : State), s.soleOwner → exec i s = .next t →
    t.soleOwner ∧ ∃ events, t.trace = s.trace ++ events ∧ readsReturnLatch s.latch events
      ∧ (t.returnedOk ∨ (∃ detail, t.status = some (.busError .read detail)) → t.latch = lastWritten s.latch events)
end

