-- ==== Sys2Proof/Laws/Decode.lean ====
section
/-! SUPPORT. The operand readers undo the operand encoders, said once each. -/

namespace Sys2Proof

@[simp] theorem readByte_cons (b : Byte) (rest : List Byte) : readByte (b :: rest) = .ok (b, rest) := rfl

@[simp] theorem readBool_encode (b : Bool) (rest : List Byte) :
    readBool (encodeBool b :: rest) = .ok (b, rest) := by
  cases b <;> simp [readBool, encodeBool]

@[simp] theorem readCell_encode (c : Cell) (rest : List Byte) :
    readCell (encodeCell c :: rest) = .ok (c, rest) := by
  cases c <;> simp [readCell, encodeCell]

@[simp] theorem readPin_encode (p : Pin) (rest : List Byte) : readPin (encodePin p :: rest) = .ok (p, rest) := by
  cases p with
  | none => simp [readPin, encodePin]
  | some p =>
    have h := p.isLt
    have h1 : BitVec.ofNat 8 p.val ≠ 0xFF := by
      intro hh
      have := congrArg BitVec.toNat hh
      simp at this
      omega
    have h2 : (BitVec.ofNat 8 p.val).toNat = p.val := by
      simp
      omega
    unfold readPin encodePin
    dsimp only
    rw [if_neg h1, dif_pos (by omega)]
    simp [h2]

@[simp] theorem readPinMap_encode (m : PinMap) (rest : List Byte) :
    readPinMap (encodePinMap m ++ rest) = .ok (m, rest) := by
  simp [readPinMap, encodePinMap, bind, Except.bind, pure, Except.pure]

@[simp] theorem readGlyph_bytes (g : Glyph) (rest : List Byte) : readGlyph (g.bytes ++ rest) = .ok (g, rest) := rfl

theorem readText_append (text rest : List Byte) (h : text.all (· != 0x00) = true) :
    readText (text ++ 0#8 :: rest) = .ok (text, rest) := by
  induction text with
  | nil => simp [readText]
  | cons c text ih =>
    simp only [List.all_cons, Bool.and_eq_true, bne_iff_ne, ne_eq] at h
    rw [List.cons_append, readText, if_neg h.1, ih (by simpa using h.2)]

/-- A text that is read ends at its terminator and has no terminator inside. -/
theorem readText_ok {bytes text rest : List Byte} (h : readText bytes = .ok (text, rest)) :
    text.all (· != 0x00) = true ∧ bytes = text ++ 0x00 :: rest := by
  induction bytes generalizing text with
  | nil => simp [readText] at h
  | cons b bytes ih =>
    unfold readText at h
    split at h
    · cases h
      simp_all
    · split at h
      · cases h
        obtain ⟨h1, h2⟩ := ih ‹_›
        exact ⟨by simp_all, by simp [h2]⟩
      · cases h

end Sys2Proof
end

