-- ==== Sys2Proof/Laws/Operands.lean ====
section
/-! SUPPORT. What the operand and flag functions do, said once. -/

namespace Sys2Proof.Machine

/-- The bits of `setBit`: bit `p` is the level, every other bit is kept (00_scope.md R13). -/
theorem setBit_getLsbD (v : Byte) (p : Fin 8) (level : Bool) (i : Nat) (hi : i < 8) :
    (setBit v p level).getLsbD i = if i = p.val then level else v.getLsbD i := by
  have hp := p.isLt
  unfold setBit
  cases level
  · by_cases h : i = p.val
    · subst h; simp [hi]
    · simp only [h, if_false]
      by_cases h2 : i < p.val
      · simp [hi, h2]
      · have h3 : i - p.val ≠ 0 := by omega
        simp [hi, h2, h3]
  · by_cases h : i = p.val
    · subst h; simp [hi]
    · simp only [h, if_false]
      by_cases h2 : i < p.val
      · simp [hi, h2]
      · have h3 : i - p.val ≠ 0 := by omega
        simp [hi, h2, h3]

theorem setBit_getLsbD_self (v : Byte) (p : Fin 8) (level : Bool) :
    (setBit v p level).getLsbD p.val = level := by
  rw [setBit_getLsbD v p level p.val p.isLt, if_pos rfl]

theorem setBit_getLsbD_ne (v : Byte) (p q : Fin 8) (level : Bool) (h : q ≠ p) :
    (setBit v p level).getLsbD q.val = v.getLsbD q.val := by
  rw [setBit_getLsbD v p level q.val q.isLt, if_neg (Fin.val_ne_of_ne h)]

/-- The row table has an entry exactly for the rows 0 to 3 (30_encoding.md R88). -/
theorem rowOffset_isSome (row : Byte) : (rowOffset row).isSome = decide (row.toNat ≤ 3) := by
  unfold rowOffset
  split <;> simp_all
  omega

/-- BEGIN only ORs bits 3 and 2 into `mode_flags`, so the bus-width bit stays (10_state.md R27). -/
theorem isBus8_beginMode (lines : Byte) (cell : Cell) (mode : Byte) :
    isBus8 (beginMode lines cell mode) = isBus8 mode := by
  unfold beginMode isBus8 mergeFlag flagTwoLine flagTallFont
  dsimp only
  split <;> split <;> simp

/-- Masking an OR masks both sides. -/
theorem or_and_mask (a b mask : Byte) : (a ||| b) &&& mask = (a &&& mask) ||| (b &&& mask) := by
  rw [BitVec.and_comm, BitVec.and_or_distrib_left, BitVec.and_comm mask, BitVec.and_comm mask]

/-- Merging a flag of a register keeps its unused bits clear. -/
theorem mergeFlag_reserved (mask r f : Byte) (hr : r &&& mask = 0) (hf : f &&& mask = 0) :
    mergeFlag r f &&& mask = 0 := by
  rw [mergeFlag, or_and_mask, hr, hf]
  rfl

/-- BEGIN leaves the unused bits of `mode_flags` clear (10_state.md R27). -/
theorem beginMode_reserved (lines : Byte) (cell : Cell) (mode : Byte) (h : mode &&& 0xE3 = 0) :
    beginMode lines cell mode &&& 0xE3 = 0 := by
  unfold beginMode
  dsimp only
  split <;> split <;> first
    | exact h
    | exact mergeFlag_reserved _ _ _ h rfl
    | exact mergeFlag_reserved _ _ _ (mergeFlag_reserved _ _ _ h rfl) rfl

/-- Clearing a flag keeps the unused bits clear. -/
theorem clearFlag_reserved (mask r f : Byte) (hr : r &&& mask = 0) : clearFlag r f &&& mask = 0 := by
  rw [clearFlag, BitVec.and_assoc, BitVec.and_comm _ mask, ← BitVec.and_assoc, hr]
  simp

end Sys2Proof.Machine
end

