-- ==== Sys2Proof/Laws/State.lean ====
section
/-! SUPPORT. One lemma per field of State per named update, true by rfl, so that no proof unfolds a record update. -/

namespace Sys2Proof.Machine.State

/-! ### setFsm -/

section
variable (s : State) (v : Fsm)

@[simp] theorem setFsm_fsm : (s.setFsm v).fsm = v := rfl
@[simp] theorem setFsm_pinMap : (s.setFsm v).pinMap = s.pinMap := rfl
@[simp] theorem setFsm_modeFlags : (s.setFsm v).modeFlags = s.modeFlags := rfl
@[simp] theorem setFsm_displayControlFlags : (s.setFsm v).displayControlFlags = s.displayControlFlags := rfl
@[simp] theorem setFsm_entryModeFlags : (s.setFsm v).entryModeFlags = s.entryModeFlags := rfl
@[simp] theorem setFsm_lineCount : (s.setFsm v).lineCount = s.lineCount := rfl
@[simp] theorem setFsm_currentLine : (s.setFsm v).currentLine = s.currentLine := rfl
@[simp] theorem setFsm_timing : (s.setFsm v).timing = s.timing := rfl
@[simp] theorem setFsm_latch : (s.setFsm v).latch = s.latch := rfl
@[simp] theorem setFsm_replies : (s.setFsm v).replies = s.replies := rfl
@[simp] theorem setFsm_hostPort : (s.setFsm v).hostPort = s.hostPort := rfl
@[simp] theorem setFsm_commandPort : (s.setFsm v).commandPort = s.commandPort := rfl
@[simp] theorem setFsm_trace : (s.setFsm v).trace = s.trace := rfl
@[simp] theorem setFsm_status : (s.setFsm v).status = s.status := rfl
@[simp] theorem setFsm_sent : (s.setFsm v).sent = s.sent := rfl
@[simp] theorem setFsm_waiting : (s.setFsm v).waiting = s.waiting := rfl

end

/-! ### setPinMap -/

section
variable (s : State) (v : PinMap)

@[simp] theorem setPinMap_fsm : (s.setPinMap v).fsm = s.fsm := rfl
@[simp] theorem setPinMap_pinMap : (s.setPinMap v).pinMap = v := rfl
@[simp] theorem setPinMap_modeFlags : (s.setPinMap v).modeFlags = s.modeFlags := rfl
@[simp] theorem setPinMap_displayControlFlags : (s.setPinMap v).displayControlFlags = s.displayControlFlags := rfl
@[simp] theorem setPinMap_entryModeFlags : (s.setPinMap v).entryModeFlags = s.entryModeFlags := rfl
@[simp] theorem setPinMap_lineCount : (s.setPinMap v).lineCount = s.lineCount := rfl
@[simp] theorem setPinMap_currentLine : (s.setPinMap v).currentLine = s.currentLine := rfl
@[simp] theorem setPinMap_timing : (s.setPinMap v).timing = s.timing := rfl
@[simp] theorem setPinMap_latch : (s.setPinMap v).latch = s.latch := rfl
@[simp] theorem setPinMap_replies : (s.setPinMap v).replies = s.replies := rfl
@[simp] theorem setPinMap_hostPort : (s.setPinMap v).hostPort = s.hostPort := rfl
@[simp] theorem setPinMap_commandPort : (s.setPinMap v).commandPort = s.commandPort := rfl
@[simp] theorem setPinMap_trace : (s.setPinMap v).trace = s.trace := rfl
@[simp] theorem setPinMap_status : (s.setPinMap v).status = s.status := rfl
@[simp] theorem setPinMap_sent : (s.setPinMap v).sent = s.sent := rfl
@[simp] theorem setPinMap_waiting : (s.setPinMap v).waiting = s.waiting := rfl

end

/-! ### setModeFlags -/

section
variable (s : State) (v : Byte)

@[simp] theorem setModeFlags_fsm : (s.setModeFlags v).fsm = s.fsm := rfl
@[simp] theorem setModeFlags_pinMap : (s.setModeFlags v).pinMap = s.pinMap := rfl
@[simp] theorem setModeFlags_modeFlags : (s.setModeFlags v).modeFlags = v := rfl
@[simp] theorem setModeFlags_displayControlFlags : (s.setModeFlags v).displayControlFlags = s.displayControlFlags := rfl
@[simp] theorem setModeFlags_entryModeFlags : (s.setModeFlags v).entryModeFlags = s.entryModeFlags := rfl
@[simp] theorem setModeFlags_lineCount : (s.setModeFlags v).lineCount = s.lineCount := rfl
@[simp] theorem setModeFlags_currentLine : (s.setModeFlags v).currentLine = s.currentLine := rfl
@[simp] theorem setModeFlags_timing : (s.setModeFlags v).timing = s.timing := rfl
@[simp] theorem setModeFlags_latch : (s.setModeFlags v).latch = s.latch := rfl
@[simp] theorem setModeFlags_replies : (s.setModeFlags v).replies = s.replies := rfl
@[simp] theorem setModeFlags_hostPort : (s.setModeFlags v).hostPort = s.hostPort := rfl
@[simp] theorem setModeFlags_commandPort : (s.setModeFlags v).commandPort = s.commandPort := rfl
@[simp] theorem setModeFlags_trace : (s.setModeFlags v).trace = s.trace := rfl
@[simp] theorem setModeFlags_status : (s.setModeFlags v).status = s.status := rfl
@[simp] theorem setModeFlags_sent : (s.setModeFlags v).sent = s.sent := rfl
@[simp] theorem setModeFlags_waiting : (s.setModeFlags v).waiting = s.waiting := rfl

end

/-! ### setDisplayControlFlags -/

section
variable (s : State) (v : Byte)

@[simp] theorem setDisplayControlFlags_fsm : (s.setDisplayControlFlags v).fsm = s.fsm := rfl
@[simp] theorem setDisplayControlFlags_pinMap : (s.setDisplayControlFlags v).pinMap = s.pinMap := rfl
@[simp] theorem setDisplayControlFlags_modeFlags : (s.setDisplayControlFlags v).modeFlags = s.modeFlags := rfl
@[simp] theorem setDisplayControlFlags_displayControlFlags : (s.setDisplayControlFlags v).displayControlFlags = v := rfl
@[simp] theorem setDisplayControlFlags_entryModeFlags : (s.setDisplayControlFlags v).entryModeFlags = s.entryModeFlags := rfl
@[simp] theorem setDisplayControlFlags_lineCount : (s.setDisplayControlFlags v).lineCount = s.lineCount := rfl
@[simp] theorem setDisplayControlFlags_currentLine : (s.setDisplayControlFlags v).currentLine = s.currentLine := rfl
@[simp] theorem setDisplayControlFlags_timing : (s.setDisplayControlFlags v).timing = s.timing := rfl
@[simp] theorem setDisplayControlFlags_latch : (s.setDisplayControlFlags v).latch = s.latch := rfl
@[simp] theorem setDisplayControlFlags_replies : (s.setDisplayControlFlags v).replies = s.replies := rfl
@[simp] theorem setDisplayControlFlags_hostPort : (s.setDisplayControlFlags v).hostPort = s.hostPort := rfl
@[simp] theorem setDisplayControlFlags_commandPort : (s.setDisplayControlFlags v).commandPort = s.commandPort := rfl
@[simp] theorem setDisplayControlFlags_trace : (s.setDisplayControlFlags v).trace = s.trace := rfl
@[simp] theorem setDisplayControlFlags_status : (s.setDisplayControlFlags v).status = s.status := rfl
@[simp] theorem setDisplayControlFlags_sent : (s.setDisplayControlFlags v).sent = s.sent := rfl
@[simp] theorem setDisplayControlFlags_waiting : (s.setDisplayControlFlags v).waiting = s.waiting := rfl

end

/-! ### setEntryModeFlags -/

section
variable (s : State) (v : Byte)

@[simp] theorem setEntryModeFlags_fsm : (s.setEntryModeFlags v).fsm = s.fsm := rfl
@[simp] theorem setEntryModeFlags_pinMap : (s.setEntryModeFlags v).pinMap = s.pinMap := rfl
@[simp] theorem setEntryModeFlags_modeFlags : (s.setEntryModeFlags v).modeFlags = s.modeFlags := rfl
@[simp] theorem setEntryModeFlags_displayControlFlags : (s.setEntryModeFlags v).displayControlFlags = s.displayControlFlags := rfl
@[simp] theorem setEntryModeFlags_entryModeFlags : (s.setEntryModeFlags v).entryModeFlags = v := rfl
@[simp] theorem setEntryModeFlags_lineCount : (s.setEntryModeFlags v).lineCount = s.lineCount := rfl
@[simp] theorem setEntryModeFlags_currentLine : (s.setEntryModeFlags v).currentLine = s.currentLine := rfl
@[simp] theorem setEntryModeFlags_timing : (s.setEntryModeFlags v).timing = s.timing := rfl
@[simp] theorem setEntryModeFlags_latch : (s.setEntryModeFlags v).latch = s.latch := rfl
@[simp] theorem setEntryModeFlags_replies : (s.setEntryModeFlags v).replies = s.replies := rfl
@[simp] theorem setEntryModeFlags_hostPort : (s.setEntryModeFlags v).hostPort = s.hostPort := rfl
@[simp] theorem setEntryModeFlags_commandPort : (s.setEntryModeFlags v).commandPort = s.commandPort := rfl
@[simp] theorem setEntryModeFlags_trace : (s.setEntryModeFlags v).trace = s.trace := rfl
@[simp] theorem setEntryModeFlags_status : (s.setEntryModeFlags v).status = s.status := rfl
@[simp] theorem setEntryModeFlags_sent : (s.setEntryModeFlags v).sent = s.sent := rfl
@[simp] theorem setEntryModeFlags_waiting : (s.setEntryModeFlags v).waiting = s.waiting := rfl

end

/-! ### setLineCount -/

section
variable (s : State) (v : Byte)

@[simp] theorem setLineCount_fsm : (s.setLineCount v).fsm = s.fsm := rfl
@[simp] theorem setLineCount_pinMap : (s.setLineCount v).pinMap = s.pinMap := rfl
@[simp] theorem setLineCount_modeFlags : (s.setLineCount v).modeFlags = s.modeFlags := rfl
@[simp] theorem setLineCount_displayControlFlags : (s.setLineCount v).displayControlFlags = s.displayControlFlags := rfl
@[simp] theorem setLineCount_entryModeFlags : (s.setLineCount v).entryModeFlags = s.entryModeFlags := rfl
@[simp] theorem setLineCount_lineCount : (s.setLineCount v).lineCount = v := rfl
@[simp] theorem setLineCount_currentLine : (s.setLineCount v).currentLine = s.currentLine := rfl
@[simp] theorem setLineCount_timing : (s.setLineCount v).timing = s.timing := rfl
@[simp] theorem setLineCount_latch : (s.setLineCount v).latch = s.latch := rfl
@[simp] theorem setLineCount_replies : (s.setLineCount v).replies = s.replies := rfl
@[simp] theorem setLineCount_hostPort : (s.setLineCount v).hostPort = s.hostPort := rfl
@[simp] theorem setLineCount_commandPort : (s.setLineCount v).commandPort = s.commandPort := rfl
@[simp] theorem setLineCount_trace : (s.setLineCount v).trace = s.trace := rfl
@[simp] theorem setLineCount_status : (s.setLineCount v).status = s.status := rfl
@[simp] theorem setLineCount_sent : (s.setLineCount v).sent = s.sent := rfl
@[simp] theorem setLineCount_waiting : (s.setLineCount v).waiting = s.waiting := rfl

end

/-! ### setCurrentLine -/

section
variable (s : State) (v : Byte)

@[simp] theorem setCurrentLine_fsm : (s.setCurrentLine v).fsm = s.fsm := rfl
@[simp] theorem setCurrentLine_pinMap : (s.setCurrentLine v).pinMap = s.pinMap := rfl
@[simp] theorem setCurrentLine_modeFlags : (s.setCurrentLine v).modeFlags = s.modeFlags := rfl
@[simp] theorem setCurrentLine_displayControlFlags : (s.setCurrentLine v).displayControlFlags = s.displayControlFlags := rfl
@[simp] theorem setCurrentLine_entryModeFlags : (s.setCurrentLine v).entryModeFlags = s.entryModeFlags := rfl
@[simp] theorem setCurrentLine_lineCount : (s.setCurrentLine v).lineCount = s.lineCount := rfl
@[simp] theorem setCurrentLine_currentLine : (s.setCurrentLine v).currentLine = v := rfl
@[simp] theorem setCurrentLine_timing : (s.setCurrentLine v).timing = s.timing := rfl
@[simp] theorem setCurrentLine_latch : (s.setCurrentLine v).latch = s.latch := rfl
@[simp] theorem setCurrentLine_replies : (s.setCurrentLine v).replies = s.replies := rfl
@[simp] theorem setCurrentLine_hostPort : (s.setCurrentLine v).hostPort = s.hostPort := rfl
@[simp] theorem setCurrentLine_commandPort : (s.setCurrentLine v).commandPort = s.commandPort := rfl
@[simp] theorem setCurrentLine_trace : (s.setCurrentLine v).trace = s.trace := rfl
@[simp] theorem setCurrentLine_status : (s.setCurrentLine v).status = s.status := rfl
@[simp] theorem setCurrentLine_sent : (s.setCurrentLine v).sent = s.sent := rfl
@[simp] theorem setCurrentLine_waiting : (s.setCurrentLine v).waiting = s.waiting := rfl

end

/-! ### setLatch -/

section
variable (s : State) (v : Byte)

@[simp] theorem setLatch_fsm : (s.setLatch v).fsm = s.fsm := rfl
@[simp] theorem setLatch_pinMap : (s.setLatch v).pinMap = s.pinMap := rfl
@[simp] theorem setLatch_modeFlags : (s.setLatch v).modeFlags = s.modeFlags := rfl
@[simp] theorem setLatch_displayControlFlags : (s.setLatch v).displayControlFlags = s.displayControlFlags := rfl
@[simp] theorem setLatch_entryModeFlags : (s.setLatch v).entryModeFlags = s.entryModeFlags := rfl
@[simp] theorem setLatch_lineCount : (s.setLatch v).lineCount = s.lineCount := rfl
@[simp] theorem setLatch_currentLine : (s.setLatch v).currentLine = s.currentLine := rfl
@[simp] theorem setLatch_timing : (s.setLatch v).timing = s.timing := rfl
@[simp] theorem setLatch_latch : (s.setLatch v).latch = v := rfl
@[simp] theorem setLatch_replies : (s.setLatch v).replies = s.replies := rfl
@[simp] theorem setLatch_hostPort : (s.setLatch v).hostPort = s.hostPort := rfl
@[simp] theorem setLatch_commandPort : (s.setLatch v).commandPort = s.commandPort := rfl
@[simp] theorem setLatch_trace : (s.setLatch v).trace = s.trace := rfl
@[simp] theorem setLatch_status : (s.setLatch v).status = s.status := rfl
@[simp] theorem setLatch_sent : (s.setLatch v).sent = s.sent := rfl
@[simp] theorem setLatch_waiting : (s.setLatch v).waiting = s.waiting := rfl

end

/-! ### setReplies -/

section
variable (s : State) (v : List Reply)

@[simp] theorem setReplies_fsm : (s.setReplies v).fsm = s.fsm := rfl
@[simp] theorem setReplies_pinMap : (s.setReplies v).pinMap = s.pinMap := rfl
@[simp] theorem setReplies_modeFlags : (s.setReplies v).modeFlags = s.modeFlags := rfl
@[simp] theorem setReplies_displayControlFlags : (s.setReplies v).displayControlFlags = s.displayControlFlags := rfl
@[simp] theorem setReplies_entryModeFlags : (s.setReplies v).entryModeFlags = s.entryModeFlags := rfl
@[simp] theorem setReplies_lineCount : (s.setReplies v).lineCount = s.lineCount := rfl
@[simp] theorem setReplies_currentLine : (s.setReplies v).currentLine = s.currentLine := rfl
@[simp] theorem setReplies_timing : (s.setReplies v).timing = s.timing := rfl
@[simp] theorem setReplies_latch : (s.setReplies v).latch = s.latch := rfl
@[simp] theorem setReplies_replies : (s.setReplies v).replies = v := rfl
@[simp] theorem setReplies_hostPort : (s.setReplies v).hostPort = s.hostPort := rfl
@[simp] theorem setReplies_commandPort : (s.setReplies v).commandPort = s.commandPort := rfl
@[simp] theorem setReplies_trace : (s.setReplies v).trace = s.trace := rfl
@[simp] theorem setReplies_status : (s.setReplies v).status = s.status := rfl
@[simp] theorem setReplies_sent : (s.setReplies v).sent = s.sent := rfl
@[simp] theorem setReplies_waiting : (s.setReplies v).waiting = s.waiting := rfl

end

/-! ### setHostPort -/

section
variable (s : State) (v : List Byte)

@[simp] theorem setHostPort_fsm : (s.setHostPort v).fsm = s.fsm := rfl
@[simp] theorem setHostPort_pinMap : (s.setHostPort v).pinMap = s.pinMap := rfl
@[simp] theorem setHostPort_modeFlags : (s.setHostPort v).modeFlags = s.modeFlags := rfl
@[simp] theorem setHostPort_displayControlFlags : (s.setHostPort v).displayControlFlags = s.displayControlFlags := rfl
@[simp] theorem setHostPort_entryModeFlags : (s.setHostPort v).entryModeFlags = s.entryModeFlags := rfl
@[simp] theorem setHostPort_lineCount : (s.setHostPort v).lineCount = s.lineCount := rfl
@[simp] theorem setHostPort_currentLine : (s.setHostPort v).currentLine = s.currentLine := rfl
@[simp] theorem setHostPort_timing : (s.setHostPort v).timing = s.timing := rfl
@[simp] theorem setHostPort_latch : (s.setHostPort v).latch = s.latch := rfl
@[simp] theorem setHostPort_replies : (s.setHostPort v).replies = s.replies := rfl
@[simp] theorem setHostPort_hostPort : (s.setHostPort v).hostPort = v := rfl
@[simp] theorem setHostPort_commandPort : (s.setHostPort v).commandPort = s.commandPort := rfl
@[simp] theorem setHostPort_trace : (s.setHostPort v).trace = s.trace := rfl
@[simp] theorem setHostPort_status : (s.setHostPort v).status = s.status := rfl
@[simp] theorem setHostPort_sent : (s.setHostPort v).sent = s.sent := rfl
@[simp] theorem setHostPort_waiting : (s.setHostPort v).waiting = s.waiting := rfl

end

/-! ### setCommandPort -/

section
variable (s : State) (v : List Byte)

@[simp] theorem setCommandPort_fsm : (s.setCommandPort v).fsm = s.fsm := rfl
@[simp] theorem setCommandPort_pinMap : (s.setCommandPort v).pinMap = s.pinMap := rfl
@[simp] theorem setCommandPort_modeFlags : (s.setCommandPort v).modeFlags = s.modeFlags := rfl
@[simp] theorem setCommandPort_displayControlFlags : (s.setCommandPort v).displayControlFlags = s.displayControlFlags := rfl
@[simp] theorem setCommandPort_entryModeFlags : (s.setCommandPort v).entryModeFlags = s.entryModeFlags := rfl
@[simp] theorem setCommandPort_lineCount : (s.setCommandPort v).lineCount = s.lineCount := rfl
@[simp] theorem setCommandPort_currentLine : (s.setCommandPort v).currentLine = s.currentLine := rfl
@[simp] theorem setCommandPort_timing : (s.setCommandPort v).timing = s.timing := rfl
@[simp] theorem setCommandPort_latch : (s.setCommandPort v).latch = s.latch := rfl
@[simp] theorem setCommandPort_replies : (s.setCommandPort v).replies = s.replies := rfl
@[simp] theorem setCommandPort_hostPort : (s.setCommandPort v).hostPort = s.hostPort := rfl
@[simp] theorem setCommandPort_commandPort : (s.setCommandPort v).commandPort = v := rfl
@[simp] theorem setCommandPort_trace : (s.setCommandPort v).trace = s.trace := rfl
@[simp] theorem setCommandPort_status : (s.setCommandPort v).status = s.status := rfl
@[simp] theorem setCommandPort_sent : (s.setCommandPort v).sent = s.sent := rfl
@[simp] theorem setCommandPort_waiting : (s.setCommandPort v).waiting = s.waiting := rfl

end

/-! ### setStatus -/

section
variable (s : State) (v : Option Status)

@[simp] theorem setStatus_fsm : (s.setStatus v).fsm = s.fsm := rfl
@[simp] theorem setStatus_pinMap : (s.setStatus v).pinMap = s.pinMap := rfl
@[simp] theorem setStatus_modeFlags : (s.setStatus v).modeFlags = s.modeFlags := rfl
@[simp] theorem setStatus_displayControlFlags : (s.setStatus v).displayControlFlags = s.displayControlFlags := rfl
@[simp] theorem setStatus_entryModeFlags : (s.setStatus v).entryModeFlags = s.entryModeFlags := rfl
@[simp] theorem setStatus_lineCount : (s.setStatus v).lineCount = s.lineCount := rfl
@[simp] theorem setStatus_currentLine : (s.setStatus v).currentLine = s.currentLine := rfl
@[simp] theorem setStatus_timing : (s.setStatus v).timing = s.timing := rfl
@[simp] theorem setStatus_latch : (s.setStatus v).latch = s.latch := rfl
@[simp] theorem setStatus_replies : (s.setStatus v).replies = s.replies := rfl
@[simp] theorem setStatus_hostPort : (s.setStatus v).hostPort = s.hostPort := rfl
@[simp] theorem setStatus_commandPort : (s.setStatus v).commandPort = s.commandPort := rfl
@[simp] theorem setStatus_trace : (s.setStatus v).trace = s.trace := rfl
@[simp] theorem setStatus_status : (s.setStatus v).status = v := rfl
@[simp] theorem setStatus_sent : (s.setStatus v).sent = s.sent := rfl
@[simp] theorem setStatus_waiting : (s.setStatus v).waiting = s.waiting := rfl

end

/-! ### setWaiting -/

section
variable (s : State) (v : Bool)

@[simp] theorem setWaiting_fsm : (s.setWaiting v).fsm = s.fsm := rfl
@[simp] theorem setWaiting_pinMap : (s.setWaiting v).pinMap = s.pinMap := rfl
@[simp] theorem setWaiting_modeFlags : (s.setWaiting v).modeFlags = s.modeFlags := rfl
@[simp] theorem setWaiting_displayControlFlags : (s.setWaiting v).displayControlFlags = s.displayControlFlags := rfl
@[simp] theorem setWaiting_entryModeFlags : (s.setWaiting v).entryModeFlags = s.entryModeFlags := rfl
@[simp] theorem setWaiting_lineCount : (s.setWaiting v).lineCount = s.lineCount := rfl
@[simp] theorem setWaiting_currentLine : (s.setWaiting v).currentLine = s.currentLine := rfl
@[simp] theorem setWaiting_timing : (s.setWaiting v).timing = s.timing := rfl
@[simp] theorem setWaiting_latch : (s.setWaiting v).latch = s.latch := rfl
@[simp] theorem setWaiting_replies : (s.setWaiting v).replies = s.replies := rfl
@[simp] theorem setWaiting_hostPort : (s.setWaiting v).hostPort = s.hostPort := rfl
@[simp] theorem setWaiting_commandPort : (s.setWaiting v).commandPort = s.commandPort := rfl
@[simp] theorem setWaiting_trace : (s.setWaiting v).trace = s.trace := rfl
@[simp] theorem setWaiting_status : (s.setWaiting v).status = s.status := rfl
@[simp] theorem setWaiting_sent : (s.setWaiting v).sent = s.sent := rfl
@[simp] theorem setWaiting_waiting : (s.setWaiting v).waiting = v := rfl

end

/-! ### log -/

section
variable (s : State) (v : Event)

@[simp] theorem log_fsm : (s.log v).fsm = s.fsm := rfl
@[simp] theorem log_pinMap : (s.log v).pinMap = s.pinMap := rfl
@[simp] theorem log_modeFlags : (s.log v).modeFlags = s.modeFlags := rfl
@[simp] theorem log_displayControlFlags : (s.log v).displayControlFlags = s.displayControlFlags := rfl
@[simp] theorem log_entryModeFlags : (s.log v).entryModeFlags = s.entryModeFlags := rfl
@[simp] theorem log_lineCount : (s.log v).lineCount = s.lineCount := rfl
@[simp] theorem log_currentLine : (s.log v).currentLine = s.currentLine := rfl
@[simp] theorem log_timing : (s.log v).timing = s.timing := rfl
@[simp] theorem log_latch : (s.log v).latch = s.latch := rfl
@[simp] theorem log_replies : (s.log v).replies = s.replies := rfl
@[simp] theorem log_hostPort : (s.log v).hostPort = s.hostPort := rfl
@[simp] theorem log_commandPort : (s.log v).commandPort = s.commandPort := rfl
@[simp] theorem log_trace : (s.log v).trace = s.trace ++ [v] := rfl
@[simp] theorem log_status : (s.log v).status = s.status := rfl
@[simp] theorem log_sent : (s.log v).sent = s.sent := rfl
@[simp] theorem log_waiting : (s.log v).waiting = s.waiting := rfl

end

/-! ### recordSent -/

section
variable (s : State) (v : Sent)

@[simp] theorem recordSent_fsm : (s.recordSent v).fsm = s.fsm := rfl
@[simp] theorem recordSent_pinMap : (s.recordSent v).pinMap = s.pinMap := rfl
@[simp] theorem recordSent_modeFlags : (s.recordSent v).modeFlags = s.modeFlags := rfl
@[simp] theorem recordSent_displayControlFlags : (s.recordSent v).displayControlFlags = s.displayControlFlags := rfl
@[simp] theorem recordSent_entryModeFlags : (s.recordSent v).entryModeFlags = s.entryModeFlags := rfl
@[simp] theorem recordSent_lineCount : (s.recordSent v).lineCount = s.lineCount := rfl
@[simp] theorem recordSent_currentLine : (s.recordSent v).currentLine = s.currentLine := rfl
@[simp] theorem recordSent_timing : (s.recordSent v).timing = s.timing := rfl
@[simp] theorem recordSent_latch : (s.recordSent v).latch = s.latch := rfl
@[simp] theorem recordSent_replies : (s.recordSent v).replies = s.replies := rfl
@[simp] theorem recordSent_hostPort : (s.recordSent v).hostPort = s.hostPort := rfl
@[simp] theorem recordSent_commandPort : (s.recordSent v).commandPort = s.commandPort := rfl
@[simp] theorem recordSent_trace : (s.recordSent v).trace = s.trace := rfl
@[simp] theorem recordSent_status : (s.recordSent v).status = s.status := rfl
@[simp] theorem recordSent_sent : (s.recordSent v).sent = s.sent ++ [v] := rfl
@[simp] theorem recordSent_waiting : (s.recordSent v).waiting = s.waiting := rfl

end

/-! ### resetWith -/

section
variable (latch0 : Byte)

@[simp] theorem resetWith_fsm : (resetWith latch0).fsm = .unconfigured := rfl
@[simp] theorem resetWith_timing : (resetWith latch0).timing = Config.defaultTiming := rfl
@[simp] theorem resetWith_latch : (resetWith latch0).latch = latch0 := rfl
@[simp] theorem resetWith_replies : (resetWith latch0).replies = [] := rfl
@[simp] theorem resetWith_hostPort : (resetWith latch0).hostPort = [] := rfl
@[simp] theorem resetWith_commandPort : (resetWith latch0).commandPort = [] := rfl
@[simp] theorem resetWith_trace : (resetWith latch0).trace = [] := rfl
@[simp] theorem resetWith_status : (resetWith latch0).status = none := rfl
@[simp] theorem resetWith_sent : (resetWith latch0).sent = [] := rfl
@[simp] theorem resetWith_waiting : (resetWith latch0).waiting = false := rfl

end

end Sys2Proof.Machine.State
end

