-- ==== Sys2Proof/Laws/Ops.lean ====
section
/-! SUPPORT. What the shared operations do, said once: the transactions, SetPin, an action, a list of actions. Later
proofs cite these and do not unfold the operations. -/

namespace Sys2Proof.Machine

/-- The state a progress has reached. -/
def Progress.state : Progress → State
  | .going s => s
  | .ended s => s

@[simp] theorem Progress.state_going (s : State) : (Progress.going s).state = s := rfl
@[simp] theorem Progress.state_ended (s : State) : (Progress.ended s).state = s := rfl
@[simp] theorem Progress.andThen_going (s : State) (k : State → Progress) : (Progress.going s).andThen k = k s := rfl
@[simp] theorem Progress.andThen_ended (s : State) (k : State → Progress) :
    (Progress.ended s).andThen k = .ended s := rfl

theorem Progress.andThen_assoc (p : Progress) (k l : State → Progress) :
    (p.andThen k).andThen l = p.andThen fun s => (k s).andThen l := by
  cases p <;> rfl

@[simp] theorem runActions_nil (s : State) : runActions [] s = .going s := rfl
theorem runActions_cons (a : Action) (rest : List Action) (s : State) :
    runActions (a :: rest) s = (runAction a s).andThen (runActions rest) := rfl

/-- A list of actions is run piece by piece. -/
theorem runActions_append (as bs : List Action) (s : State) :
    runActions (as ++ bs) s = (runActions as s).andThen (runActions bs) := by
  induction as generalizing s with
  | nil => rfl
  | cons a rest ih =>
    rw [List.cons_append, runActions_cons, runActions_cons, Progress.andThen_assoc]
    cases runAction a s with
    | going t => exact ih t
    | ended t => rfl

/-- SET_BACKLIGHT's access is SetPin on position 7 (43_display_cursor_ops.md R181). -/
theorem readModifyWrite_eq (p : Fin 8) (level : Bool) (s : State) :
    readModifyWrite p level s = runActions [.drive (some p) level] s := by
  simp only [runActions, runAction, setPin]
  cases readModifyWrite p level s <;> rfl

/-! ### Fields that stay -/

@[simp] theorem State.sameFields_refl (s : State) : s.SameFields s := ⟨rfl, rfl, rfl, rfl, rfl, rfl, rfl, rfl, rfl, rfl⟩

theorem State.SameFields.trans {s t u : State} (h : s.SameFields t) (k : t.SameFields u) : s.SameFields u := by
  exact ⟨k.1.trans h.1, k.2.trans h.2, k.3.trans h.3, k.4.trans h.4, k.5.trans h.5, k.6.trans h.6, k.7.trans h.7,
    k.8.trans h.8, k.9.trans h.9, k.10.trans h.10⟩

@[simp] theorem sameFields_setReplies (s t : State) (v : List Reply) : s.SameFields (t.setReplies v) ↔ s.SameFields t :=
  ⟨fun h => ⟨h.1, h.2, h.3, h.4, h.5, h.6, h.7, h.8, h.9, h.10⟩, fun h => ⟨h.1, h.2, h.3, h.4, h.5, h.6, h.7, h.8, h.9, h.10⟩⟩
@[simp] theorem sameFields_setLatch (s t : State) (v : Byte) : s.SameFields (t.setLatch v) ↔ s.SameFields t :=
  ⟨fun h => ⟨h.1, h.2, h.3, h.4, h.5, h.6, h.7, h.8, h.9, h.10⟩, fun h => ⟨h.1, h.2, h.3, h.4, h.5, h.6, h.7, h.8, h.9, h.10⟩⟩
@[simp] theorem sameFields_log (s t : State) (v : Event) : s.SameFields (t.log v) ↔ s.SameFields t :=
  ⟨fun h => ⟨h.1, h.2, h.3, h.4, h.5, h.6, h.7, h.8, h.9, h.10⟩, fun h => ⟨h.1, h.2, h.3, h.4, h.5, h.6, h.7, h.8, h.9, h.10⟩⟩
@[simp] theorem sameFields_recordSent (s t : State) (v : Sent) : s.SameFields (t.recordSent v) ↔ s.SameFields t :=
  ⟨fun h => ⟨h.1, h.2, h.3, h.4, h.5, h.6, h.7, h.8, h.9, h.10⟩, fun h => ⟨h.1, h.2, h.3, h.4, h.5, h.6, h.7, h.8, h.9, h.10⟩⟩
@[simp] theorem sameFields_setStatus (s t : State) (v : Option Status) : s.SameFields (t.setStatus v) ↔ s.SameFields t :=
  ⟨fun h => ⟨h.1, h.2, h.3, h.4, h.5, h.6, h.7, h.8, h.9, h.10⟩, fun h => ⟨h.1, h.2, h.3, h.4, h.5, h.6, h.7, h.8, h.9, h.10⟩⟩
@[simp] theorem sameFields_setWaiting (s t : State) (v : Bool) : s.SameFields (t.setWaiting v) ↔ s.SameFields t :=
  ⟨fun h => ⟨h.1, h.2, h.3, h.4, h.5, h.6, h.7, h.8, h.9, h.10⟩, fun h => ⟨h.1, h.2, h.3, h.4, h.5, h.6, h.7, h.8, h.9, h.10⟩⟩

/-! ### Under the contract -/

/-- The contract is the three premises together. -/
theorem busOk_iff (s : State) : s.busOk ↔ s.soleOwner ∧ s.noBusError ∧ s.answered := by
  constructor
  · intro h
    refine ⟨?_, ?_, ?_⟩ <;> intro r hr <;> rw [h r hr] <;> rfl
  · rintro ⟨h1, h2, h3⟩ r hr
    have a := h1 r hr
    have b := h2 r hr
    have c := h3 r hr
    cases r <;> simp_all [Reply.isForeign, Reply.isFailure, Reply.isSilent]

theorem nextReply_busOk {s : State} (h : s.busOk) : nextReply s = .ok := by
  unfold nextReply
  cases hr : s.replies with
  | nil => rfl
  | cons r rest => exact h r (by simp [hr])

theorem tail_eq_drop_one {α : Type} (l : List α) : l.tail = l.drop 1 := by cases l <;> rfl

theorem busOk_drop {s t : State} (h : s.busOk) (n : Nat) (ht : t.replies = s.replies.drop n) : t.busOk := by
  intro r hr
  rw [ht] at hr
  exact h r (List.mem_of_mem_drop hr)

/-- A read-modify-write under the contract. -/
theorem readModifyWrite_busOk {s : State} (h : s.busOk) (p : Fin 8) (level : Bool) :
    readModifyWrite p level s = .going (s.after [.drive (some p) level]) := by
  have h1 : nextReply ((dropReply s).log (.rd s.latch)) = .ok :=
    nextReply_busOk (busOk_drop h 1 (by simp [dropReply]))
  simp only [readModifyWrite, rdReg, nextReply_busOk h, wrReg, h1]
  simp [dropReply, tail_eq_drop_one, State.after, State.setReplies, State.setLatch, State.log, eventsOf, actionEvents,
    latchOf, actionLatch, sentOf, actionSent, callsOf, actionCalls, -List.drop_one]

/-- One action under the contract. -/
theorem runAction_busOk {s : State} (h : s.busOk) (a : Action) : runAction a s = .going (s.after [a]) := by
  cases a with
  | drive p level =>
    cases p with
    | none => simp [runAction, setPin, State.after, eventsOf, actionEvents, latchOf, actionLatch, sentOf, actionSent,
        callsOf, actionCalls]
    | some p => exact readModifyWrite_busOk h p level
  | wait ms => simp [runAction, delay, State.after, State.log, eventsOf, actionEvents, latchOf, actionLatch, sentOf,
      actionSent, callsOf, actionCalls]
  | delivered b isData => simp [runAction, State.after, State.recordSent, eventsOf, actionEvents, latchOf, actionLatch,
      sentOf, actionSent, callsOf, actionCalls]

@[simp] theorem State.after_nil (s : State) : s.after [] = s := by
  simp [State.after, eventsOf, latchOf, sentOf, callsOf]

theorem State.after_cons (s : State) (a : Action) (rest : List Action) :
    s.after (a :: rest) = (s.after [a]).after rest := by
  simp [State.after, eventsOf, latchOf, sentOf, callsOf, List.append_assoc]

theorem busOk_after {s : State} (h : s.busOk) (as : List Action) : (s.after as).busOk :=
  busOk_drop h (callsOf as) rfl

/-- Under the contract a list of actions runs to its end, and does exactly what `State.after` says. -/
theorem runActions_busOk {s : State} (h : s.busOk) (as : List Action) : runActions as s = .going (s.after as) := by
  induction as generalizing s with
  | nil => simp
  | cons a rest ih =>
    rw [runActions_cons, runAction_busOk h, Progress.andThen_going, ih (busOk_after h [a]), ← State.after_cons]

theorem State.after_append (s : State) (as bs : List Action) : s.after (as ++ bs) = (s.after as).after bs := by
  induction as generalizing s with
  | nil => simp
  | cons a rest ih => rw [List.cons_append, State.after_cons, ih, ← State.after_cons]

theorem eventsOf_append (as bs : List Action) (L : Byte) :
    eventsOf (as ++ bs) L = eventsOf as L ++ eventsOf bs (latchOf as L) := by
  induction as generalizing L with
  | nil => rfl
  | cons a rest ih => simp [eventsOf, latchOf, ih]

theorem latchOf_append (as bs : List Action) (L : Byte) : latchOf (as ++ bs) L = latchOf bs (latchOf as L) := by
  induction as generalizing L with
  | nil => rfl
  | cons a rest ih => simp [latchOf, ih]

theorem sentOf_append (as bs : List Action) : sentOf (as ++ bs) = sentOf as ++ sentOf bs := by
  induction as with
  | nil => rfl
  | cons a rest ih => simp [sentOf, ih]

theorem callsOf_append (as bs : List Action) : callsOf (as ++ bs) = callsOf as + callsOf bs := by
  induction as with
  | nil => simp [callsOf]
  | cons a rest ih => simp [callsOf, ih, Nat.add_assoc]

/-! ### Whatever the proxy answers -/

/-- The write law composes. -/
theorem writesFollowReads_append {xs ys : List Event} (hx : writesFollowReads xs) (hy : writesFollowReads ys) :
    writesFollowReads (xs ++ ys) := by
  fun_induction writesFollowReads xs with
  | case1 => exact hy
  | case2 v w rest ih => exact ⟨hx.1, ih hx.2⟩
  | case3 v w rest ih => exact ⟨hx.1, ih hx.2⟩
  | case4 v rest h1 h2 ih =>
    have := ih hx
    rw [List.cons_append]
    cases rest with
    | nil =>
      cases ys with
      | nil => trivial
      | cons y ys => cases y <;> first | exact this | exact hy.elim
    | cons e rest =>
      cases e with
      | wr w => exact (h1 w rest rfl).elim
      | wrFail w => exact (h2 w rest rfl).elim
      | _ => exact this
  | case5 rest ih => exact ih hx
  | case6 n rest ih => exact ih hx
  | case7 => exact hx.elim
  | case8 => exact hx.elim

/-- The event `e` is the failure of a transaction of kind `cause`; after a failed write the latch holds what the proxy's
answer says. -/
def FailsAs (latch : Byte) (e : Event) (cause : Cause) (after : Byte) : Prop :=
  (cause = .read ∧ e = .rdFail) ∨ (cause = .write ∧ (∃ v, e = .wrFail v) ∧ latch = after)

theorem FailsAs.isFailure {latch : Byte} {e : Event} {cause : Cause} {after : Byte} (h : FailsAs latch e cause after) :
    e.isFailure = true := by
  rcases h with ⟨-, rfl⟩ | ⟨-, ⟨v, rfl⟩, -⟩ <;> rfl

/-- Everything a run of actions from `s` can do to what the block puts out, whatever the proxy answers. `events` are the
interface events it adds and `bytes` the bytes whose Send it completes. -/
structure RunSpec (s : State) (events : List Event) (bytes : List Sent) (p : Progress) : Prop where
  trace : p.state.trace = s.trace ++ events
  sent : p.state.sent = s.sent ++ bytes
  law : writesFollowReads events
  /-- If it goes on, no transaction has failed and none is outstanding. -/
  going : ∀ t, p = .going t → t.status = s.status ∧ t.waiting = s.waiting ∧ ∀ e ∈ events, e.isFailure = false
  /-- If it has ended, either the last event, and no other, is a failed transaction, whose BusError is the status, or a
  transaction is never answered. -/
  ended : ∀ t, p = .ended t →
    (∃ before e cause detail after, events = before ++ [e] ∧ (∀ x ∈ before, x.isFailure = false)
      ∧ FailsAs t.latch e cause after
      ∧ t.status = some (.busError cause detail) ∧ t.waiting = s.waiting ∧ Reply.fail after detail ∈ s.replies)
    ∨ (t.status = s.status ∧ t.waiting = true ∧ (∀ x ∈ events, x.isFailure = false)
      ∧ ∃ after, Reply.silent after ∈ s.replies)
  /-- The answers left are a suffix of those that were there. -/
  replies : ∃ n, p.state.replies = s.replies.drop n

/-- Field writes before a run change nothing of this. -/
theorem RunSpec.of_same {s s' : State} {es : List Event} {bs : List Sent} {p : Progress} (h : RunSpec s' es bs p)
    (htrace : s'.trace = s.trace) (hsent : s'.sent = s.sent) (hstatus : s'.status = s.status)
    (hwaiting : s'.waiting = s.waiting) (hreplies : s'.replies = s.replies) : RunSpec s es bs p := by
  obtain ⟨h1, h2, h3, h4, h5, h6⟩ := h
  rw [htrace] at h1
  rw [hsent] at h2
  rw [hstatus, hwaiting] at h4
  rw [hstatus, hwaiting, hreplies] at h5
  rw [hreplies] at h6
  exact ⟨h1, h2, h3, h4, h5, h6⟩

theorem RunSpec.refl (s : State) : RunSpec s [] [] (.going s) where
  trace := by simp
  sent := by simp
  law := trivial
  going := by rintro t ⟨⟩; simp
  ended := by rintro t ⟨⟩
  replies := ⟨0, by simp⟩

/-- Runs compose. -/
theorem RunSpec.append {s t : State} {es fs : List Event} {bs cs : List Sent} {p : Progress}
    (h : RunSpec s es bs (.going t)) (k : RunSpec t fs cs p) : RunSpec s (es ++ fs) (bs ++ cs) p where
  trace := by rw [k.trace, ← List.append_assoc, ← h.trace]; rfl
  sent := by rw [k.sent, ← List.append_assoc, ← h.sent]; rfl
  law := writesFollowReads_append h.law k.law
  going := by
    intro u hu
    obtain ⟨a1, a2, a3⟩ := h.going t rfl
    obtain ⟨b1, b2, b3⟩ := k.going u hu
    refine ⟨b1.trans a1, b2.trans a2, fun e he => ?_⟩
    rcases List.mem_append.mp he with he | he
    · exact a3 e he
    · exact b3 e he
  ended := by
    intro u hu
    obtain ⟨a1, a2, a3⟩ := h.going t rfl
    rcases k.ended u hu with ⟨before, e, cause, detail, after, h1, h3, h2, h4, h5, h6⟩ | ⟨h1, h2, h3, h4⟩
    · refine .inl ⟨es ++ before, e, cause, detail, after, by rw [h1, List.append_assoc], ?_, h2, h4, h5.trans a2, ?_⟩
      · intro x hx
        rcases List.mem_append.mp hx with hx | hx
        · exact a3 x hx
        · exact h3 x hx
      · obtain ⟨n, hn⟩ := h.replies
        rw [Progress.state_going] at hn
        rw [hn] at h6
        exact List.mem_of_mem_drop h6
    · refine .inr ⟨h1.trans a1, h2, ?_, ?_⟩
      · intro x hx
        rcases List.mem_append.mp hx with hx | hx
        · exact a3 x hx
        · exact h3 x hx
      · obtain ⟨n, hn⟩ := h.replies
        rw [Progress.state_going] at hn
        rw [hn] at h4
        obtain ⟨after, h4⟩ := h4
        exact ⟨after, List.mem_of_mem_drop h4⟩
  replies := by
    obtain ⟨m, hm⟩ := k.replies
    obtain ⟨n, hn⟩ := h.replies
    rw [Progress.state_going] at hn
    exact ⟨n + m, by rw [hm, hn, List.drop_drop]⟩

theorem nextReply_fail {s : State} {after : Byte} {detail : Nat} (h : nextReply s = .fail after detail) :
    Reply.fail after detail ∈ s.replies := by
  unfold nextReply at h
  cases hr : s.replies with
  | nil => simp [hr] at h
  | cons r rest => simp [hr] at h; simp [h]

theorem nextReply_silent {s : State} {after : Byte} (h : nextReply s = .silent after) :
    Reply.silent after ∈ s.replies := by
  unfold nextReply at h
  cases hr : s.replies with
  | nil => simp [hr] at h
  | cons r rest => simp [hr] at h; simp [h]

/-- A read: either it answers a byte, or it ends the operation. -/
theorem rdReg_spec (s : State) :
    (∃ v t, rdReg s = .got v t ∧ s.SameFields t ∧ t.trace = s.trace ++ [.rd v] ∧ t.sent = s.sent
        ∧ t.status = s.status ∧ t.waiting = s.waiting ∧ t.latch = s.latch ∧ t.replies = s.replies.drop 1)
      ∨ ∃ t es, rdReg s = .ended t ∧ s.SameFields t ∧ RunSpec s es [] (.ended t) := by
  unfold rdReg
  cases h : nextReply s with
  | ok => exact .inl ⟨_, _, rfl, by simp [dropReply]⟩
  | answer v => exact .inl ⟨_, _, rfl, by simp [dropReply]⟩
  | fail after detail =>
    refine .inr ⟨_, [.rdFail], rfl, by simp [raiseBusError, dropReply], ?_⟩
    exact {
      trace := by simp [raiseBusError, dropReply]
      sent := by simp [raiseBusError, dropReply]
      law := trivial
      going := by rintro t ⟨⟩
      ended := by
        rintro t ⟨⟩
        exact .inl ⟨[], .rdFail, .read, detail, after, rfl, by simp, .inl ⟨rfl, rfl⟩, by simp [raiseBusError],
          by simp [raiseBusError, dropReply], nextReply_fail h⟩
      replies := ⟨1, by simp [raiseBusError, dropReply]⟩ }
  | silent after =>
    refine .inr ⟨_, [], rfl, by simp [dropReply], ?_⟩
    exact {
      trace := by simp [dropReply]
      sent := by simp [dropReply]
      law := trivial
      going := by rintro t ⟨⟩
      ended := by
        rintro t ⟨⟩
        exact .inr ⟨by simp [dropReply], by simp, by simp, after, nextReply_silent h⟩
      replies := ⟨1, by simp [dropReply]⟩ }

/-- A write: it goes on, fails, or is never answered. -/
theorem wrReg_spec (w : Byte) (s : State) :
    (∃ t, wrReg w s = .going t ∧ s.SameFields t ∧ t.trace = s.trace ++ [.wr w] ∧ t.sent = s.sent
        ∧ t.status = s.status ∧ t.waiting = s.waiting ∧ t.latch = w ∧ t.replies = s.replies.drop 1)
      ∨ (∃ t after detail, wrReg w s = .ended t ∧ s.SameFields t ∧ t.trace = s.trace ++ [.wrFail w]
        ∧ t.sent = s.sent ∧ t.status = some (.busError .write detail) ∧ t.waiting = s.waiting
        ∧ t.replies = s.replies.drop 1 ∧ t.latch = after ∧ Reply.fail after detail ∈ s.replies)
      ∨ (∃ t, wrReg w s = .ended t ∧ s.SameFields t ∧ t.trace = s.trace ∧ t.sent = s.sent
        ∧ t.status = s.status ∧ t.waiting = true ∧ (∃ after, Reply.silent after ∈ s.replies)
        ∧ t.replies = s.replies.drop 1) := by
  unfold wrReg
  cases h : nextReply s with
  | ok => exact .inl ⟨_, rfl, by simp [dropReply]⟩
  | answer v => exact .inl ⟨_, rfl, by simp [dropReply]⟩
  | fail after detail => exact .inr (.inl ⟨_, after, detail, rfl, by simp [raiseBusError, dropReply, nextReply_fail h]⟩)
  | silent after =>
    exact .inr (.inr ⟨_, rfl, by simp [dropReply], by simp [dropReply], by simp [dropReply], by simp [dropReply], by simp,
      ⟨after, nextReply_silent h⟩, by simp [dropReply]⟩)

/-- A read-modify-write. -/
theorem readModifyWrite_spec (p : Fin 8) (level : Bool) (s : State) :
    s.SameFields (readModifyWrite p level s).state ∧ ∃ es, RunSpec s es [] (readModifyWrite p level s) := by
  unfold readModifyWrite
  rcases rdReg_spec s with ⟨v, t, h, f, htr, hse, hst, hwa, -, hre⟩ | ⟨t, es, h, f, hr⟩
  · rw [h]
    dsimp only
    rcases wrReg_spec (setBit v p level) t with ⟨u, h2, g, k1, k2, k3, k4, -, k6⟩ |
        ⟨u, after, detail, h2, g, k1, k2, k3, k4, k5, k6, k7⟩ | ⟨u, h2, g, k1, k2, k3, k4, k5, k6⟩
    · rw [h2]
      refine ⟨f.trans g, [.rd v, .wr (setBit v p level)], ?_⟩
      exact {
        trace := by simp [k1, htr]
        sent := by simp [k2, hse]
        law := ⟨⟨p, level, rfl⟩, trivial⟩
        going := by
          rintro x ⟨⟩
          exact ⟨k3.trans hst, k4.trans hwa, by simp [Event.isFailure]⟩
        ended := by rintro x ⟨⟩
        replies := ⟨2, by simp [k6, hre]⟩ }
    · rw [h2]
      refine ⟨f.trans g, [.rd v, .wrFail (setBit v p level)], ?_⟩
      exact {
        trace := by simp [k1, htr]
        sent := by simp [k2, hse]
        law := ⟨⟨p, level, rfl⟩, trivial⟩
        going := by rintro x ⟨⟩
        ended := by
          rintro x ⟨⟩
          refine .inl ⟨[.rd v], .wrFail (setBit v p level), .write, detail, after, rfl, by simp [Event.isFailure],
            .inr ⟨rfl, ⟨_, rfl⟩, k6⟩, k3, k4.trans hwa, ?_⟩
          rw [hre] at k7
          exact List.mem_of_mem_drop k7
        replies := ⟨2, by simp [k5, hre]⟩ }
    · rw [h2]
      refine ⟨f.trans g, [.rd v], ?_⟩
      exact {
        trace := by simp [k1, htr]
        sent := by simp [k2, hse]
        law := trivial
        going := by rintro x ⟨⟩
        ended := by
          rintro x ⟨⟩
          refine .inr ⟨k3.trans hst, k4, by simp [Event.isFailure], ?_⟩
          rw [hre] at k5
          obtain ⟨after, k5⟩ := k5
          exact ⟨after, List.mem_of_mem_drop k5⟩
        replies := ⟨2, by simp [k6, hre]⟩ }
  · rw [h]
    exact ⟨f, es, hr⟩

/-- One action: if it goes on it has completed `actionSent`, otherwise no byte. -/
theorem runAction_spec (a : Action) (s : State) :
    s.SameFields (runAction a s).state
      ∧ ∃ es bs, RunSpec s es bs (runAction a s) ∧ (∀ t, runAction a s = .going t → bs = actionSent a)
      ∧ bs <+: actionSent a := by
  cases a with
  | drive p level =>
    cases p with
    | none => exact ⟨by simp [runAction, setPin], [], [], RunSpec.refl s, by simp [actionSent], by simp [actionSent]⟩
    | some p =>
      obtain ⟨f, es, h⟩ := readModifyWrite_spec p level s
      exact ⟨f, es, [], h, by simp [actionSent], by simp [actionSent]⟩
  | wait ms =>
    refine ⟨by simp [runAction, delay], [.dly ms], [], ?_, by simp [actionSent], by simp [actionSent]⟩
    exact {
      trace := by simp [runAction, delay]
      sent := by simp [runAction, delay]
      law := trivial
      going := by rintro t ⟨⟩; simp [Event.isFailure]
      ended := by rintro t ⟨⟩
      replies := ⟨0, by simp [runAction, delay]⟩ }
  | delivered b isData =>
    refine ⟨by simp [runAction], [], [{ byte := b, isData := isData }], ?_, by simp [actionSent], by simp [actionSent]⟩
    exact {
      trace := by simp [runAction]
      sent := by simp [runAction]
      law := trivial
      going := by rintro t ⟨⟩; simp
      ended := by rintro t ⟨⟩
      replies := ⟨0, by simp [runAction]⟩ }

/-- A list of actions, whatever the proxy answers: if it runs to its end it has completed exactly the bytes of the list,
otherwise the first few of them. -/
theorem runActions_spec (as : List Action) (s : State) :
    s.SameFields (runActions as s).state
      ∧ ∃ es bs, RunSpec s es bs (runActions as s) ∧ (∀ t, runActions as s = .going t → bs = sentOf as)
      ∧ bs <+: sentOf as := by
  induction as generalizing s with
  | nil => exact ⟨by simp, [], [], RunSpec.refl s, by simp [sentOf], by simp [sentOf]⟩
  | cons a rest ih =>
    obtain ⟨f, es, bs, h, hb, hp⟩ := runAction_spec a s
    rw [runActions_cons]
    cases hr : runAction a s with
    | going t =>
      obtain ⟨g, fs, cs, k, kb, kp⟩ := ih t
      rw [hr] at h f
      have hbs := hb t hr
      refine ⟨State.SameFields.trans f g, es ++ fs, bs ++ cs, h.append k, ?_, ?_⟩
      · intro u hu
        rw [hbs, kb u hu]; rfl
      · rw [hbs]
        exact (List.prefix_append_right_inj _).mpr kp
    | ended t =>
      rw [hr] at h f
      refine ⟨f, es, bs, h, by rintro u ⟨⟩, ?_⟩
      exact hp.trans (List.prefix_append _ _)

/-- An action that completes a Send never ends an operation: one that has ended has ended before it. -/
theorem runActions_delivered_ended {as : List Action} {b : Byte} {isData : Bool} {s t : State}
    (h : runActions (as ++ [.delivered b isData]) s = .ended t) : runActions as s = .ended t := by
  rw [runActions_append] at h
  cases hr : runActions as s with
  | going u => rw [hr] at h; cases h
  | ended u => rw [hr] at h; exact h

/-- Nor does a wait. -/
theorem runActions_wait_ended {as : List Action} {ms : Nat} {s t : State}
    (h : runActions (as ++ [.wait ms]) s = .ended t) : runActions as s = .ended t := by
  rw [runActions_append] at h
  cases hr : runActions as s with
  | going u => rw [hr] at h; cases h
  | ended u => rw [hr] at h; exact h

/-! ### Under the single-owner premise -/

theorem readsReturnLatch_append {L : Byte} {xs ys : List Event} (hx : readsReturnLatch L xs)
    (hy : readsReturnLatch (lastWritten L xs) ys) : readsReturnLatch L (xs ++ ys) := by
  induction xs generalizing L with
  | nil => exact hy
  | cons e xs ih =>
    cases e with
    | rd v => exact ⟨hx.1, ih hx.2 hy⟩
    | wr w => exact ih (L := w) hx hy
    | rdFail => exact ih (L := L) hx hy
    | wrFail w => exact ih (L := L) hx hy
    | dly n => exact ih (L := L) hx hy

theorem lastWritten_append (L : Byte) (xs ys : List Event) :
    lastWritten L (xs ++ ys) = lastWritten (lastWritten L xs) ys := by
  induction xs generalizing L with
  | nil => rfl
  | cons e xs ih => cases e <;> exact ih _

theorem soleOwner_drop {s t : State} (h : s.soleOwner) (n : Nat) (ht : t.replies = s.replies.drop n) : t.soleOwner := by
  intro r hr
  rw [ht] at hr
  exact h r (List.mem_of_mem_drop hr)

theorem soleOwner_tail {s t : State} (h : s.soleOwner) (ht : t.replies = s.replies.tail) : t.soleOwner :=
  soleOwner_drop h 1 (by rw [ht, tail_eq_drop_one])

theorem nextReply_answer {s : State} {v : Byte} (h : nextReply s = .answer v) : Reply.answer v ∈ s.replies := by
  unfold nextReply at h
  cases hr : s.replies with
  | nil => simp [hr] at h
  | cons r rest => simp [hr] at h; simp [h]

/-- The positions a list of actions may write. -/
def writable (as : List Action) (p : Fin 8) : Prop := ∃ level, Action.drive (some p) level ∈ as

/-- What a run puts on the latch under the single-owner premise, `positions` being those it may write. The last clause
says that the bytes it writes keep every other bit. -/
structure OwnSpec (s : State) (positions : Fin 8 → Prop) (events : List Event) (p : Progress) : Prop where
  trace : p.state.trace = s.trace ++ events
  soleOwner : p.state.soleOwner
  reads : readsReturnLatch s.latch events
  latch : (∃ t, p = .going t) ∨ (∃ detail, p.state.status = some (.busError .read detail) ∧ s.status = none) →
    p.state.latch = lastWritten s.latch events
  kept : ∀ q : Fin 8, ¬ positions q → ∀ w, Event.wr w ∈ events ∨ Event.wrFail w ∈ events →
    w.getLsbD q.val = s.latch.getLsbD q.val

/-- Field writes before a run change nothing of this. -/
theorem OwnSpec.of_same {s s' : State} {ps : Fin 8 → Prop} {es : List Event} {p : Progress} (h : OwnSpec s' ps es p)
    (htrace : s'.trace = s.trace) (hlatch : s'.latch = s.latch) (hstatus : s'.status = s.status) :
    OwnSpec s ps es p := by
  obtain ⟨h1, h2, h3, h4, h5⟩ := h
  rw [htrace] at h1
  rw [hlatch] at h3 h4 h5
  rw [hstatus] at h4
  exact ⟨h1, h2, h3, h4, h5⟩

theorem OwnSpec.mono {s : State} {ps qs : Fin 8 → Prop} {es : List Event} {p : Progress} (h : OwnSpec s ps es p)
    (hq : ∀ q, ps q → qs q) : OwnSpec s qs es p :=
  ⟨h.trace, h.soleOwner, h.reads, h.latch, fun q hn => h.kept q fun hp => hn (hq q hp)⟩

/-- One action under the single-owner premise. -/
theorem runAction_own {s : State} (h : s.soleOwner) (a : Action) : ∃ events, OwnSpec s (writable [a]) events (runAction a s) := by
  rcases a with ⟨_ | p, level⟩ | ms | ⟨b, isData⟩
  · exact ⟨[], by simp [runAction, setPin], h, trivial, fun _ => rfl, by simp⟩
  · have keep : ∀ q : Fin 8, ¬ writable [.drive (some p) level] q →
        (setBit s.latch p level).getLsbD q.val = s.latch.getLsbD q.val := by
      intro q hq
      refine setBit_getLsbD_ne _ _ _ _ ?_
      rintro rfl
      exact hq ⟨level, by simp⟩
    simp only [runAction, setPin, readModifyWrite, rdReg, wrReg]
    cases h1 : nextReply s with
    | answer v => exact absurd (h _ (nextReply_answer h1)) (by simp [Reply.isForeign])
    | fail after detail =>
      exact ⟨[.rdFail], by simp [raiseBusError, dropReply], soleOwner_tail h (by simp [raiseBusError, dropReply]),
        trivial, by simp [raiseBusError, dropReply, lastWritten], by simp⟩
    | silent after =>
      exact ⟨[], by simp [dropReply], soleOwner_tail h (by simp [dropReply]), trivial,
        by simp [dropReply, lastWritten], by simp⟩
    | ok =>
      have h2 : ((dropReply s).log (.rd s.latch)).soleOwner := soleOwner_tail h (by simp [dropReply])
      dsimp only
      cases h3 : nextReply ((dropReply s).log (.rd s.latch)) with
      | answer v => exact absurd (h2 _ (nextReply_answer h3)) (by simp [Reply.isForeign])
      | fail after detail =>
        refine ⟨[.rd s.latch, .wrFail (setBit s.latch p level)], by simp [raiseBusError, dropReply],
          soleOwner_tail h2 (by simp [raiseBusError, dropReply]), ⟨rfl, trivial⟩, by simp [raiseBusError], ?_⟩
        intro q hq w hw
        simp at hw
        exact hw ▸ keep q hq
      | silent after =>
        exact ⟨[.rd s.latch], by simp [dropReply], soleOwner_tail h2 (by simp [dropReply]), ⟨rfl, trivial⟩, by
          rintro (⟨t, ht⟩ | ⟨detail, hd, hs⟩)
          · cases ht
          · simp [dropReply, hs] at hd, by simp⟩
      | ok =>
        refine ⟨[.rd s.latch, .wr (setBit s.latch p level)], by simp [dropReply],
          soleOwner_tail h2 (by simp [dropReply]), ⟨rfl, trivial⟩, fun _ => by simp [lastWritten], ?_⟩
        intro q hq w hw
        simp at hw
        exact hw ▸ keep q hq
  · exact ⟨[.dly ms], by simp [runAction, delay], h, trivial, fun _ => rfl, by simp⟩
  · exact ⟨[], by simp [runAction], h, trivial, fun _ => rfl, by simp⟩

/-- A bit no written byte changes is as it was. -/
theorem lastWritten_kept {L : Byte} {events : List Event} {q : Nat}
    (h : ∀ w, Event.wr w ∈ events ∨ Event.wrFail w ∈ events → w.getLsbD q = L.getLsbD q) :
    (lastWritten L events).getLsbD q = L.getLsbD q := by
  induction events generalizing L with
  | nil => rfl
  | cons e rest ih =>
    cases e with
    | wr v =>
      have hv := h v (by simp)
      rw [lastWritten, ih (L := v) fun w hw => (h w (by rcases hw with hw | hw <;> simp [hw])).trans hv.symm, hv]
    | rd v | rdFail | wrFail v | dly n =>
      exact ih fun w hw => h w (by rcases hw with hw | hw <;> simp [hw])

/-- Runs compose. -/
theorem OwnSpec.append {s t : State} {ps : Fin 8 → Prop} {es fs : List Event} {p : Progress}
    (h : OwnSpec s ps es (.going t)) (hs : t.status = s.status) (k : OwnSpec t ps fs p) :
    OwnSpec s ps (es ++ fs) p := by
  have hl : t.latch = lastWritten s.latch es := h.latch (.inl ⟨t, rfl⟩)
  refine ⟨?_, k.soleOwner, readsReturnLatch_append h.reads (hl ▸ k.reads), ?_, fun q hq w hw => ?_⟩
  · rw [k.trace, ← List.append_assoc, ← h.trace]
    rfl
  · rw [lastWritten_append, ← hl, ← hs]
    exact k.latch
  · have kl : t.latch.getLsbD q.val = s.latch.getLsbD q.val := by rw [hl]; exact lastWritten_kept (h.kept q hq)
    simp only [List.mem_append] at hw
    rcases hw with (hw | hw) | (hw | hw)
    · exact h.kept q hq w (.inl hw)
    · exact (k.kept q hq w (.inl hw)).trans kl
    · exact h.kept q hq w (.inr hw)
    · exact (k.kept q hq w (.inr hw)).trans kl

/-- A list of actions under the single-owner premise. -/
theorem runActions_own {s : State} (h : s.soleOwner) (as : List Action) :
    ∃ events, OwnSpec s (writable as) events (runActions as s) := by
  induction as generalizing s with
  | nil => exact ⟨[], by simp, h, trivial, fun _ => rfl, by simp⟩
  | cons a rest ih =>
    obtain ⟨es, ha⟩ := runAction_own h a
    replace ha := ha.mono (qs := writable (a :: rest)) fun q ⟨level, hl⟩ => ⟨level, by simp at hl; simp [hl]⟩
    rw [runActions_cons]
    cases hr : runAction a s with
    | ended t =>
      rw [hr] at ha
      exact ⟨es, ha⟩
    | going t =>
      rw [hr] at ha
      obtain ⟨-, _, _, sp, -, -⟩ := runAction_spec a s
      obtain ⟨fs, hb⟩ := ih (s := t) ha.soleOwner
      exact ⟨es ++ fs, ha.append (sp.going t hr).1 (hb.mono fun q ⟨level, hl⟩ => ⟨level, by simp [hl]⟩)⟩

end Sys2Proof.Machine
end

