-- ==== Sys2Proof/Laws/Exec.lean ====
section
/-! SUPPORT. What the instructions do, said once: every instruction but INIT and BEGIN is a field write and then a list of
actions; BEGIN is three such phases. -/

namespace Sys2Proof.Machine

/-- The field write and the actions of an instruction other than INIT and BEGIN. -/
def plan (s : State) : Instr → State × List Action
  | .init _ _ => (s, [])
  | .begin _ _ _ => (s, [])
  | .clear => (s, s.command 0x01 ++ [.wait s.timing.long])
  | .home => (s, s.command 0x02 ++ [.wait s.timing.long])
  | .setCursor col row =>
    match rowOffset (clampRow s.lineCount row) with
    | some offset => (s, s.command (ddramByte col offset))
    | none => (s, [])
  | .displayOff => (s.setDisplayControlFlags (clearFlag s.displayControlFlags flagDisplayOn),
      s.command (displayControlByte (clearFlag s.displayControlFlags flagDisplayOn)))
  | .displayOn => (s.setDisplayControlFlags (mergeFlag s.displayControlFlags flagDisplayOn),
      s.command (displayControlByte (mergeFlag s.displayControlFlags flagDisplayOn)))
  | .cursorOff => (s.setDisplayControlFlags (clearFlag s.displayControlFlags flagCursorOn),
      s.command (displayControlByte (clearFlag s.displayControlFlags flagCursorOn)))
  | .cursorOn => (s.setDisplayControlFlags (mergeFlag s.displayControlFlags flagCursorOn),
      s.command (displayControlByte (mergeFlag s.displayControlFlags flagCursorOn)))
  | .blinkOff => (s.setDisplayControlFlags (clearFlag s.displayControlFlags flagBlinkOn),
      s.command (displayControlByte (clearFlag s.displayControlFlags flagBlinkOn)))
  | .blinkOn => (s.setDisplayControlFlags (mergeFlag s.displayControlFlags flagBlinkOn),
      s.command (displayControlByte (mergeFlag s.displayControlFlags flagBlinkOn)))
  | .scrollLeft => (s, s.command (scrollByte false))
  | .scrollRight => (s, s.command (scrollByte true))
  | .leftToRight => (s.setEntryModeFlags (mergeFlag s.entryModeFlags flagEntryLeft),
      s.command (entryModeByte (mergeFlag s.entryModeFlags flagEntryLeft)))
  | .rightToLeft => (s.setEntryModeFlags (clearFlag s.entryModeFlags flagEntryLeft),
      s.command (entryModeByte (clearFlag s.entryModeFlags flagEntryLeft)))
  | .autoscrollOn => (s.setEntryModeFlags (mergeFlag s.entryModeFlags flagShiftIncrement),
      s.command (entryModeByte (mergeFlag s.entryModeFlags flagShiftIncrement)))
  | .autoscrollOff => (s.setEntryModeFlags (clearFlag s.entryModeFlags flagShiftIncrement),
      s.command (entryModeByte (clearFlag s.entryModeFlags flagShiftIncrement)))
  | .writeChar b => (s, s.send b true)
  | .writeString text => (s, s.dataBytes text)
  | .createChar slot pattern => (s, s.command (cgramByte slot) ++ s.dataBytes pattern.bytes)
  | .setBacklight on => (s, [.drive (some 7) on])
  | .clearDisplay => (s, s.command 0x01)
  | .returnHome unused => (s, s.command (0x02 ||| unused.setWidth 8))
  | .entryModeSet left shift =>
    (s, s.command (entryModeByte (field left flagEntryLeft ||| field shift flagShiftIncrement)))
  | .displayControl display cursor blink => (s, s.command (displayControlByte
      (field display flagDisplayOn ||| field cursor flagCursorOn ||| field blink flagBlinkOn)))
  | .cursorShift move right unused =>
    (s, s.command (0x10 ||| field move 0x08 ||| field right 0x04 ||| unused.setWidth 8))
  | .functionSet bus8 twoLine tallFont unused => (s, s.command (functionSetByte
      (field bus8 flagBus8 ||| field twoLine flagTwoLine ||| field tallFont flagTallFont ||| unused.setWidth 8)))
  | .setCgramAddress slot unused => (s, s.command (cgramByte (slot.setWidth 8) ||| unused.setWidth 8))
  | .setDdramAddress address => (s, s.command (0x80 ||| address.setWidth 8))

theorem inReady_ready {s : State} (h : s.fsm = .ready) (run : State → Outcome) : inReady s run = run (accept s) := by
  simp [inReady, h]

theorem inRoleAssigned_roleAssigned {s : State} (h : s.fsm = .roleAssigned) (run : State → Outcome) :
    inRoleAssigned s run = run (accept s) := by
  simp [inRoleAssigned, h]

theorem inUnconfigured_unconfigured {s : State} (h : s.fsm = .unconfigured) (run : State → Outcome) :
    inUnconfigured s run = run (accept s) := by
  simp [inUnconfigured, h]

theorem onceConfigured_configured {s : State} (h : s.fsm ≠ .unconfigured) (run : State → Outcome) :
    onceConfigured s run = run (accept s) := by
  cases hf : s.fsm <;> simp_all [onceConfigured]

theorem inReady_next {s t : State} {run : State → Outcome} (h : inReady s run = .next t) : s.fsm = .ready := by
  cases hf : s.fsm <;> simp_all [inReady]

theorem inRoleAssigned_next {s t : State} {run : State → Outcome} (h : inRoleAssigned s run = .next t) :
    s.fsm = .roleAssigned := by
  cases hf : s.fsm <;> simp_all [inRoleAssigned]

theorem inUnconfigured_next {s t : State} {run : State → Outcome} (h : inUnconfigured s run = .next t) :
    s.fsm = .unconfigured := by
  cases hf : s.fsm <;> simp_all [inUnconfigured]

theorem onceConfigured_next {s t : State} {run : State → Outcome} (h : onceConfigured s run = .next t) :
    s.fsm ≠ .unconfigured := by
  cases hf : s.fsm <;> simp_all [onceConfigured]

/-- An instruction that reaches a next state is defined in the lifecycle state it was presented in. -/
theorem exec_next_admitted {i : Instr} {s t : State} (h : exec i s = .next t) : admittedIn i s.fsm = true := by
  cases i with
  | init _ _ =>
    simp only [exec, execInit] at h
    simp [admittedIn, inUnconfigured_next h]
  | begin _ _ _ =>
    simp only [exec, execBegin] at h
    simp [admittedIn, inRoleAssigned_next h]
  | clearDisplay | returnHome _ | entryModeSet _ _ | displayControl _ _ _ | cursorShift _ _ _ | functionSet _ _ _ _
  | setCgramAddress _ _ | setDdramAddress _ =>
    simp only [exec, execClearDisplay, execReturnHome, execEntryModeSet, execDisplayControl, execCursorShift,
      execFunctionSet, execSetCgramAddress, execSetDdramAddress, deliver] at h
    simp [admittedIn, onceConfigured_next h]
  | _ =>
    simp only [exec, execClear, execHome, execSetCursor, execScrollLeft, execScrollRight, execDisplayOn, execDisplayOff,
      execCursorOn, execCursorOff, execBlinkOn, execBlinkOff, execLeftToRight, execRightToLeft, execAutoscrollOn,
      execAutoscrollOff, execWriteChar, execWriteString, execCreateChar, execSetBacklight] at h
    simp [admittedIn, inReady_next h]

/-- SETCURSOR whose row has no entry in the table after the clamp. -/
def rowless (s : State) : Instr → Prop
  | .setCursor _ row => rowOffset (clampRow s.lineCount row) = none
  | _ => False

/-- BEGIN. -/
theorem exec_begin {s : State} (h : s.fsm = .roleAssigned) (cols lines : Byte) (cell : Cell) :
    exec (.begin cols lines cell) s = finish (.okFlag true) (bringUp lines cell (accept s)) := by
  simp only [exec, execBegin]
  rw [inRoleAssigned_roleAssigned h]

/-- Every other instruction, where it is defined, runs its plan. -/
theorem exec_plan (i : Instr) (s : State) (h : admittedIn i s.fsm = true) (hi : ∀ b p, i ≠ .init b p)
    (hb : ∀ c l ce, i ≠ .begin c l ce) (hr : ¬ rowless s i) :
    exec i s = finish .ok (runActions (plan (accept s) i).2 (plan (accept s) i).1) := by
  cases i with
  | init b p => exact (hi b p rfl).elim
  | begin c l ce => exact (hb c l ce rfl).elim
  | setCursor col row =>
    simp only [rowless] at hr
    simp only [exec, execSetCursor, plan]
    rw [inReady_ready (by simpa [admittedIn] using h)]
    have hl : (accept s).lineCount = s.lineCount := rfl
    simp only [hl]
    cases ho : rowOffset (clampRow s.lineCount row) with
    | none => exact (hr ho).elim
    | some offset => rfl
  | setBacklight on =>
    simp only [exec, execSetBacklight, plan]
    rw [inReady_ready (by simpa [admittedIn] using h), readModifyWrite_eq]
  | clearDisplay | returnHome _ | entryModeSet _ _ | displayControl _ _ _ | cursorShift _ _ _ | functionSet _ _ _ _
  | setCgramAddress _ _ | setDdramAddress _ =>
    simp only [exec, execClearDisplay, execReturnHome, execEntryModeSet, execDisplayControl, execCursorShift,
      execFunctionSet, execSetCgramAddress, execSetDdramAddress, plan, deliver]
    rw [onceConfigured_configured (by simpa [admittedIn] using h)]
    rfl
  | _ =>
    simp only [exec, execClear, execHome, execScrollLeft, execScrollRight, execDisplayOn, execDisplayOff, execCursorOn,
      execCursorOff, execBlinkOn, execBlinkOff, execLeftToRight, execRightToLeft, execAutoscrollOn, execAutoscrollOff,
      execWriteChar, execWriteString, execCreateChar, plan, resendDisplayControl, resendEntryMode]
    rw [inReady_ready (by simpa [admittedIn] using h)]
    rfl

/-- The ways an instruction reaches a next state. -/
theorem exec_next {i : Instr} {s t : State} (h : exec i s = .next t) :
    (∃ bus8 pins, i = .init bus8 pins ∧ s.fsm = .unconfigured ∧ t = { s with
        pinMap := pins, modeFlags := initMode bus8, lineCount := 1, fsm := .roleAssigned, status := some .ok })
    ∨ (∃ cols lines cell, i = .begin cols lines cell ∧ s.fsm = .roleAssigned
        ∧ finish (.okFlag true) (bringUp lines cell (accept s)) = .next t)
    ∨ ((∀ b p, i ≠ .init b p) ∧ (∀ c l ce, i ≠ .begin c l ce) ∧ ¬ rowless s i ∧ admittedIn i s.fsm = true
        ∧ finish .ok (runActions (plan (accept s) i).2 (plan (accept s) i).1) = .next t) := by
  have ha := exec_next_admitted h
  by_cases hi : ∃ b p, i = .init b p
  · obtain ⟨b, p, rfl⟩ := hi
    have hf : s.fsm = .unconfigured := by simpa [admittedIn] using ha
    simp only [exec, execInit] at h
    rw [inUnconfigured_unconfigured hf] at h
    cases h
    exact .inl ⟨b, p, rfl, hf, rfl⟩
  · by_cases hb : ∃ c l ce, i = .begin c l ce
    · obtain ⟨c, l, ce, rfl⟩ := hb
      have hf : s.fsm = .roleAssigned := by simpa [admittedIn] using ha
      rw [exec_begin hf] at h
      exact .inr (.inl ⟨c, l, ce, rfl, hf, h⟩)
    · have hi' : ∀ b p, i ≠ .init b p := fun b p hh => hi ⟨b, p, hh⟩
      have hb' : ∀ c l ce, i ≠ .begin c l ce := fun c l ce hh => hb ⟨c, l, ce, hh⟩
      by_cases hr : rowless s i
      · cases i with
        | setCursor col row =>
          simp only [rowless] at hr
          have hl : (accept s).lineCount = s.lineCount := rfl
          simp only [exec, execSetCursor] at h
          rw [inReady_ready (by simpa [admittedIn] using ha)] at h
          simp only [hl, hr] at h
          cases h
        | _ => exact hr.elim
      · rw [exec_plan i s ha hi' hb' hr] at h
        exact .inr (.inr ⟨hi', hb', hr, ha, h⟩)

/-- What a finished progress answers. -/
theorem finish_next {st : Status} {p : Progress} {t : State} (h : finish st p = .next t) :
    (∃ u, p = .going u ∧ t = u.setStatus (some st)) ∨ p = .ended t := by
  cases p with
  | going u => cases h; exact .inl ⟨u, rfl, rfl⟩
  | ended u => cases h; exact .inr rfl

@[simp] theorem finish_going (st : Status) (s : State) : finish st (.going s) = .next (s.setStatus (some st)) := rfl
@[simp] theorem finish_ended (st : Status) (s : State) : finish st (.ended s) = .next s := rfl

/-! ### BEGIN's three phases -/

/-- The second phase of BEGIN: display-control, clear-display, the long wait. -/
def displayPhase (s : State) : List Action := s.command 0x0C ++ s.command 0x01 ++ [.wait s.timing.long]

theorem bringUp_eq (lines : Byte) (cell : Cell) (s : State) :
    bringUp lines cell s =
      (runActions (wakeUp (storeGeometry lines cell s)) (storeGeometry lines cell s)).andThen fun s =>
      (runActions (displayPhase (s.setDisplayControlFlags 0x04)) (s.setDisplayControlFlags 0x04)).andThen fun s =>
      (runActions ((s.setEntryModeFlags 0x02).command 0x06) (s.setEntryModeFlags 0x02)).andThen fun s =>
      .going (s.setFsm .ready) := by
  have h1 : displayControlByte 0x04 = 0x0C := by decide
  have h2 : entryModeByte 0x02 = 0x06 := by decide
  simp only [bringUp, displayPhase, State.setDisplayControlFlags_displayControlFlags,
    State.setEntryModeFlags_entryModeFlags, h1, h2]

/-- BEGIN is cut short in one of its phases, or runs to its end. -/
theorem bringUp_cases (lines : Byte) (cell : Cell) (s : State) :
    let g := storeGeometry lines cell s
    (∃ t, runActions (wakeUp g) g = .ended t ∧ bringUp lines cell s = .ended t)
    ∨ ∃ u, runActions (wakeUp g) g = .going u ∧
      let d := u.setDisplayControlFlags 0x04
      ((∃ t, runActions (displayPhase d) d = .ended t ∧ bringUp lines cell s = .ended t)
      ∨ ∃ v, runActions (displayPhase d) d = .going v ∧
        let e := v.setEntryModeFlags 0x02
        ((∃ t, runActions (e.command 0x06) e = .ended t ∧ bringUp lines cell s = .ended t)
        ∨ ∃ w, runActions (e.command 0x06) e = .going w ∧ bringUp lines cell s = .going (w.setFsm .ready))) := by
  intro g
  rw [bringUp_eq]
  cases h1 : runActions (wakeUp g) g with
  | ended t => exact .inl ⟨t, rfl, rfl⟩
  | going u =>
    refine .inr ⟨u, rfl, ?_⟩
    simp only [Progress.andThen_going]
    cases h2 : runActions (displayPhase (u.setDisplayControlFlags 0x04)) (u.setDisplayControlFlags 0x04) with
    | ended t => exact .inl ⟨t, rfl, rfl⟩
    | going v =>
      refine .inr ⟨v, rfl, ?_⟩
      simp only [Progress.andThen_going]
      cases h3 : runActions ((v.setEntryModeFlags 0x02).command 0x06) (v.setEntryModeFlags 0x02) with
      | ended t => exact .inl ⟨t, rfl, rfl⟩
      | going w => exact .inr ⟨w, rfl, rfl⟩

/-- The bytes a completed BEGIN sends. -/
def bringUpBytes (g : State) : List Sent :=
  sentOf (wakeUp g) ++ [{ byte := 0x0C, isData := false }, { byte := 0x01, isData := false },
    { byte := 0x06, isData := false }]

@[simp] theorem sentOf_write4Bits (pins : PinMap) (t : Timing) (n : BitVec 4) : sentOf (write4Bits pins t n) = [] := rfl
@[simp] theorem sentOf_write8Bits (pins : PinMap) (t : Timing) (b : Byte) : sentOf (write8Bits pins t b) = [] := rfl

@[simp] theorem sentOf_send (pins : PinMap) (t : Timing) (bus8 : Bool) (b : Byte) (isData : Bool) :
    sentOf (send pins t bus8 b isData) = [{ byte := b, isData := isData }] := by
  cases bus8 <;> rfl

@[simp] theorem sentOf_command (s : State) (b : Byte) : sentOf (s.command b) = [{ byte := b, isData := false }] :=
  sentOf_send _ _ _ _ _

theorem sentOf_dataBytes (s : State) (bytes : List Byte) :
    sentOf (s.dataBytes bytes) = bytes.map fun b => { byte := b, isData := true } := by
  induction bytes with
  | nil => rfl
  | cons b bytes ih =>
    rw [State.dataBytes, List.flatMap_cons, sentOf_append]
    rw [State.dataBytes] at ih
    rw [ih, State.send, sentOf_send]
    rfl

/-- What BEGIN puts out, whatever the proxy answers. -/
theorem bringUp_spec (lines : Byte) (cell : Cell) (s : State) :
    ∃ es bs, RunSpec s es bs (bringUp lines cell s) ∧ bs <+: bringUpBytes (storeGeometry lines cell s)
      ∧ ∀ t, bringUp lines cell s = .going t → bs = bringUpBytes (storeGeometry lines cell s) := by
  have hd : ∀ d : State, sentOf (displayPhase d) = [{ byte := 0x0C, isData := false }, { byte := 0x01, isData := false }] := by
    intro d
    simp [displayPhase, sentOf_append, sentOf, actionSent]
  obtain ⟨-, es1, bs1, sp1, b1, c1⟩ := runActions_spec (wakeUp (storeGeometry lines cell s)) (storeGeometry lines cell s)
  replace sp1 := RunSpec.of_same (s := s) sp1 rfl rfl rfl rfl rfl
  rcases bringUp_cases lines cell s with ⟨t, h1, hb⟩ | ⟨u, h1, h⟩
  · rw [hb]
    rw [h1] at sp1
    exact ⟨es1, bs1, sp1, c1.trans (List.prefix_append _ _), by rintro t ⟨⟩⟩
  · rw [h1] at sp1
    have e1 := b1 u h1
    obtain ⟨-, es2, bs2, sp2, b2, c2⟩ :=
      runActions_spec (displayPhase (u.setDisplayControlFlags 0x04)) (u.setDisplayControlFlags 0x04)
    replace sp2 := sp1.append (RunSpec.of_same (s := u) sp2 rfl rfl rfl rfl rfl)
    rw [hd] at b2 c2
    rcases h with ⟨t, h2, hb⟩ | ⟨v, h2, h⟩
    · rw [hb]
      rw [h2] at sp2
      refine ⟨_, _, sp2, ?_, by rintro t ⟨⟩⟩
      rw [e1]
      exact (List.prefix_append_right_inj _).mpr (c2.trans ⟨[{ byte := 0x06, isData := false }], rfl⟩)
    · rw [h2] at sp2
      have e2 := b2 v h2
      obtain ⟨-, es3, bs3, sp3, b3, c3⟩ :=
        runActions_spec ((v.setEntryModeFlags 0x02).command 0x06) (v.setEntryModeFlags 0x02)
      replace sp3 := sp2.append (RunSpec.of_same (s := v) sp3 rfl rfl rfl rfl rfl)
      rw [sentOf_command] at b3 c3
      rcases h with ⟨t, h3, hb⟩ | ⟨w, h3, hb⟩
      · rw [hb]
        rw [h3] at sp3
        refine ⟨_, _, sp3, ?_, by rintro t ⟨⟩⟩
        rw [e1, e2, List.append_assoc]
        exact (List.prefix_append_right_inj _).mpr ((List.prefix_append_right_inj _).mpr c3)
      · rw [hb]
        rw [h3] at sp3
        have e3 := b3 w h3
        have fin : bs1 ++ bs2 ++ bs3 = bringUpBytes (storeGeometry lines cell s) := by
          rw [e1, e2, e3, List.append_assoc]; rfl
        refine ⟨es1 ++ es2 ++ es3, bs1 ++ bs2 ++ bs3, ?_, by rw [fin], fun _ _ => fin⟩
        exact {
          trace := sp3.trace
          sent := sp3.sent
          law := sp3.law
          going := by rintro t ⟨⟩; exact sp3.going w rfl
          ended := by rintro t ⟨⟩
          replies := sp3.replies }

/-! ### The positions an instruction may write -/

/-- A position that belongs to a role. -/
def onMap (m : PinMap) (q : Fin 8) : Prop := ∃ role ∈ Role.all, m.pin role = some q

/-- The actions drive no pin but those of roles. -/
def rolesOnly (m : PinMap) (as : List Action) : Prop := ∀ p level, Action.drive p level ∈ as → ∃ role, p = m.pin role

theorem rolesOnly_nil (m : PinMap) : rolesOnly m [] := by
  intro p level h
  cases h

theorem rolesOnly_append {m : PinMap} {as bs : List Action} (h : rolesOnly m as) (k : rolesOnly m bs) :
    rolesOnly m (as ++ bs) := by
  intro p level hp
  rcases List.mem_append.mp hp with hp | hp
  · exact h p level hp
  · exact k p level hp

theorem rolesOnly_wait (m : PinMap) (n : Nat) : rolesOnly m [.wait n] := by
  intro p level h
  simp at h

theorem rolesOnly_pin (m : PinMap) (role : Role) (level : Bool) : rolesOnly m [.drive (m.pin role) level] := by
  intro p l h
  simp at h
  exact ⟨role, h.1⟩

theorem rolesOnly_delivered (m : PinMap) (b : Byte) (isData : Bool) : rolesOnly m [.delivered b isData] := by
  intro p level h
  simp at h

theorem rolesOnly_pulseEnable (m : PinMap) (t : Timing) : rolesOnly m (pulseEnable m t) := by
  intro p level h
  simp only [pulseEnable, List.mem_cons, List.not_mem_nil, reduceCtorEq, or_false, false_or, Action.drive.injEq] at h
  exact ⟨.en, by rcases h with h | h | h <;> exact h.1⟩

theorem rolesOnly_write4Bits (m : PinMap) (t : Timing) (n : BitVec 4) : rolesOnly m (write4Bits m t n) :=
  rolesOnly_append (rolesOnly_append (rolesOnly_pin m .d0 _) (rolesOnly_append (rolesOnly_pin m .d1 _)
    (rolesOnly_append (rolesOnly_pin m .d2 _) (rolesOnly_pin m .d3 _)))) (rolesOnly_pulseEnable m t)

theorem rolesOnly_write8Bits (m : PinMap) (t : Timing) (b : Byte) : rolesOnly m (write8Bits m t b) :=
  rolesOnly_append (rolesOnly_append (rolesOnly_pin m .d0 _) (rolesOnly_append (rolesOnly_pin m .d1 _)
    (rolesOnly_append (rolesOnly_pin m .d2 _) (rolesOnly_append (rolesOnly_pin m .d3 _)
      (rolesOnly_append (rolesOnly_pin m .d4 _) (rolesOnly_append (rolesOnly_pin m .d5 _)
        (rolesOnly_append (rolesOnly_pin m .d6 _) (rolesOnly_pin m .d7 _)))))))) (rolesOnly_pulseEnable m t)

theorem rolesOnly_send (m : PinMap) (t : Timing) (bus8 : Bool) (b : Byte) (isData : Bool) :
    rolesOnly m (send m t bus8 b isData) := by
  refine rolesOnly_append (rolesOnly_append
    (rolesOnly_append (rolesOnly_pin m .rs _) (rolesOnly_pin m .rw _)) ?_) (rolesOnly_delivered m b isData)
  split
  · exact rolesOnly_write8Bits m t b
  · exact rolesOnly_append (rolesOnly_write4Bits m t _) (rolesOnly_write4Bits m t _)

theorem rolesOnly_command (s : State) (b : Byte) : rolesOnly s.pinMap (s.command b) := rolesOnly_send _ _ _ _ _

theorem rolesOnly_dataBytes (s : State) (bytes : List Byte) : rolesOnly s.pinMap (s.dataBytes bytes) := by
  intro p level h
  simp only [State.dataBytes, List.mem_flatMap] at h
  obtain ⟨b, -, h⟩ := h
  exact rolesOnly_send _ _ _ _ _ p level h

/-- Every instruction but SET_BACKLIGHT drives pins of roles only. -/
theorem rolesOnly_plan (s : State) (i : Instr) (hi : ∀ on, i ≠ .setBacklight on) :
    rolesOnly s.pinMap (plan s i).2 := by
  cases i <;> simp only [plan]
  all_goals first
    | exact rolesOnly_nil _
    | exact rolesOnly_command s _
    | exact rolesOnly_append (rolesOnly_command s _) (rolesOnly_wait _ _)
    | exact rolesOnly_append (rolesOnly_command s _) (rolesOnly_dataBytes s _)
    | exact rolesOnly_dataBytes s _
    | exact rolesOnly_send _ _ _ _ _
    | exact (hi _ rfl).elim
    | (split <;> first | exact rolesOnly_command s _ | exact rolesOnly_nil _)

theorem rolesOnly_wakeUp (s : State) : rolesOnly s.pinMap (wakeUp s) := by
  have w := rolesOnly_write4Bits s.pinMap s.timing
  have d := rolesOnly_wait s.pinMap
  have c := fun mode => rolesOnly_send s.pinMap s.timing true (functionSetByte mode) false
  refine rolesOnly_append (rolesOnly_append ?_ ?_) (rolesOnly_command s _)
  · exact rolesOnly_append (d s.timing.powerUp) (rolesOnly_append (rolesOnly_pin _ .rs false)
      (rolesOnly_append (rolesOnly_pin _ .en false) (rolesOnly_pin _ .rw false)))
  · have three : ∀ {as bs cs : List Action} (a b e : Nat), rolesOnly s.pinMap as → rolesOnly s.pinMap bs →
        rolesOnly s.pinMap cs →
        rolesOnly s.pinMap (as ++ [.wait a] ++ bs ++ [.wait b] ++ cs ++ [.wait e]) := fun a b e h1 h2 h3 =>
      rolesOnly_append (rolesOnly_append (rolesOnly_append (rolesOnly_append (rolesOnly_append h1 (d a)) h2) (d b)) h3)
        (d e)
    split
    · exact three _ _ _ (c _) (c _) (c _)
    · exact rolesOnly_append (three _ _ _ (w _) (w _) (w _)) (w _)

theorem rolesOnly_writable {m : PinMap} {as : List Action} (h : rolesOnly m as) (q : Fin 8) (hw : writable as q) :
    onMap m q := by
  obtain ⟨level, hw⟩ := hw
  obtain ⟨role, hr⟩ := h _ level hw
  exact ⟨role, by cases role <;> decide, hr.symm⟩

/-- BEGIN under the single-owner premise. -/
theorem bringUp_own {s : State} (h : s.soleOwner) (lines : Byte) (cell : Cell) :
    ∃ events, OwnSpec s (onMap s.pinMap) events (bringUp lines cell s) := by
  have run : ∀ (a b : State) (as : List Action), b.soleOwner → b.pinMap = s.pinMap → rolesOnly b.pinMap as →
      b.trace = a.trace → b.latch = a.latch → b.status = a.status →
      ∃ events, OwnSpec a (onMap s.pinMap) events (runActions as b)
        ∧ ∀ u, runActions as b = .going u → u.pinMap = s.pinMap ∧ u.status = a.status := by
    intro a b as ho hp hr h1 h2 h3
    obtain ⟨es, sp⟩ := runActions_own ho as
    obtain ⟨f, _, _, rs, -, -⟩ := runActions_spec as b
    refine ⟨es, (sp.mono fun q hq => hp ▸ rolesOnly_writable hr q hq).of_same h1 h2 h3, fun u hu => ?_⟩
    rw [hu] at f
    exact ⟨f.pinMap.trans hp, ((rs.going u hu).1).trans h3⟩
  obtain ⟨es, sp1, k1⟩ := run s (storeGeometry lines cell s) _ h rfl (rolesOnly_wakeUp _) rfl rfl rfl
  rcases bringUp_cases lines cell s with ⟨t, h1, hb⟩ | ⟨u, h1, hc⟩
  · exact ⟨es, by rw [hb, ← h1]; exact sp1⟩
  obtain ⟨p1, q1⟩ := k1 u h1
  rw [h1] at sp1
  obtain ⟨fs, sp2, k2⟩ := run u (u.setDisplayControlFlags 0x04) (displayPhase (u.setDisplayControlFlags 0x04))
    sp1.soleOwner p1
    (rolesOnly_append (rolesOnly_append (rolesOnly_command _ 0x0C) (rolesOnly_command _ 0x01)) (rolesOnly_wait _ _))
    rfl rfl rfl
  replace sp2 := sp1.append q1 sp2
  rcases hc with ⟨t, h2, hb⟩ | ⟨v, h2, hc⟩
  · exact ⟨_, by rw [hb, ← h2]; exact sp2⟩
  obtain ⟨p2, q2⟩ := k2 v h2
  rw [h2] at sp2
  obtain ⟨gs, sp3, -⟩ := run v (v.setEntryModeFlags 0x02) ((v.setEntryModeFlags 0x02).command 0x06)
    sp2.soleOwner p2 (rolesOnly_command _ 0x06) rfl rfl rfl
  replace sp3 := sp2.append (q2.trans q1) sp3
  rcases hc with ⟨t, h3, hb⟩ | ⟨w, h3, hb⟩
  · exact ⟨_, by rw [hb, ← h3]; exact sp3⟩
  · rw [h3] at sp3
    exact ⟨_, by rw [hb]; exact ⟨sp3.trace, sp3.soleOwner, sp3.reads, fun _ => sp3.latch (.inl ⟨w, rfl⟩), sp3.kept⟩⟩

end Sys2Proof.Machine
end

