-- ==== Sys2Proof/Laws/Observe.lean ====
section
/-! SUPPORT. What an observer of the lines sees of the pieces of a Send: the levels after an action, a pulse, a nibble or a
byte, and the strobes they make. -/

namespace Sys2Proof

theorem Role.mem_all (r : Role) : r ∈ Role.all := by cases r <;> decide

namespace Machine

/-- The strobes of a list of actions are those of its pieces. -/
theorem strobes_append (pins : PinMap) (wide : Bool) (as : List Action) (events : List Event) (L : Byte) :
    strobes pins wide L (eventsOf as L ++ events) =
      strobes pins wide L (eventsOf as L) ++ strobes pins wide (latchOf as L) events := by
  induction as generalizing L with
  | nil => simp [eventsOf, strobes, latchOf]
  | cons a rest ih =>
    cases a with
    | drive p l =>
      cases p with
      | none => simpa [eventsOf, latchOf, actionEvents, actionLatch] using ih L
      | some p =>
        simp only [eventsOf, latchOf, actionEvents, actionLatch, List.cons_append, List.nil_append, strobes]
        split <;> simp [ih]
    | wait n => simpa [eventsOf, latchOf, actionEvents, actionLatch, strobes] using ih L
    | delivered b d => simpa [eventsOf, latchOf, actionEvents, actionLatch, strobes] using ih L

/-- The strobes of a list of actions over the latch content `L`, under the contract. -/
def strobesOf (pins : PinMap) (wide : Bool) (as : List Action) (L : Byte) : List Strobe :=
  strobes pins wide L (eventsOf as L)

@[simp] theorem strobesOf_nil (pins : PinMap) (wide : Bool) (L : Byte) : strobesOf pins wide [] L = [] := rfl
@[simp] theorem strobesOf_wait (pins : PinMap) (wide : Bool) (n : Nat) (L : Byte) :
    strobesOf pins wide [.wait n] L = [] := rfl
@[simp] theorem strobesOf_delivered (pins : PinMap) (wide : Bool) (b : Byte) (isData : Bool) (L : Byte) :
    strobesOf pins wide [.delivered b isData] L = [] := rfl
@[simp] theorem latchOf_wait (n : Nat) (L : Byte) : latchOf [.wait n] L = L := rfl
@[simp] theorem latchOf_delivered (b : Byte) (isData : Bool) (L : Byte) : latchOf [.delivered b isData] L = L := rfl
@[simp] theorem actionLatch_wait (n : Nat) (L : Byte) : actionLatch (.wait n) L = L := rfl

theorem strobesOf_append (pins : PinMap) (wide : Bool) (as bs : List Action) (L : Byte) :
    strobesOf pins wide (as ++ bs) L = strobesOf pins wide as L ++ strobesOf pins wide bs (latchOf as L) := by
  unfold strobesOf
  rw [eventsOf_append, strobes_append]

theorem strobesOf_cons (pins : PinMap) (wide : Bool) (a b : Action) (rest : List Action) (L : Byte) :
    strobesOf pins wide (a :: b :: rest) L =
      strobesOf pins wide [a] L ++ strobesOf pins wide (b :: rest) (actionLatch a L) :=
  strobesOf_append pins wide [a] (b :: rest) L

/-- The levels after one SetPin on a role of a well-formed map (10_state.md R26). -/
theorem lineLevel_drive {pins : PinMap} (h : pins.WF) (r q : Role) (level : Bool) (L : Byte) :
    lineLevel pins q (actionLatch (.drive (pins.pin r) level) L) =
      if q = r then ((pins.pin r).isSome && level) else lineLevel pins q L := by
  cases hp : pins.pin r with
  | none =>
    simp only [actionLatch]
    split
    · subst q; simp [lineLevel, hp]
    · rfl
  | some p =>
    simp only [actionLatch]
    split
    · subst q
      simp only [lineLevel, hp, setBit_getLsbD_self]
      simp
    · rename_i hne
      unfold lineLevel
      cases hq : pins.pin q with
      | none => rfl
      | some p' =>
        refine setBit_getLsbD_ne _ _ _ _ ?_
        rintro rfl
        rcases h q (Role.mem_all q) r (Role.mem_all r) hne with h1 | h1
        · simp [hq] at h1
        · exact h1 (by rw [hq, hp])

/-- A SetPin on another role than Enable makes no strobe. -/
theorem strobesOf_drive {pins : PinMap} (h : pins.WF) (wide : Bool) (r : Role) (hr : r ≠ .en) (level : Bool) (L : Byte) :
    strobesOf pins wide [.drive (pins.pin r) level] L = [] := by
  have hl := lineLevel_drive h r .en level L
  rw [if_neg (fun e => hr e.symm)] at hl
  cases hp : pins.pin r with
  | none => rfl
  | some p =>
    rw [hp] at hl
    simp only [actionLatch] at hl
    simp only [strobesOf, eventsOf, actionEvents, List.append_nil, strobes]
    rw [if_neg]
    rw [hl]
    simp

/-- Enable driven low makes no strobe. -/
theorem strobesOf_enableLow {pins : PinMap} (h : pins.WF) (wide : Bool) (L : Byte) :
    strobesOf pins wide [.drive (pins.pin .en) false] L = [] := by
  have hl := lineLevel_drive h .en .en false L
  cases hp : pins.pin .en with
  | none => rfl
  | some p =>
    rw [hp] at hl
    simp only [actionLatch] at hl
    simp only [strobesOf, eventsOf, actionEvents, List.append_nil, strobes]
    rw [if_neg]
    rw [hl]
    simp

/-- Enable driven high from low makes one strobe. -/
theorem strobesOf_enableHigh {pins : PinMap} (h : pins.WF) (he : pins.en ≠ none) (wide : Bool) (L : Byte)
    (hL : lineLevel pins .en L = false) :
    strobesOf pins wide [.drive (pins.pin .en) true] L =
      [shown pins wide (actionLatch (.drive (pins.pin .en) true) L)] := by
  have hl := lineLevel_drive h .en .en true L
  cases hp : pins.pin .en with
  | none => exact (he hp).elim
  | some p =>
    rw [hp] at hl
    simp only [actionLatch] at hl
    simp only [strobesOf, eventsOf, actionEvents, List.append_nil, strobes, actionLatch]
    rw [if_pos]
    rw [hl]
    simp [hL]

/-- What the lines show depends on RS and the data lines only. -/
theorem shown_congr {pins : PinMap} (wide : Bool) {L M : Byte}
    (h : ∀ r, r ≠ .en → lineLevel pins r L = lineLevel pins r M) : shown pins wide L = shown pins wide M := by
  simp only [shown, dataLines]
  rw [h .rs (by decide), h .d0 (by decide), h .d1 (by decide), h .d2 (by decide), h .d3 (by decide), h .d4 (by decide),
    h .d5 (by decide), h .d6 (by decide), h .d7 (by decide)]

/-- The levels after a pulse: Enable low, every other line as before. -/
theorem lineLevel_pulseEnable {pins : PinMap} (h : pins.WF) (t : Timing) (q : Role) (L : Byte) :
    lineLevel pins q (latchOf (pulseEnable pins t) L) = if q = .en then false else lineLevel pins q L := by
  simp only [pulseEnable, latchOf, actionLatch_wait]
  rw [lineLevel_drive h]
  split
  · simp
  · rename_i hq
    rw [lineLevel_drive h, if_neg hq, lineLevel_drive h, if_neg hq]

/-- A pulse makes exactly one strobe. -/
theorem strobesOf_pulseEnable {pins : PinMap} (h : pins.WF) (he : pins.en ≠ none) (wide : Bool) (t : Timing) (L : Byte) :
    strobesOf pins wide (pulseEnable pins t) L = [shown pins wide L] := by
  unfold pulseEnable
  rw [strobesOf_cons, strobesOf_enableLow h, strobesOf_cons, strobesOf_cons, strobesOf_enableHigh h he, strobesOf_cons,
    strobesOf_cons, strobesOf_enableLow h]
  · simp only [strobesOf_wait, List.nil_append, actionLatch_wait, List.append_nil, List.cons.injEq, and_true]
    refine shown_congr wide fun r hr => ?_
    rw [lineLevel_drive h, if_neg hr, lineLevel_drive h, if_neg hr]
  · simp only [actionLatch_wait]
    rw [lineLevel_drive h]
    simp

/-- The levels after Write4Bits. -/
theorem lineLevel_write4Bits {pins : PinMap} (h : pins.WF) (hm : pins.mapped4) (t : Timing) (n : BitVec 4) (q : Role)
    (L : Byte) :
    lineLevel pins q (latchOf (write4Bits pins t n) L) =
      match q with
      | .en => false
      | .d0 => n.getLsbD 0
      | .d1 => n.getLsbD 1
      | .d2 => n.getLsbD 2
      | .d3 => n.getLsbD 3
      | q => lineLevel pins q L := by
  have hi : ∀ r ∈ [Role.rs, .en, .d0, .d1, .d2, .d3], (pins.pin r).isSome = true :=
    fun r hr => Option.isSome_iff_ne_none.mpr (hm r hr)
  rw [write4Bits, latchOf_append, lineLevel_pulseEnable h]
  simp only [latchOf]
  rw [lineLevel_drive h, lineLevel_drive h, lineLevel_drive h, lineLevel_drive h]
  cases q <;> simp [hi]

/-- Write4Bits makes one strobe, of the nibble, with RS as it stands. -/
theorem strobesOf_write4Bits {pins : PinMap} (h : pins.WF) (hm : pins.mapped4) (t : Timing) (n : BitVec 4) (L : Byte) :
    strobesOf pins false (write4Bits pins t n) L = [{ select := lineLevel pins .rs L, data := n.setWidth 8 }] := by
  have hw := lineLevel_write4Bits h hm t n
  have hn : ∀ n : BitVec 4, 0#4 ++ BitVec.ofBool (n.getLsbD 3) ++ BitVec.ofBool (n.getLsbD 2)
      ++ BitVec.ofBool (n.getLsbD 1) ++ BitVec.ofBool (n.getLsbD 0) = n.setWidth 8 := by decide
  simp only [write4Bits, latchOf_append, lineLevel_pulseEnable h] at hw
  rw [write4Bits, strobesOf_append, strobesOf_cons, strobesOf_cons, strobesOf_cons,
    strobesOf_drive h _ .d0 (by decide), strobesOf_drive h _ .d1 (by decide), strobesOf_drive h _ .d2 (by decide),
    strobesOf_drive h _ .d3 (by decide), strobesOf_pulseEnable h (hm .en (by simp))]
  have k := fun q (hq : q ≠ Role.en) => hw q L |>.symm.trans (if_neg hq) |>.symm
  simp only [shown, dataLines, k .rs (by decide), k .d0 (by decide), k .d1 (by decide), k .d2 (by decide),
    k .d3 (by decide), hn]
  rfl

/-- The levels after Write8Bits. -/
theorem lineLevel_write8Bits {pins : PinMap} (h : pins.WF) (t : Timing) (b : Byte) (q : Role) (L : Byte) :
    lineLevel pins q (latchOf (write8Bits pins t b) L) =
      match q with
      | .en => false
      | .rs => lineLevel pins .rs L
      | .rw => lineLevel pins .rw L
      | q => (pins.pin q).isSome && roleBit b q := by
  rw [write8Bits, latchOf_append, lineLevel_pulseEnable h]
  simp only [latchOf]
  rw [lineLevel_drive h, lineLevel_drive h, lineLevel_drive h, lineLevel_drive h, lineLevel_drive h, lineLevel_drive h,
    lineLevel_drive h, lineLevel_drive h]
  cases q <;> simp [roleBit]

/-- Write8Bits makes one strobe, of the bits its mapped data roles carry, with RS as it stands. -/
theorem strobesOf_write8Bits {pins : PinMap} (h : pins.WF) (he : pins.en ≠ none) (t : Timing) (b L : Byte) :
    strobesOf pins true (write8Bits pins t b) L =
      [{ select := lineLevel pins .rs L, data := presented pins true b }] := by
  have hw := lineLevel_write8Bits h t b
  simp only [write8Bits, latchOf_append, lineLevel_pulseEnable h] at hw
  rw [write8Bits, strobesOf_append, strobesOf_cons, strobesOf_cons, strobesOf_cons, strobesOf_cons, strobesOf_cons,
    strobesOf_cons, strobesOf_cons, strobesOf_drive h _ .d0 (by decide), strobesOf_drive h _ .d1 (by decide),
    strobesOf_drive h _ .d2 (by decide), strobesOf_drive h _ .d3 (by decide), strobesOf_drive h _ .d4 (by decide),
    strobesOf_drive h _ .d5 (by decide), strobesOf_drive h _ .d6 (by decide), strobesOf_drive h _ .d7 (by decide),
    strobesOf_pulseEnable h he]
  have k := fun q (hq : q ≠ Role.en) => hw q L |>.symm.trans (if_neg hq) |>.symm
  simp only [shown, presented, dataLines, k .rs (by decide), k .d0 (by decide), k .d1 (by decide), k .d2 (by decide),
    k .d3 (by decide), k .d4 (by decide), k .d5 (by decide), k .d6 (by decide), k .d7 (by decide)]
  rfl

end Machine

end Sys2Proof
end

