-- ==== Sys2Proof/Laws/PerInstr.lean ====
section
/-! SUPPORT. Per instruction: the encoding begins with a byte of the instruction's row of spec/opcode_table.json. -/

namespace Sys2Proof.Laws.TableRow

/-- The row's match and mask in spec/opcode_table.json. -/
def tableRow : Instr → Byte × Byte
  | .init _ _ => (0x00, 0xFF)
  | .begin _ _ _ => (0x01, 0xFF)
  | .clear => (0x02, 0xFF)
  | .home => (0x03, 0xFF)
  | .setCursor _ _ => (0x04, 0xFF)
  | .displayOff => (0x05, 0xFF)
  | .displayOn => (0x06, 0xFF)
  | .cursorOff => (0x07, 0xFF)
  | .cursorOn => (0x08, 0xFF)
  | .blinkOff => (0x09, 0xFF)
  | .blinkOn => (0x0A, 0xFF)
  | .scrollLeft => (0x0B, 0xFF)
  | .scrollRight => (0x0C, 0xFF)
  | .leftToRight => (0x0D, 0xFF)
  | .rightToLeft => (0x0E, 0xFF)
  | .autoscrollOn => (0x0F, 0xFF)
  | .autoscrollOff => (0x10, 0xFF)
  | .writeChar _ => (0x11, 0xFF)
  | .writeString _ => (0x12, 0xFF)
  | .createChar _ _ => (0x13, 0xFF)
  | .setBacklight _ => (0x14, 0xFF)
  | .clearDisplay => (0x01, 0xFF)
  | .returnHome _ => (0x02, 0xFE)
  | .entryModeSet _ _ => (0x04, 0xFC)
  | .displayControl _ _ _ => (0x08, 0xF8)
  | .cursorShift _ _ _ => (0x10, 0xF0)
  | .functionSet _ _ _ _ => (0x20, 0xE0)
  | .setCgramAddress _ _ => (0x40, 0xC0)
  | .setDdramAddress _ => (0x80, 0x80)

/-- The first byte of an instruction's encoding is one of its row (30_encoding.md R82, R84, R94). -/
def Statement (i : Instr) : Prop := ∃ b rest, encode i = b :: rest ∧ b &&& (tableRow i).2 = (tableRow i).1

theorem init (bus8 : Bool) (pins : PinMap) : Statement (.init bus8 pins) := ⟨_, _, rfl, by simp [tableRow]⟩
theorem begin (cols lines : Byte) (cell : Cell) :
    Statement (.begin cols lines cell) := ⟨_, _, rfl, by simp [tableRow]⟩
theorem clear : Statement .clear := ⟨_, _, rfl, by simp [tableRow]⟩
theorem home : Statement .home := ⟨_, _, rfl, by simp [tableRow]⟩
theorem setCursor (col row : Byte) : Statement (.setCursor col row) := ⟨_, _, rfl, by simp [tableRow]⟩
theorem displayOff : Statement .displayOff := ⟨_, _, rfl, by simp [tableRow]⟩
theorem displayOn : Statement .displayOn := ⟨_, _, rfl, by simp [tableRow]⟩
theorem cursorOff : Statement .cursorOff := ⟨_, _, rfl, by simp [tableRow]⟩
theorem cursorOn : Statement .cursorOn := ⟨_, _, rfl, by simp [tableRow]⟩
theorem blinkOff : Statement .blinkOff := ⟨_, _, rfl, by simp [tableRow]⟩
theorem blinkOn : Statement .blinkOn := ⟨_, _, rfl, by simp [tableRow]⟩
theorem scrollLeft : Statement .scrollLeft := ⟨_, _, rfl, by simp [tableRow]⟩
theorem scrollRight : Statement .scrollRight := ⟨_, _, rfl, by simp [tableRow]⟩
theorem leftToRight : Statement .leftToRight := ⟨_, _, rfl, by simp [tableRow]⟩
theorem rightToLeft : Statement .rightToLeft := ⟨_, _, rfl, by simp [tableRow]⟩
theorem autoscrollOn : Statement .autoscrollOn := ⟨_, _, rfl, by simp [tableRow]⟩
theorem autoscrollOff : Statement .autoscrollOff := ⟨_, _, rfl, by simp [tableRow]⟩
theorem writeChar (b : Byte) : Statement (.writeChar b) := ⟨_, _, rfl, by simp [tableRow]⟩
theorem writeString (text : List Byte) : Statement (.writeString text) := ⟨_, _, rfl, by simp [tableRow]⟩
theorem createChar (slot : Byte) (pattern : Glyph) :
    Statement (.createChar slot pattern) := ⟨_, _, rfl, by simp [tableRow]⟩
theorem setBacklight (on : Bool) : Statement (.setBacklight on) := ⟨_, _, rfl, by simp [tableRow]⟩
theorem clearDisplay : Statement .clearDisplay := ⟨_, _, rfl, by simp [tableRow]⟩
theorem returnHome (unused : BitVec 1) : Statement (.returnHome unused) :=
  ⟨_, _, rfl, by revert unused; decide⟩
theorem entryModeSet (left shift : Bool) : Statement (.entryModeSet left shift) :=
  ⟨_, _, rfl, by revert left shift; decide⟩
theorem displayControl (display cursor blink : Bool) : Statement (.displayControl display cursor blink) :=
  ⟨_, _, rfl, by revert display cursor blink; decide⟩
theorem cursorShift (move right : Bool) (unused : BitVec 2) : Statement (.cursorShift move right unused) :=
  ⟨_, _, rfl, by revert move right unused; decide⟩
theorem functionSet (bus8 twoLine tallFont : Bool) (unused : BitVec 2) :
    Statement (.functionSet bus8 twoLine tallFont unused) :=
  ⟨_, _, rfl, by revert bus8 twoLine tallFont unused; decide⟩
theorem setCgramAddress (slot : BitVec 3) (unused : BitVec 3) : Statement (.setCgramAddress slot unused) :=
  ⟨_, _, rfl, by revert slot unused; decide⟩
theorem setDdramAddress (address : BitVec 7) : Statement (.setDdramAddress address) :=
  ⟨_, _, rfl, by revert address; decide⟩

end Sys2Proof.Laws.TableRow
end

