-- ==== Sys2Proof/Tests/Slice0.lean ====
section
/-! SUPPORT. The model's own tests: the checks of WellFormed, words written out from the encodings of 30_encoding.md, single
steps against the vectors of 95_test_vectors.md, and a witness for the hypotheses of every statement. -/

namespace Sys2Proof.Tests

open Sys2Proof Sys2Proof.Machine

/-! ### Maps and states of 95_test_vectors.md -/

/-- Pin map A: 4-bit, RW unused. -/
def mapA : PinMap :=
  { rs := some 1, rw := none, en := some 2, d0 := some 3, d1 := some 4, d2 := some 5, d3 := some 6, d4 := none,
    d5 := none, d6 := none, d7 := none }

/-- Pin map B: 4-bit, RW on position 1. -/
def mapB : PinMap := { mapA with rs := some 0, rw := some 1 }

/-- Pin map C: 8-bit, Data6 and Data7 unused. -/
def mapC : PinMap :=
  { rs := some 0, rw := none, en := some 1, d0 := some 2, d1 := some 3, d2 := some 4, d3 := some 5, d4 := some 6,
    d5 := some 7, d6 := none, d7 := none }

/-- Pin map E: RS on the backlight's position. -/
def mapE : PinMap := { mapA with rs := some 7 }

/-- Pin map N: every role unused. -/
def mapN : PinMap := { mapA with rs := none, en := none, d0 := none, d1 := none, d2 := none, d3 := none }

/-- The glyph of vector V50. -/
def heart : Glyph :=
  { p0 := 0x00, p1 := 0x0A, p2 := 0x1F, p3 := 0x1F, p4 := 0x0E, p5 := 0x04, p6 := 0x00, p7 := 0x00 }

/-- After INIT with map A, from L0 = 0x00. -/
def assigned : State := { State.resetWith 0x00 with fsm := .roleAssigned, pinMap := mapA, lineCount := 1 }

/-- After INIT with map C in 8-bit mode. -/
def assigned8 : State := { assigned with pinMap := mapC, modeFlags := 0x10 }

/-- State S_A. -/
def sA : State :=
  { assigned with
    fsm := .ready, modeFlags := 0x08, displayControlFlags := 0x04, entryModeFlags := 0x02, lineCount := 2,
    latch := 0x30 }

/-- A state with the first `n` coming transactions answered and the one after them failing. -/
def State.failAt (s : State) (n : Nat) (after : Byte) : State :=
  s.setReplies (List.replicate n .ok ++ [.fail after 7])

/-- The next state of an outcome. -/
def nextOf : Outcome → Option State
  | .next s => some s
  | .fault _ => none
  | .refused _ => none

/-- The refusal of an outcome. -/
def refusalOf : Outcome → Option Refusal
  | .next _ => none
  | .fault _ => none
  | .refused r => some r

/-- The latch and the trace after an instruction. -/
def latchTrace (i : Instr) (s : State) : Option (Byte × List Event) :=
  (nextOf (exec i s)).map fun t => (t.latch, t.trace)

/-- What a test looks at after an instruction. -/
structure Summary where
  latch : Byte
  modeFlags : Byte
  displayControlFlags : Byte
  entryModeFlags : Byte
  status : Option Status
  sent : List Sent
  deriving DecidableEq, Repr

/-- The summary of an instruction's next state. -/
def summary (i : Instr) (s : State) : Option Summary :=
  (nextOf (exec i s)).map fun t =>
    { latch := t.latch, modeFlags := t.modeFlags, displayControlFlags := t.displayControlFlags,
      entryModeFlags := t.entryModeFlags, status := t.status, sent := t.sent }

/-- One instruction byte sent as a command by a block in `mode_flags` 0x08, and `Ok` returned. -/
def sentCommand (latch display entry b : Byte) : Option Summary :=
  some { latch := latch, modeFlags := 0x08, displayControlFlags := display, entryModeFlags := entry,
         status := some .ok, sent := [{ byte := b, isData := false }] }

/-! ### WellFormed (30_encoding.md R92 (d), R86) -/

theorem test_wf_text_without_terminator : (Instr.writeString [0x48, 0x69]).wellFormed = true := by decide
theorem test_wf_refuses_terminator_in_text : (Instr.writeString [0x48, 0x00, 0x69]).wellFormed = false := by decide
theorem test_emittable_refuses_unused_bits :
    (Instr.returnHome 1).emittable = false ∧ (Instr.cursorShift true true 1).emittable = false
      ∧ (Instr.functionSet false true false 2).emittable = false ∧ (Instr.setCgramAddress 3 5).emittable = false := by
  decide
theorem test_emittable_refuses_cursor_move : (Instr.cursorShift false true 0).emittable = false := by decide
theorem test_emittable_refuses_host_operations : Instr.clear.emittable = false := by decide

/-! ### Words written out from the encodings: host operations (30_encoding.md R81, R82) -/

theorem test_decode_init :
    decodeHost [0x00, 0x01, 0x00, 0xFF, 0x01, 0x02, 0x03, 0x04, 0x05, 0x06, 0x07, 0xFF, 0xFF]
      = .ok (.init true mapC, []) := by decide
theorem test_decode_begin : decodeHost [0x01, 0x10, 0x02, 0x00, 0x04] = .ok (.begin 16 2 .small, [0x04]) := by decide
theorem test_decode_without_operands :
    decodeHost [0x02] = .ok (.clear, []) ∧ decodeHost [0x03] = .ok (.home, [])
      ∧ decodeHost [0x05] = .ok (.displayOff, []) ∧ decodeHost [0x06] = .ok (.displayOn, [])
      ∧ decodeHost [0x07] = .ok (.cursorOff, []) ∧ decodeHost [0x08] = .ok (.cursorOn, [])
      ∧ decodeHost [0x09] = .ok (.blinkOff, []) ∧ decodeHost [0x0A] = .ok (.blinkOn, []) := by decide
theorem test_decode_without_operands_2 :
    decodeHost [0x0B] = .ok (.scrollLeft, []) ∧ decodeHost [0x0C] = .ok (.scrollRight, [])
      ∧ decodeHost [0x0D] = .ok (.leftToRight, []) ∧ decodeHost [0x0E] = .ok (.rightToLeft, [])
      ∧ decodeHost [0x0F] = .ok (.autoscrollOn, []) ∧ decodeHost [0x10] = .ok (.autoscrollOff, []) := by decide
theorem test_decode_set_cursor : decodeHost [0x04, 0x05, 0x01] = .ok (.setCursor 5 1, []) := by decide
theorem test_decode_write_char : decodeHost [0x11, 0x48] = .ok (.writeChar 0x48, []) := by decide
theorem test_decode_write_string :
    decodeHost [0x12, 0x48, 0x69, 0x00, 0x02] = .ok (.writeString [0x48, 0x69], [0x02]) := by decide
theorem test_decode_create_char :
    decodeHost [0x13, 0x03, 0x00, 0x0A, 0x1F, 0x1F, 0x0E, 0x04, 0x00, 0x00]
      = .ok (.createChar 3 heart, []) := by decide
theorem test_decode_set_backlight : decodeHost [0x14, 0x01] = .ok (.setBacklight true, []) := by decide

/-- Program P6 and R92: what has no meaning is rejected by name. -/
theorem test_decode_rejects :
    decodeHost [0x15] = .error (.unassignedOpcode 0x15) ∧ decodeHost [0x14, 0x02] = .error (.badBool 0x02)
      ∧ decodeHost [0x01, 0x10, 0x02, 0x07] = .error (.badCell 0x07)
      ∧ decodeHost [0x00, 0x00, 0x08] = .error (.badPin 0x08) ∧ decodeHost [0x04, 0x05] = .error .truncated
      ∧ decodeHost [0x12, 0x48] = .error .unterminated ∧ decodeCommand 0x00 = .error .noKind := by decide

/-! ### Words written out from the encodings: instruction bytes (30_encoding.md R84, V35) -/

theorem test_decode_instruction_bytes :
    decodeCommand 0b00000001 = .ok .clearDisplay ∧ decodeCommand 0b00000010 = .ok (.returnHome 0)
      ∧ decodeCommand 0b00000110 = .ok (.entryModeSet true false)
      ∧ decodeCommand 0b00001100 = .ok (.displayControl true false false)
      ∧ decodeCommand 0b00011100 = .ok (.cursorShift true true 0)
      ∧ decodeCommand 0b00101000 = .ok (.functionSet false true false 0)
      ∧ decodeCommand 0b01011000 = .ok (.setCgramAddress 3 0)
      ∧ decodeCommand 0b11000101 = .ok (.setDdramAddress 0x45)
      ∧ decodeCommand 0b00000011 = .ok (.returnHome 1) := by decide

theorem test_encode_program_1 :
    encode (.init false mapA) = [0x00, 0x00, 0x01, 0xFF, 0x02, 0x03, 0x04, 0x05, 0x06, 0xFF, 0xFF, 0xFF, 0xFF]
      ∧ encode (.begin 16 2 .small) = [0x01, 0x10, 0x02, 0x00] ∧ encode (.setCursor 0 0) = [0x04, 0x00, 0x00]
      ∧ encode (.writeString [0x48, 0x69]) = [0x12, 0x48, 0x69, 0x00] := by decide

/-! ### The opcode table's words -/

theorem test_table_words :
    decodeTableWord 8 0x02 = some .clear ∧ decodeTableWord 8 0x14 = some (.setBacklight false)
      ∧ decodeTableWord 8 0x28 = some (.functionSet false true false 0)
      ∧ decodeTableWord 8 0x58 = some (.setCgramAddress 3 0)
      ∧ decodeTableWord 8 0xC5 = some (.setDdramAddress 0x45) := by decide
theorem test_table_word_runs_first :
    (nextOf (step (State.reset.withFetchWord 8 0x00))).map State.fsm = some .roleAssigned := by decide

/-! ### Pins, pulse, Send (V1, V2, V6, V7, V8, V9) -/

theorem test_set_bit : setBit 0x81 1 true = 0x83 ∧ setBit 0xFF 2 false = 0xFB ∧ setBit 0x80 7 false = 0x00 := by decide

theorem test_pulse_enable :
    eventsOf (pulseEnable mapA Config.defaultTiming) 0x80 =
      [.rd 0x80, .wr 0x80, .dly 1, .rd 0x80, .wr 0x84, .dly 1, .rd 0x84, .wr 0x80, .dly 1] := by decide

theorem test_send_four_bit_V7 :
    eventsOf (send mapA Config.defaultTiming false 0xA5 false) 0x00 =
      [.rd 0x00, .wr 0x00,
        .rd 0x00, .wr 0x00, .rd 0x00, .wr 0x10, .rd 0x10, .wr 0x10, .rd 0x10, .wr 0x50,
        .rd 0x50, .wr 0x50, .dly 1, .rd 0x50, .wr 0x54, .dly 1, .rd 0x54, .wr 0x50, .dly 1,
        .rd 0x50, .wr 0x58, .rd 0x58, .wr 0x48, .rd 0x48, .wr 0x68, .rd 0x68, .wr 0x28,
        .rd 0x28, .wr 0x28, .dly 1, .rd 0x28, .wr 0x2C, .dly 1, .rd 0x2C, .wr 0x28, .dly 1] := by decide

theorem test_send_with_rw_V8 :
    latchOf (send mapB Config.defaultTiming false 0xA5 true) 0x80 = 0xA9
      ∧ callsOf (send mapB Config.defaultTiming false 0xA5 true) = 32 := by decide

theorem test_send_eight_bit_V9 :
    eventsOf (send mapC Config.defaultTiming true 0xA5 true) 0x00 =
      [.rd 0x00, .wr 0x01,
        .rd 0x01, .wr 0x05, .rd 0x05, .wr 0x05, .rd 0x05, .wr 0x15, .rd 0x15, .wr 0x15, .rd 0x15, .wr 0x15,
        .rd 0x15, .wr 0x95,
        .rd 0x95, .wr 0x95, .dly 1, .rd 0x95, .wr 0x97, .dly 1, .rd 0x97, .wr 0x95, .dly 1] := by decide

theorem test_strobes_V7 :
    strobes mapA false 0x00 (eventsOf (send mapA Config.defaultTiming false 0xA5 false) 0x00)
      = [{ select := false, data := 0xA }, { select := false, data := 0x5 }] := by decide

/-- V70: RS on the backlight's position. -/
theorem test_role_on_bit_seven : latchOf (send mapE Config.defaultTiming false 0x41 true) 0x00 = 0x88 := by decide

/-! ### INIT and BEGIN (V19, V20, V22, V23, V24) -/

theorem test_init_V19 :
    (nextOf (exec (.init false mapA) State.reset)).map (fun t => (t.fsm, t.pinMap, t.modeFlags, t.lineCount, t.trace))
      = some (.roleAssigned, mapA, 0x00, 1, []) := by decide
theorem test_init_eight_bit :
    (nextOf (exec (.init true mapC) State.reset)).map State.modeFlags = some 0x10 := by decide

theorem test_begin_V20 :
    summary (.begin 16 2 .small) assigned =
      some { latch := 0x30, modeFlags := 0x08, displayControlFlags := 0x04, entryModeFlags := 0x02,
             status := some (.okFlag true),
             sent := [{ byte := 0x28, isData := false }, { byte := 0x0C, isData := false },
               { byte := 0x01, isData := false }, { byte := 0x06, isData := false }] } := by decide +kernel
theorem test_begin_V22 :
    (nextOf (exec (.begin 20 1 .tall) assigned8)).map (fun t =>
        (t.modeFlags, t.latch, t.trace.length, strobes mapC true 0x00 t.trace))
      = some (0x14, 0x18, 170, [{ select := false, data := 0x34 }, { select := false, data := 0x34 },
          { select := false, data := 0x34 }, { select := false, data := 0x34 }, { select := false, data := 0x0C },
          { select := false, data := 0x01 }, { select := false, data := 0x06 }]) := by decide +kernel
theorem test_begin_geometry_V23 :
    beginMode 1 .small 0x00 = 0x00 ∧ beginMode 1 .tall 0x00 = 0x04 ∧ beginMode 2 .tall 0x00 = 0x08
      ∧ beginMode 4 .small 0x00 = 0x08 ∧ beginMode 0 .small 0x00 = 0x00 ∧ beginMode 2 .small 0x04 = 0x0C := by decide

/-! ### Operations in `Ready` (V30 to V60) -/

theorem test_clear_V30 :
    latchTrace .clear sA = some (0x08,
      [.rd 0x30, .wr 0x30,
        .rd 0x30, .wr 0x30, .rd 0x30, .wr 0x20, .rd 0x20, .wr 0x00, .rd 0x00, .wr 0x00,
        .rd 0x00, .wr 0x00, .dly 1, .rd 0x00, .wr 0x04, .dly 1, .rd 0x04, .wr 0x00, .dly 1,
        .rd 0x00, .wr 0x08, .rd 0x08, .wr 0x08, .rd 0x08, .wr 0x08, .rd 0x08, .wr 0x08,
        .rd 0x08, .wr 0x08, .dly 1, .rd 0x08, .wr 0x0C, .dly 1, .rd 0x0C, .wr 0x08, .dly 1,
        .dly 2]) := by decide
theorem test_home_V30 : summary .home sA = sentCommand 0x10 0x04 0x02 0x02 := by decide
theorem test_set_cursor_V40 : summary (.setCursor 5 1) sA = sentCommand 0x28 0x04 0x02 0xC5 := by decide
theorem test_set_cursor_bytes_V33 :
    ddramByte 200 0x40 = 0x88 ∧ ddramByte 0x2C 0x54 = 0x80 ∧ ddramByte 127 0x54 = 0xD3 ∧ clampRow 2 7 = 1
      ∧ clampRow 1 255 = 0 ∧ clampRow 4 9 = 3 := by decide
theorem test_set_cursor_refused_V33 :
    refusalOf (exec (.setCursor 0 4) { sA with lineCount := 5 }) = some (.rowOutsideTable 4)
      ∧ refusalOf (exec (.setCursor 0 0) { sA with lineCount := 0 }) = some (.rowOutsideTable 0xFF) := by decide
theorem test_display_off_V41 : summary .displayOff sA = sentCommand 0x40 0x00 0x02 0x08 := by decide
theorem test_display_on_V32 :
    summary .displayOn { sA with displayControlFlags := 0x00 } = sentCommand 0x60 0x04 0x02 0x0C := by decide
theorem test_cursor_on_V42 : summary .cursorOn sA = sentCommand 0x70 0x06 0x02 0x0E := by decide
theorem test_blink_on_V42 :
    summary .blinkOn { sA with displayControlFlags := 0x06 } = sentCommand 0x78 0x07 0x02 0x0F := by decide
theorem test_cursor_off_V42 :
    summary .cursorOff { sA with displayControlFlags := 0x07 } = sentCommand 0x68 0x05 0x02 0x0D := by decide
theorem test_blink_off_V42 :
    summary .blinkOff { sA with displayControlFlags := 0x05 } = sentCommand 0x60 0x04 0x02 0x0C := by decide
theorem test_scroll_left_V43 : summary .scrollLeft sA = sentCommand 0x40 0x04 0x02 0x18 := by decide
theorem test_scroll_right_V43 : summary .scrollRight sA = sentCommand 0x60 0x04 0x02 0x1C := by decide
theorem test_right_to_left_V44 : summary .rightToLeft sA = sentCommand 0x20 0x04 0x00 0x04 := by decide
theorem test_autoscroll_on_V44 :
    summary .autoscrollOn { sA with entryModeFlags := 0x00 } = sentCommand 0x28 0x04 0x01 0x05 := by decide
theorem test_left_to_right_V44 :
    summary .leftToRight { sA with entryModeFlags := 0x01 } = sentCommand 0x38 0x04 0x03 0x07 := by decide
theorem test_autoscroll_off_V44 :
    summary .autoscrollOff { sA with entryModeFlags := 0x03 } = sentCommand 0x30 0x04 0x02 0x06 := by decide
theorem test_write_char_V31 :
    latchTrace (.writeChar 0x48) sA = some (0x42,
      [.rd 0x30, .wr 0x32,
        .rd 0x32, .wr 0x32, .rd 0x32, .wr 0x22, .rd 0x22, .wr 0x22, .rd 0x22, .wr 0x22,
        .rd 0x22, .wr 0x22, .dly 1, .rd 0x22, .wr 0x26, .dly 1, .rd 0x26, .wr 0x22, .dly 1,
        .rd 0x22, .wr 0x22, .rd 0x22, .wr 0x22, .rd 0x22, .wr 0x02, .rd 0x02, .wr 0x42,
        .rd 0x42, .wr 0x42, .dly 1, .rd 0x42, .wr 0x46, .dly 1, .rd 0x46, .wr 0x42, .dly 1]) := by decide
theorem test_write_string_V46 :
    (nextOf (exec (.writeString [0x48, 0x69]) sA)).map (fun t => (t.latch, t.trace.length, t.sent))
      = some (0x4A, 72, [{ byte := 0x48, isData := true }, { byte := 0x69, isData := true }]) := by decide
theorem test_create_char_V50 :
    (nextOf (exec (.createChar 11 heart) sA)).map (fun t => (t.latch, t.trace.length, t.sent.take 3))
      = some (0x02, 324, [{ byte := 0x58, isData := false }, { byte := 0x00, isData := true },
          { byte := 0x0A, isData := true }]) := by decide +kernel
theorem test_cgram_byte_V34 : cgramByte 7 = 0x78 ∧ cgramByte 8 = 0x40 ∧ cgramByte 255 = 0x78 := by decide
theorem test_set_backlight_V60 :
    latchTrace (.setBacklight true) sA = some (0xB0, [.rd 0x30, .wr 0xB0])
      ∧ latchTrace (.setBacklight false) { sA with latch := 0xDA } = some (0x5A, [.rd 0xDA, .wr 0x5A]) := by decide

/-! ### The block's own commands: one instruction byte each, sent with RS low (30_encoding.md R84, R91, R93) -/

theorem test_commands_send_their_byte :
    summary .clearDisplay sA = sentCommand 0x08 0x04 0x02 0x01
      ∧ summary (.returnHome 0) sA = sentCommand 0x10 0x04 0x02 0x02
      ∧ summary (.entryModeSet false true) sA = sentCommand 0x28 0x04 0x02 0x05
      ∧ summary (.displayControl true true false) sA = sentCommand 0x70 0x04 0x02 0x0E := by decide
theorem test_commands_send_their_byte_2 :
    summary (.cursorShift true true 0) sA = sentCommand 0x60 0x04 0x02 0x1C
      ∧ summary (.functionSet false true false 0) sA = sentCommand 0x40 0x04 0x02 0x28
      ∧ summary (.setCgramAddress 3 0) sA = sentCommand 0x40 0x04 0x02 0x58
      ∧ summary (.setDdramAddress 0x45) sA = sentCommand 0x28 0x04 0x02 0xC5 := by decide

/-! ### BusError and refusals (X1, X2, X3, X6, X7, X8, V25) -/

theorem test_cursor_on_read_fails_X1 :
    (nextOf (exec .cursorOn (State.failAt sA 0 0x30))).map (fun t =>
        (t.trace, t.status, t.displayControlFlags, t.latch, t.fsm))
      = some ([.rdFail], some (.busError .read 7), 0x06, 0x30, .ready) := by decide
theorem test_cursor_on_write_fails_X2 :
    latchTrace .cursorOn (State.failAt sA 15 0x9D) = some (0x9D,
      [.rd 0x30, .wr 0x30, .rd 0x30, .wr 0x30, .rd 0x30, .wr 0x20, .rd 0x20, .wr 0x00, .rd 0x00, .wr 0x00,
        .rd 0x00, .wr 0x00, .dly 1, .rd 0x00, .wr 0x04, .dly 1, .rd 0x04, .wrFail 0x00]) := by decide
theorem test_begin_fails_X3 :
    (nextOf (exec (.begin 16 2 .small) (State.failAt assigned 4 0x00))).map (fun t =>
        (t.trace, t.fsm, t.lineCount, t.modeFlags, t.status))
      = some ([.dly 50, .rd 0x00, .wr 0x00, .rd 0x00, .wr 0x00, .rdFail], .roleAssigned, 2, 0x08,
          some (.busError .read 7)) := by decide
theorem test_begin_fails_X4 :
    (nextOf (exec (.begin 16 2 .small) (State.failAt assigned 99 0x00))).map (fun t =>
        (t.trace.length, t.trace.drop 116, t.displayControlFlags, t.entryModeFlags))
      = some (122, [.rd 0x40, .wr 0x40, .rd 0x40, .wr 0x40, .rd 0x40, .wrFail 0x00], 0x04, 0x00) := by decide +kernel
theorem test_write_string_fails_X6 :
    (nextOf (exec (.writeString [0x48, 0x69]) (State.failAt sA 44 0x00))).map (fun t =>
        (t.latch, t.trace.length, t.trace.drop 49, t.sent))
      = some (0x36, 53, [.rd 0x32, .wr 0x36, .dly 1, .rdFail], [{ byte := 0x48, isData := true }]) := by decide
theorem test_backlight_fails_X7 :
    latchTrace (.setBacklight true) (State.failAt sA 0 0x55) = some (0x30, [.rdFail])
      ∧ latchTrace (.setBacklight true) (State.failAt sA 1 0x55) = some (0x55, [.rd 0x30, .wrFail 0xB0]) := by decide
/-- Log 10: a write that is never answered. -/
theorem test_write_never_answered :
    (nextOf (exec (.setBacklight true) (sA.setReplies [.ok, .silent 0x55]))).map (fun t =>
        (t.trace, t.status, t.waiting))
      = some ([.rd 0x30], none, true) := by decide
theorem test_clear_fails_X8 :
    (nextOf (exec .clear (State.failAt sA 29 0x00))).map (fun t => (t.trace.length, t.trace.drop 30))
      = some (35, [.rd 0x08, .wr 0x0C, .dly 1, .rd 0x0C, .wrFail 0x08]) := by decide
theorem test_refused_outside_lifecycle_V25 :
    refusalOf (exec .clear State.reset) = some (.outsideLifecycle .unconfigured)
      ∧ refusalOf (exec (.begin 16 2 .small) State.reset) = some (.outsideLifecycle .unconfigured)
      ∧ refusalOf (exec (.init false mapA) assigned) = some (.outsideLifecycle .roleAssigned)
      ∧ refusalOf (exec (.begin 16 2 .small) sA) = some (.outsideLifecycle .ready)
      ∧ refusalOf (exec (.setBacklight true) assigned) = some (.outsideLifecycle .roleAssigned) := by decide

/-! ### Witnesses: the hypotheses of each statement, met by a concrete state and operands (one line per clause) -/

/-- S_A with a 4-line geometry, the largest in which no row is refused. -/
def sFour : State := { sA with lineCount := 4 }

/-- S_A after the bytes of its BEGIN. -/
def sATold : State :=
  { sA with
    sent := [{ byte := 0x28, isData := false }, { byte := 0x0C, isData := false }, { byte := 0x01, isData := false },
      { byte := 0x06, isData := false }] }

theorem witness_DecodeEncodeRoundTrip :
    (Instr.writeString [0x48, 0x69]).wellFormed = true ∧ (Instr.functionSet true true true 3).wellFormed = true := by
  decide
theorem witness_DecodedBytesAreTheEncoding :
    decodeAt .host [0x12, 0x48, 0x00, 0x02] = .ok (.writeString [0x48], [0x02])
      ∧ decodeAt .command [0xFF] = .ok (.setDdramAddress 0x7F, []) := by decide
/-- Both ends of each kind's range. -/
theorem witness_CommandKindByHighestBit :
    (∀ c ∈ [(0x80 : Byte), 0xFF], c &&& 0x80 = 0x80) ∧ (∀ c ∈ [(0x40 : Byte), 0x7F], c &&& 0xC0 = 0x40)
      ∧ (∀ c ∈ [(0x20 : Byte), 0x3F], c &&& 0xE0 = 0x20) ∧ (∀ c ∈ [(0x10 : Byte), 0x1F], c &&& 0xF0 = 0x10)
      ∧ (∀ c ∈ [(0x08 : Byte), 0x0F], c &&& 0xF8 = 0x08) ∧ (∀ c ∈ [(0x04 : Byte), 0x07], c &&& 0xFC = 0x04)
      ∧ (∀ c ∈ [(0x02 : Byte), 0x03], c &&& 0xFE = 0x02) := by decide
/-- The eight clauses exclude each other: a byte under two of them would need two highest bits. -/
theorem witness_CommandKindByHighestBit_excludes :
    ∀ c ∈ [(0x80 : Byte), 0x40, 0x20, 0x10, 0x08, 0x04, 0x02, 0x01, 0x00, 0x7F, 0x3F, 0x1F, 0x0F, 0x07, 0x03],
      (if c &&& 0x80 = 0x80 then 1 else 0) + (if c &&& 0xC0 = 0x40 then 1 else 0)
        + (if c &&& 0xE0 = 0x20 then 1 else 0) + (if c &&& 0xF0 = 0x10 then 1 else 0)
        + (if c &&& 0xF8 = 0x08 then 1 else 0) + (if c &&& 0xFC = 0x04 then 1 else 0)
        + (if c &&& 0xFE = 0x02 then 1 else 0) + (if c = 0x01 then 1 else 0) + (if c = 0x00 then 1 else 0) = 1 := by
  decide
theorem witness_HostBytesWithoutMeaningRefused :
    (∀ op ∈ [(0x15 : Byte), 0xFF], 0x15 ≤ op) ∧ (∀ b ∈ [(0x02 : Byte), 0xFF], 1 < b)
      ∧ ∀ b ∈ [(0x08 : Byte), 0xFE], ∀ pins ∈ [[b, 0, 0, 0, 0, 0, 0, 0, 0, 0, 0], [0, 0, 0, 0, 0, 0, 0, 0, 0, 0, b]],
          (0x01 : Byte) ≤ 1 ∧ pins.length = 11 ∧ ∃ b ∈ pins, 0x08 ≤ b ∧ b ≠ 0xFF := by decide
/-- The incomplete operations: nothing at all, the opcode alone, all but the last byte. -/
theorem witness_HostBytesWithoutMeaningRefused_incomplete :
    (Instr.init false mapA).port = .host ∧ (Instr.init false mapA).wellFormed = true
      ∧ (∀ n ∈ [0, 1, 12], n < (encode (.init false mapA)).length) ∧ (∀ text, Instr.init false mapA ≠ .writeString text)
      ∧ (Instr.writeString [0x48]).wellFormed = true
      ∧ ∀ n ∈ [1, 2], 0 < n ∧ n < (encode (.writeString [0x48])).length :=
  ⟨rfl, rfl, by decide, fun _ => by simp, rfl, by decide⟩
theorem witness_RowOffsetTable : ∀ row ∈ [(0x04 : Byte), 0xFF], 3 < row := by decide
theorem witness_ResetCreatesAnIdleUnconfiguredBlock :
    (Instr.init false mapA).port = .host ∧ ∃ t, exec (.init false mapA) (State.resetWith 0xFF) = .next t :=
  ⟨rfl, _, rfl⟩
theorem witness_StepRunsTheDecodedInstruction :
    sA.waiting = false ∧ sA.commandPort = [] ∧ decodeAt .host (sA.setHostPort [0x02]).hostPort = .ok (.clear, [])
      ∧ decodeAt .command (sA.setCommandPort [0x01, 0x80]).commandPort = .ok (.clearDisplay, [0x80]) := by decide
theorem witness_PresentedOperationRuns :
    sA.waiting = false ∧ sA.commandPort = [] ∧ (Instr.setCursor 5 1).port = .host
      ∧ (Instr.setCursor 5 1).wellFormed = true
      ∧ (sA.setHostPort [0x04, 0x05, 0x01, 0x02]).hostPort = encode (.setCursor 5 1) ++ [0x02] := by decide
theorem witness_StepWithoutAnInstruction :
    (sA.setWaiting true).waiting = true ∧ sA.waiting = false ∧ sA.commandPort = [] ∧ sA.hostPort = []
      ∧ (sA.setHostPort [0x15]).hostPort = [0x15] ∧ decodeHost [0x15] = .error (.unassignedOpcode 0x15)
      ∧ (sA.setCommandPort [0x00, 0x01]).waiting = false
      ∧ (sA.setCommandPort [0x00, 0x01]).commandPort = 0x00 :: [0x01] := by decide
theorem witness_PlacedWordRuns :
    decodeTableWord 8 0x14 = some (.setBacklight false) ∧ (Instr.setBacklight false).port = .host
      ∧ decodeTableWord 8 0x80 = some (.setDdramAddress 0) ∧ (Instr.setDdramAddress 0).port = .command := by decide
theorem witness_RefusedOutsideTheLifecycle :
    admittedIn .clear State.reset.fsm = false ∧ admittedIn (.begin 16 2 .small) sA.fsm = false
      ∧ admittedIn (.init false mapA) assigned.fsm = false ∧ admittedIn .clearDisplay State.reset.fsm = false := by decide
theorem witness_DefinedInstructionsHaveANextState :
    admittedIn (.setCursor 5 1) sA.fsm = true ∧ rowOffset (clampRow sA.lineCount 1) ≠ none
      ∧ admittedIn (.setDdramAddress 0) assigned.fsm = true := by decide
theorem witness_TwoLifecycleTransitions :
    (∃ t, exec (.init false mapA) State.reset = .next t)
      ∧ (∃ t, exec (.begin 16 2 .small) assigned = .next t ∧ t.status = some (.okFlag true))
      ∧ (∃ t, exec (.begin 16 2 .small) (State.failAt assigned 0 0x00) = .next t ∧ t.status ≠ some (.okFlag true))
      ∧ ∃ t, exec .clear sA = .next t :=
  ⟨⟨_, rfl⟩, ⟨_, rfl, rfl⟩, ⟨_, rfl, by decide⟩, ⟨_, rfl⟩⟩
theorem witness_InitCompletes : State.reset.fsm = .unconfigured := rfl
theorem witness_BeginCompletes : assigned.fsm = .roleAssigned ∧ assigned.busOk := by decide
theorem witness_BeginWaitsForPowerUpFirst :
    assigned.timing.WF ∧ ∃ t, exec (.begin 16 2 .small) (State.failAt assigned 0 0x00) = .next t :=
  ⟨by decide, _, rfl⟩
theorem witness_BeginStrobesFourBit :
    assigned.fsm = .roleAssigned ∧ assigned.busOk ∧ assigned.pinMap.WF ∧ assigned.pinMap.mapped4
      ∧ assigned.modeFlags.getLsbD 4 = false := by decide
theorem witness_BeginStrobesEightBit :
    assigned8.fsm = .roleAssigned ∧ assigned8.busOk ∧ assigned8.pinMap.WF ∧ assigned8.pinMap.en ≠ none
      ∧ assigned8.modeFlags.getLsbD 4 = true := by decide
theorem witness_BeginAbortKeepsItsWrites :
    (∃ t, exec (.begin 16 2 .small) (State.failAt assigned 89 0x00) = .next t
      ∧ t.status = some (.busError .write 7) ∧ t.sent.length = 0)
    ∧ (∃ t, exec (.begin 16 2 .small) (State.failAt assigned 90 0x00) = .next t
      ∧ t.status = some (.busError .read 7) ∧ t.sent.length = 1 ∧ t.displayControlFlags = 0x04)
    ∧ ∃ t, exec (.begin 16 2 .small) (State.failAt assigned 150 0x00) = .next t
      ∧ t.status = some (.busError .read 7) ∧ t.sent.length = 3 ∧ t.entryModeFlags = 0x02 :=
  ⟨⟨_, rfl, rfl, rfl⟩, ⟨_, rfl, rfl, rfl, rfl⟩, ⟨_, rfl, rfl, rfl, rfl⟩⟩
theorem witness_BeginMergesGeometry : ∀ lines ∈ [(0x02 : Byte), 0xFF], lines > 1 := by decide
theorem witness_BusWidthFixedFromInit :
    assigned.fsm ≠ .unconfigured ∧ ∃ t, exec (.begin 16 2 .small) assigned = .next t := ⟨by decide, _, rfl⟩
theorem witness_UnusedPinNoTransaction : sA.pinMap.pin .rw = none ∧ sA.pinMap.pin .d7 = none := by decide
theorem witness_SetPinIsolation : sA.busOk ∧ (6 : Fin 8) ≠ 7 := by decide
theorem witness_SetPinFailures :
    (sA.setReplies [.fail 0x55 7]).replies = .fail 0x55 7 :: []
      ∧ (sA.setReplies [.silent 0x55]).replies = .silent 0x55 :: []
      ∧ ((Reply.ok = .ok ∧ sA.latch = 0x30) ∧ (State.failAt sA 1 0x55).replies = .ok :: .fail 0x55 7 :: []
        ∧ (sA.setReplies [.ok, .silent 0x55]).replies = .ok :: .silent 0x55 :: [])
      ∧ (sA.setReplies [.answer 0x80, .fail 0x55 7]).replies = .answer 0x80 :: .fail 0x55 7 :: []
      ∧ (sA.setReplies [.answer 0x80, .silent 0x55]).replies = .answer 0x80 :: .silent 0x55 :: [] := by decide
theorem witness_ForeignWriteIsLost :
    (sA.setReplies [.answer 0x80, .ok]).replies = .answer 0x80 :: .ok :: [] := by decide
theorem witness_EnablePulseWaits :
    Config.defaultTiming.WF ∧ mapA.en = some 2 ∧ mapN.en = none := by decide
theorem witness_SendStrobesFourBit : mapB.WF ∧ mapB.mapped4 := by decide
theorem witness_SendStrobesEightBit : mapC.WF ∧ mapC.en ≠ none := by decide
theorem witness_ClearCompletes :
    sA.fsm = .ready ∧ sA.busOk ∧ sA.timing.WF ∧ assigned.fsm ≠ .ready
      ∧ ∃ t, exec .clear (State.failAt sA 29 0x00) = .next t ∧ t.status = some (.busError .write 7) :=
  ⟨by decide, by decide, by decide, by decide, _, rfl, rfl⟩
theorem witness_HomeCompletes :
    sA.fsm = .ready ∧ sA.busOk ∧ sA.timing.WF ∧ assigned.fsm ≠ .ready
      ∧ ∃ t, exec .home (State.failAt sA 0 0x00) = .next t ∧ t.status = some (.busError .read 7) :=
  ⟨by decide, by decide, by decide, by decide, _, rfl, rfl⟩
theorem witness_SetCursorCompletes :
    sA.fsm = .ready ∧ sA.busOk
      ∧ rowOffset (if (1 : Byte) ≥ sA.lineCount then sA.lineCount - 1 else 1) = some 0x40
      ∧ rowOffset (if (255 : Byte) ≥ sFour.lineCount then sFour.lineCount - 1 else 255) = some 0x54 := by decide
/-- No lines; one line; four lines; five lines with the rows on both sides of the table's end. -/
theorem witness_SetCursorRefusals :
    sA.fsm = .ready ∧ (∀ row ∈ [(0 : Byte), 255], 3 < clampRow 0 row)
      ∧ (∀ row ∈ [(0 : Byte), 3, 4, 255], clampRow 1 row ≤ 3 ∧ clampRow 4 row ≤ 3)
      ∧ clampRow 5 3 = 3 ∧ clampRow 5 4 = 4 ∧ clampRow 5 255 = 4 ∧ clampRow 255 255 = 254 := by decide
theorem witness_DisplayControlOperations :
    sA.fsm = .ready ∧ sA.busOk ∧ assigned.fsm ≠ .ready
      ∧ (Instr.cursorOn, (0x08 : Byte), sA.displayControlFlags ||| 0x02)
          ∈ [(Instr.displayOn, (0x06 : Byte), sA.displayControlFlags ||| 0x04),
            (.displayOff, 0x05, sA.displayControlFlags &&& ~~~0x04),
            (.cursorOn, 0x08, sA.displayControlFlags ||| 0x02)] := by decide
theorem witness_EntryModeOperations :
    sA.fsm = .ready ∧ sA.busOk ∧ assigned.fsm ≠ .ready
      ∧ (Instr.rightToLeft, (0x0E : Byte), sA.entryModeFlags &&& ~~~0x02)
          ∈ [(Instr.leftToRight, (0x0D : Byte), sA.entryModeFlags ||| 0x02),
            (.rightToLeft, 0x0E, sA.entryModeFlags &&& ~~~0x02)] := by decide
theorem witness_ScrollsComplete :
    sA.fsm = .ready ∧ sA.busOk
      ∧ (Instr.scrollRight, (0x1C : Byte)) ∈ [(Instr.scrollLeft, (0x18 : Byte)), (.scrollRight, 0x1C)] := by decide
theorem witness_WriteCharCompletes : sA.fsm = .ready ∧ sA.busOk ∧ State.reset.fsm ≠ .ready := by decide
theorem witness_WriteStringCompletes : sA.fsm = .ready ∧ sA.busOk := by decide
theorem witness_WriteStringIsCharByChar :
    (∃ t, exec (.writeChar 0x48) sA = .next t ∧ t.status = some .ok)
      ∧ ∃ t, exec (.writeChar 0x48) (State.failAt sA 1 0x00) = .next t ∧ t.status ≠ some .ok :=
  ⟨⟨_, rfl, rfl⟩, ⟨_, rfl, by decide⟩⟩
theorem witness_CreateCharCompletes : sA.fsm = .ready ∧ sA.busOk ∧ assigned.fsm ≠ .ready := by decide
theorem witness_SetBacklightCompletes : sA.fsm = .ready ∧ sA.busOk ∧ sA.pinMap.WF7 := by decide
theorem witness_BacklightRoundTrip : sA.fsm = .ready ∧ sA.busOk := by decide
theorem witness_CommandsComplete :
    (Instr.setCgramAddress 3 5).port = .command ∧ assigned.fsm ≠ .unconfigured ∧ assigned.busOk
      ∧ sA.fsm ≠ .unconfigured ∧ State.reset.fsm = .unconfigured := by decide
theorem witness_OnlyNamedInstructionsWriteAField :
    ∃ t, exec (.writeChar 0x48) sA = .next t ∧ t.latch = 0x42 := ⟨_, rfl, rfl⟩
/-- Positions 0 and 7 belong to no role of map A; a SET_BACKLIGHT keeps position 0. -/
theorem witness_UnownedLatchBitsKept :
    (∀ role ∈ Role.all, sA.pinMap.pin role ≠ some 7) ∧ (∀ role ∈ Role.all, sA.pinMap.pin role ≠ some 0)
      ∧ (State.failAt sA 14 0x9D).soleOwner
      ∧ (∃ t, exec .clear (State.failAt sA 14 0x9D) = .next t ∧ t.status = some (.busError .read 7))
      ∧ (State.failAt sA 1 0x9D).soleOwner
      ∧ (∃ t, exec (.setBacklight true) (State.failAt sA 1 0x9D) = .next t ∧ t.status = some (.busError .write 7))
      ∧ (∃ t, exec (.setBacklight true) sA = .next t ∧ t.returnedOk)
      ∧ (∃ t, exec (.init false mapA) State.reset = .next t) ∧ ∃ t, exec (.writeString []) sA = .next t :=
  ⟨by decide, by decide, by decide, ⟨_, rfl, rfl⟩, by decide, ⟨_, rfl, rfl⟩, ⟨_, rfl, .inl rfl⟩, ⟨_, rfl⟩, ⟨_, rfl⟩⟩
theorem witness_SoleOwnerReadsLastWritten :
    (State.failAt sA 14 0x9D).soleOwner
      ∧ (∃ t, exec .clear (State.failAt sA 14 0x9D) = .next t ∧ t.status = some (.busError .read 7))
      ∧ ∃ t, exec .clear sA = .next t ∧ t.returnedOk := ⟨by decide, ⟨_, rfl, rfl⟩, ⟨_, rfl, .inl rfl⟩⟩
theorem witness_EveryWriteFollowsItsRead :
    ∃ t, exec (.setBacklight true) (State.failAt sA 1 0x55) = .next t ∧ t.trace = [.rd 0x30, .wrFail 0xB0] :=
  ⟨_, rfl, by decide⟩
theorem witness_BusErrorEndsTheOperation :
    (∃ t, exec .cursorOn (State.failAt sA 0 0x30) = .next t ∧ t.status = some (.busError .read 7))
      ∧ (∃ t, exec .cursorOn (State.failAt sA 15 0x9D) = .next t ∧ t.status = some (.busError .write 7))
      ∧ ∃ t, exec .cursorOn sA = .next t ∧ t.returnedOk :=
  ⟨⟨_, rfl, rfl⟩, ⟨_, rfl, rfl⟩, ⟨_, rfl, .inl rfl⟩⟩
theorem witness_FailedRunIsAPrefix :
    (State.failAt sA 15 0x9D).replies = List.replicate 15 .ok ++ .fail 0x9D 7 :: []
      ∧ (∃ t, exec .cursorOn (State.failAt sA 15 0x9D) = .next t ∧ t.status = some (.busError .write 7))
      ∧ ∃ u, exec .cursorOn ((State.failAt sA 15 0x9D).setReplies []) = .next u :=
  ⟨rfl, ⟨_, rfl, rfl⟩, ⟨_, rfl⟩⟩
theorem witness_OperationsEndIfAnswered :
    (State.failAt sA 15 0x9D).answered
      ∧ ∃ t, exec .cursorOn (State.failAt sA 15 0x9D) = .next t := ⟨by decide, _, rfl⟩
theorem witness_NoTransactionNoBusError :
    (sA.setPinMap mapN).pinMap.allUnused ∧ (∃ t, exec .clear (sA.setPinMap mapN) = .next t)
      ∧ (∃ t, exec (.init false mapA) State.reset = .next t) ∧ ∃ t, exec (.writeString []) sA = .next t :=
  ⟨by decide, ⟨_, rfl⟩, ⟨_, rfl⟩, ⟨_, rfl⟩⟩
theorem witness_CurrentLineIsNeverRead :
    (∃ t, exec .clear sA = .next t) ∧ ∃ r, exec .clear State.reset = .refused r := ⟨⟨_, rfl⟩, ⟨_, rfl⟩⟩
theorem witness_StepKeepsInv :
    (sA.setHostPort [0x08]).Inv ∧ ∃ t, step (sA.setHostPort [0x08]) = .next t :=
  ⟨⟨by decide, by decide, trivial, fun _ h => by cases h⟩, _, rfl⟩
theorem witness_StepKeepsFlagsSent :
    (sATold.setHostPort [0x08]).FlagsSentInv
      ∧ ∃ t, step (sATold.setHostPort [0x08]) = .next t ∧ t.returnedOk :=
  ⟨⟨rfl, by decide, fun _ => ⟨by decide, by decide, by decide⟩⟩, _, rfl, .inl rfl⟩
theorem witness_StepKeepsEmitted :
    (sATold.setHostPort [0x08]).EmittedInv ∧ ∃ t, step (sATold.setHostPort [0x08]) = .next t ∧ t.sent.length = 5 := by
  refine ⟨⟨rfl, by decide, fun x hx _ => ?_⟩, _, rfl, by decide⟩
  simp only [sATold, State.setHostPort, List.mem_cons, List.not_mem_nil, or_false] at hx
  rcases hx with rfl | rfl | rfl | rfl <;> exact ⟨_, rfl, rfl⟩

end Sys2Proof.Tests
end

/-! ### Proofs: the row table (30_encoding.md R88) -/

namespace Sys2Proof.Proofs.Encoding

open Sys2Proof Sys2Proof.Machine

/-- No row above 3 has an entry in the row table (30_encoding.md R88). -/
theorem rowOffset_eq_none_of_three_lt {row : Byte} (hrow : 3 < row) : rowOffset row = none := by
  have hlt : 3 < row.toNat := BitVec.lt_def.mp hrow
  rw [← Option.not_isSome_iff_eq_none, rowOffset_isSome, decide_eq_true_iff]
  exact Nat.not_le.mpr hlt

/-- Settles O7: the four entries by evaluation, the rows above 3 by `rowOffset_isSome`. -/
theorem rowOffsetTable : Obligations.RowOffsetTable :=
  ⟨rfl, rfl, rfl, rfl, fun _ => rowOffset_eq_none_of_three_lt⟩

end Sys2Proof.Proofs.Encoding

/-! ### Proofs: pins (40_pin_io.md) -/

namespace Sys2Proof.Proofs.PinIo

open Sys2Proof Sys2Proof.Machine

/-- Setting an unused pin leaves the whole state as it was: trace, replies, latch and status too (40_pin_io.md R113). -/
@[simp] theorem setPin_none (level : Bool) (s : State) : setPin none level s = .going s := rfl

/-- Settles O24: the role's pin is `none`, and setting that pin is a no-op. -/
theorem unusedPinNoTransaction : Obligations.UnusedPinNoTransaction := by
  intro role level s hunused
  rw [hunused, setPin_none]

end Sys2Proof.Proofs.PinIo

/-! ### Proofs: the operations of `Ready` (42_initialization.md R143) -/

namespace Sys2Proof.Proofs.ReadyOperations

open Sys2Proof Sys2Proof.Machine

/-- Outside `Ready` an operation defined in `Ready` only is refused. -/
theorem inReady_refused {s : State} (hfsm : s.fsm ≠ .ready) (run : State → Outcome) :
    inReady s run = .refused (.outsideLifecycle s.fsm) := by
  cases h : s.fsm with
  | unconfigured => simp [inReady, h]
  | roleAssigned => simp [inReady, h]
  | ready => exact absurd h hfsm

/-- Accepting an operation writes no field. -/
theorem sameFields_accept (s : State) : s.SameFields (accept s) :=
  (sameFields_setStatus s s none).mpr (State.sameFields_refl s)

/-- Under the contract a list of actions runs to its end and `Ok` is returned, in place of any earlier status. -/
theorem perform_accept_busOk {u : State} (hbus : u.busOk) (as : List Action) :
    perform as (accept u) = .next ((u.after as).setStatus (some .ok)) := by
  have hrun : runActions as (accept u) = .going ((accept u).after as) := runActions_busOk (s := accept u) hbus as
  rw [perform, hrun]
  rfl

/-- Whatever the proxy answers, a list of actions reaches a next state. -/
theorem exists_perform_next (as : List Action) (s : State) : ∃ t, perform as s = .next t := by
  unfold perform
  cases runActions as s with
  | going u => exact ⟨_, finish_going .ok u⟩
  | ended u => exact ⟨_, finish_ended .ok u⟩

/-- Whatever the proxy answers, a list of actions writes no field. -/
theorem perform_sameFields {as : List Action} {s t : State} (h : perform as s = .next t) : s.SameFields t := by
  have hframe : s.SameFields (runActions as s).state := (runActions_spec as s).1
  rcases finish_next h with ⟨u, hrun, rfl⟩ | hrun <;> rw [hrun] at hframe
  · exact (sameFields_setStatus s u _).mpr hframe
  · exact hframe

/-- A list of actions that returns a BusError has ended at one of its transactions. -/
theorem perform_busError {as : List Action} {s t : State} {cause : Cause} {detail : Nat}
    (h : perform as s = .next t) (hstatus : t.status = some (.busError cause detail)) :
    runActions as s = .ended t := by
  rcases finish_next h with ⟨u, -, rfl⟩ | hrun
  · rw [State.setStatus_status] at hstatus
    cases hstatus
  · exact hrun

/-- `i`, presented in `s`, is defined in `Ready` only; there its field writes lead to `u`, and it is the list of
actions `as` after them. -/
def ReadyOperation (i : Instr) (s u : State) (as : List Action) : Prop :=
  exec i s = inReady s fun _ => perform as (accept u)

section
variable {i : Instr} {s u : State} {as : List Action} (h : ReadyOperation i s u as)
include h

theorem ReadyOperation.refused (hfsm : s.fsm ≠ .ready) : exec i s = .refused (.outsideLifecycle s.fsm) := by
  rw [h, inReady_refused hfsm]

theorem ReadyOperation.exec_ready (hfsm : s.fsm = .ready) : exec i s = perform as (accept u) := by
  rw [h, inReady_ready hfsm]

theorem ReadyOperation.completes (hfsm : s.fsm = .ready) (hbus : u.busOk) :
    exec i s = .next ((u.after as).setStatus (some .ok)) := by
  rw [h.exec_ready hfsm, perform_accept_busOk hbus]

/-- A next state is reached from `Ready` only, by performing the actions. -/
theorem ReadyOperation.perform_next {t : State} (ht : exec i s = .next t) : perform as (accept u) = .next t := by
  have hfsm : s.fsm = .ready := inReady_next (h.symm.trans ht)
  rw [← h.exec_ready hfsm, ht]

theorem ReadyOperation.sameFields {t : State} (ht : exec i s = .next t) : u.SameFields t :=
  (sameFields_accept u).trans (perform_sameFields (h.perform_next ht))

theorem ReadyOperation.exists_next (hfsm : s.fsm = .ready) : ∃ t, exec i s = .next t ∧ u.SameFields t := by
  obtain ⟨t, ht⟩ := exists_perform_next as (accept u)
  have hnext : exec i s = .next t := (h.exec_ready hfsm).trans ht
  exact ⟨t, hnext, h.sameFields hnext⟩

end

/-- An operation that ends in a wait can meet a BusError only before the wait, which is then not issued. -/
theorem ReadyOperation.busError_before_wait {i : Instr} {s u t : State} {as : List Action} {ms : Nat} {cause : Cause}
    {detail : Nat} (h : ReadyOperation i s u (as ++ [.wait ms])) (ht : exec i s = .next t)
    (hstatus : t.status = some (.busError cause detail)) : runActions as (u.setStatus none) = .ended t :=
  runActions_wait_ended (perform_busError (h.perform_next ht) hstatus)

end Sys2Proof.Proofs.ReadyOperations

/-! ### Proofs: display and cursor operations (43_display_cursor_ops.md) -/

namespace Sys2Proof.Proofs.DisplayCursor

open Sys2Proof Sys2Proof.Machine Sys2Proof.Proofs.ReadyOperations

/-! #### CLEAR and HOME -/

theorem clear_readyOperation (s : State) :
    ReadyOperation .clear s s (s.send 0x01 false ++ [.wait s.timing.long]) := rfl

theorem home_readyOperation (s : State) :
    ReadyOperation .home s s (s.send 0x02 false ++ [.wait s.timing.long]) := rfl

/-- The long wait is at least 2 ms (00_scope.md R7). -/
theorem two_le_long {t : Timing} (h : t.WF) : 2 ≤ t.long := by
  obtain ⟨-, -, -, -, hlong, -⟩ := h
  exact hlong

/-- What CLEAR and HOME share: an instruction byte and then the long wait (43_display_cursor_ops.md R161, R162). -/
theorem sendThenLongWait {i : Instr} {s : State} {b : Byte}
    (h : ReadyOperation i s s (s.send b false ++ [.wait s.timing.long])) :
    (s.fsm ≠ .ready → exec i s = .refused (.outsideLifecycle s.fsm))
      ∧ (s.fsm = .ready → s.busOk →
          exec i s = .next ((s.after (s.send b false ++ [.wait s.timing.long])).setStatus (some .ok)))
      ∧ (∀ t, exec i s = .next t → s.SameFields t
          ∧ ∀ cause detail, t.status = some (.busError cause detail) →
              runActions (s.send b false) (s.setStatus none) = .ended t)
      ∧ (s.timing.WF → 2 ≤ s.timing.long) :=
  ⟨h.refused, h.completes, fun _ ht => ⟨h.sameFields ht, fun _ _ => h.busError_before_wait ht⟩, two_le_long⟩

/-- Settles O32: CLEAR is 0x01 and then the long wait. -/
theorem clearCompletes : Obligations.ClearCompletes :=
  fun s => ⟨rfl, sendThenLongWait (clear_readyOperation s)⟩

/-- Settles O33: HOME is 0x02 and then the long wait. -/
theorem homeCompletes : Obligations.HomeCompletes :=
  fun s => ⟨rfl, sendThenLongWait (home_readyOperation s)⟩

/-! #### Display control and entry mode -/

/-- The instruction is composed from the flags just written, and the framing of its Send does not depend on them
(43_display_cursor_ops.md R160 (d)). -/
theorem resendDisplayControl_accept (flags : Byte) (s : State) :
    resendDisplayControl flags (accept s) =
      perform (s.send (0x08 ||| flags) false) (accept (s.setDisplayControlFlags flags)) := rfl

/-- The same of the entry-mode register. -/
theorem resendEntryMode_accept (flags : Byte) (s : State) :
    resendEntryMode flags (accept s) =
      perform (s.send (0x04 ||| flags) false) (accept (s.setEntryModeFlags flags)) := rfl

theorem readyOperation_of_resendDisplayControl {i : Instr} {s : State} {flags : Byte}
    (h : exec i s = inReady s fun _ => resendDisplayControl flags (accept s)) :
    ReadyOperation i s (s.setDisplayControlFlags flags) (s.send (0x08 ||| flags) false) := by
  rw [ReadyOperation, h, resendDisplayControl_accept]

theorem readyOperation_of_resendEntryMode {i : Instr} {s : State} {flags : Byte}
    (h : exec i s = inReady s fun _ => resendEntryMode flags (accept s)) :
    ReadyOperation i s (s.setEntryModeFlags flags) (s.send (0x04 ||| flags) false) := by
  rw [ReadyOperation, h, resendEntryMode_accept]

/-- Settles O36: each of the six is `resendDisplayControl` of the flags with one bit merged or cleared. -/
theorem displayControlOperations : Obligations.DisplayControlOperations := by
  intro s i op flags hmem
  have hop : encode i = [op] ∧ exec i s = inReady s fun _ => resendDisplayControl flags (accept s) := by
    simp only [List.mem_cons, List.not_mem_nil, or_false, Prod.mk.injEq] at hmem
    rcases hmem with ⟨rfl, rfl, rfl⟩ | ⟨rfl, rfl, rfl⟩ | ⟨rfl, rfl, rfl⟩ | ⟨rfl, rfl, rfl⟩ | ⟨rfl, rfl, rfl⟩ |
        ⟨rfl, rfl, rfl⟩ <;>
      exact ⟨rfl, rfl⟩
  obtain ⟨hencode, hexec⟩ := hop
  have h := readyOperation_of_resendDisplayControl hexec
  exact ⟨hencode, h.refused, h.completes, h.exists_next⟩

/-- Settles O37: each of the four is `resendEntryMode` of the flags with one bit merged or cleared. -/
theorem entryModeOperations : Obligations.EntryModeOperations := by
  intro s i op flags hmem
  have hop : encode i = [op] ∧ exec i s = inReady s fun _ => resendEntryMode flags (accept s) := by
    simp only [List.mem_cons, List.not_mem_nil, or_false, Prod.mk.injEq] at hmem
    rcases hmem with ⟨rfl, rfl, rfl⟩ | ⟨rfl, rfl, rfl⟩ | ⟨rfl, rfl, rfl⟩ | ⟨rfl, rfl, rfl⟩ <;> exact ⟨rfl, rfl⟩
  obtain ⟨hencode, hexec⟩ := hop
  have h := readyOperation_of_resendEntryMode hexec
  exact ⟨hencode, h.refused, h.completes, h.exists_next⟩

/-! #### WRITE_CHAR -/

theorem writeChar_readyOperation (s : State) (b : Byte) : ReadyOperation (.writeChar b) s s (s.send b true) := rfl

/-- Settles O39: WRITE_CHAR is the byte as it is, with RS high. -/
theorem writeCharCompletes : Obligations.WriteCharCompletes := by
  intro s b
  have h := writeChar_readyOperation s b
  exact ⟨rfl, h.refused, h.completes, h.exists_next⟩

end Sys2Proof.Proofs.DisplayCursor

/-! ### Proofs: the waits (70_reset_and_hazards.md R236, R239) -/

namespace Sys2Proof.Proofs.Waits

open Sys2Proof Sys2Proof.Machine

/-! #### The power-up wait -/

/-- The power-up wait is at least 50 ms (00_scope.md R7). -/
theorem fifty_le_powerUp {t : Timing} (h : t.WF) : 50 ≤ t.powerUp := by
  obtain ⟨hpowerUp, -⟩ := h
  exact hpowerUp

/-- Whatever the proxy answers, a list of actions takes nothing back from the trace. -/
theorem trace_prefix_runActions (as : List Action) (s : State) : s.trace <+: (runActions as s).state.trace := by
  obtain ⟨-, events, _, hspec, -⟩ := runActions_spec as s
  exact ⟨events, hspec.trace.symm⟩

/-- If what comes next takes nothing back from the trace, neither does the sequence. -/
theorem trace_prefix_andThen (p : Progress) {k : State → Progress} (hk : ∀ s, s.trace <+: (k s).state.trace) :
    p.state.trace <+: (p.andThen k).state.trace := by
  cases p with
  | going s => exact hk s
  | ended s => exact List.prefix_rfl

/-- BEGIN up to its final function-set starts with the power-up wait. -/
theorem wakeUp_eq_wait_cons (s : State) : ∃ rest, wakeUp s = .wait s.timing.powerUp :: rest := ⟨_, rfl⟩

theorem powerUp_prefix_wakeUp (s : State) :
    s.trace ++ [.dly s.timing.powerUp] <+: (runActions (wakeUp s) s).state.trace := by
  obtain ⟨rest, hrest⟩ := wakeUp_eq_wait_cons s
  rw [hrest]
  exact trace_prefix_runActions rest (s.log (.dly s.timing.powerUp))

/-- The field writes before the wake-up are no events, and the phases after it only add to the trace. -/
theorem powerUp_prefix_bringUp (lines : Byte) (cell : Cell) (s : State) :
    s.trace ++ [.dly s.timing.powerUp] <+: (bringUp lines cell s).state.trace := by
  rw [bringUp_eq]
  refine (powerUp_prefix_wakeUp (storeGeometry lines cell s)).trans (trace_prefix_andThen _ fun u => ?_)
  refine (trace_prefix_runActions _ (u.setDisplayControlFlags 0x04)).trans (trace_prefix_andThen _ fun v => ?_)
  refine (trace_prefix_runActions _ (v.setEntryModeFlags 0x02)).trans (trace_prefix_andThen _ fun w => ?_)
  exact List.prefix_rfl

/-- Returning a status is no event. -/
theorem finish_next_trace {result : Status} {p : Progress} {t : State} (h : finish result p = .next t) :
    t.trace = p.state.trace := by
  rcases finish_next h with ⟨u, rfl, rfl⟩ | rfl <;> rfl

/-- Settles O18: the wake-up starts with the wait, and nothing later in BEGIN takes an event back. -/
theorem beginWaitsForPowerUpFirst : Obligations.BeginWaitsForPowerUpFirst := by
  intro cols lines cell s t h
  have hfsm : s.fsm = .roleAssigned := by simpa [admittedIn] using exec_next_admitted h
  rw [exec_begin hfsm] at h
  obtain ⟨events, hevents⟩ := powerUp_prefix_bringUp lines cell (accept s)
  refine ⟨⟨events, ?_⟩, fifty_le_powerUp⟩
  rw [finish_next_trace h, ← hevents, List.append_assoc]
  rfl

/-! #### The Enable pulse -/

/-- The wait of the pulse is at least 1 ms (00_scope.md R7). -/
theorem one_le_pulse {t : Timing} (h : t.WF) : 1 ≤ t.pulse := by
  obtain ⟨-, -, -, -, -, hpulse⟩ := h
  exact hpulse

section
variable (rest : List Action) (L : Byte)

@[simp] theorem eventsOf_nil : eventsOf [] L = [] := rfl

@[simp] theorem eventsOf_wait_cons (ms : Nat) : eventsOf (.wait ms :: rest) L = .dly ms :: eventsOf rest L := rfl

@[simp] theorem eventsOf_drive_none_cons (level : Bool) :
    eventsOf (.drive none level :: rest) L = eventsOf rest L := rfl

@[simp] theorem eventsOf_drive_some_cons (p : Fin 8) (level : Bool) :
    eventsOf (.drive (some p) level :: rest) L =
      .rd L :: .wr (setBit L p level) :: eventsOf rest (setBit L p level) := rfl

end

/-- The pulse, with Enable on the pin `pin`. -/
theorem pulseEnable_of_en {pins : PinMap} {pin : Pin} (h : pins.en = pin) (t : Timing) :
    pulseEnable pins t =
      [.drive pin false, .wait t.pulse, .drive pin true, .wait t.pulse, .drive pin false, .wait t.pulse] := by
  subst h
  rfl

/-- Settles O28: the pulse is three drives of Enable, each followed by a wait; with Enable unused a drive makes no
event (41_byte_transmission.md R120). -/
theorem enablePulseWaits : Obligations.EnablePulseWaits := by
  intro pins t L
  refine ⟨one_le_pulse, fun p hused => ?_, fun hunused => ?_⟩
  · rw [pulseEnable_of_en hused]
    simp only [eventsOf_drive_some_cons, eventsOf_wait_cons, eventsOf_nil]
  · rw [pulseEnable_of_en hunused]
    simp only [eventsOf_drive_none_cons, eventsOf_wait_cons, eventsOf_nil]

end Sys2Proof.Proofs.Waits

/-! ### Proofs: the two streams are decoded and encoded alike (30_encoding.md R81, R82, R84, R94) -/

namespace Sys2Proof.Proofs.RoundTrip

open Sys2Proof Sys2Proof.Machine

/-! #### Instruction bytes -/

/-- An instruction kind is one byte, and that byte is read back as it (30_encoding.md R84, R94). -/
theorem decodeCommand_encode {i : Instr} (hport : i.port = .command) :
    ∃ b, encode i = [b] ∧ decodeCommand b = .ok i := by
  cases i with
  | clearDisplay => exact ⟨_, rfl, rfl⟩
  | returnHome unused => exact ⟨_, rfl, by revert unused; decide⟩
  | entryModeSet left shift => exact ⟨_, rfl, by revert left shift; decide⟩
  | displayControl display cursor blink => exact ⟨_, rfl, by revert display cursor blink; decide⟩
  | cursorShift move right unused => exact ⟨_, rfl, by revert move right unused; decide⟩
  | functionSet bus8 twoLine tallFont unused => exact ⟨_, rfl, by revert bus8 twoLine tallFont unused; decide⟩
  | setCgramAddress slot unused => exact ⟨_, rfl, by revert slot unused; decide⟩
  | setDdramAddress address => exact ⟨_, rfl, by revert address; decide⟩
  | _ => cases hport

/-- What a byte is read as is one of the eight kinds, and is written as that byte. -/
theorem encode_of_decodeCommand {c : Byte} {i : Instr} (h : decodeCommand c = .ok i) :
    i.port = .command ∧ i.wellFormed = true ∧ encode i = [c] := by
  have hall : ∀ c : Byte, ∀ i ∈ (decodeCommand c).toOption,
      i.port = .command ∧ i.wellFormed = true ∧ encode i = [c] := by decide
  exact hall c i (by rw [h]; rfl)

/-! #### Host operands -/

theorem bind_eq_ok {α β : Type} {x : Except Reject α} {f : α → Except Reject β} {r : β} :
    (x >>= f) = .ok r ↔ ∃ a, x = .ok a ∧ f a = .ok r := by
  cases x <;> simp [bind, Except.bind]

theorem readByte_ok {bytes rest : List Byte} {b : Byte} (h : readByte bytes = .ok (b, rest)) : bytes = b :: rest := by
  cases bytes with
  | nil => cases h
  | cons c bytes => cases h; rfl

theorem readBool_ok {bytes rest : List Byte} {b : Bool} (h : readBool bytes = .ok (b, rest)) :
    bytes = encodeBool b :: rest := by
  cases bytes with
  | nil => cases h
  | cons c bytes =>
    simp only [readBool] at h
    split at h
    · cases h; simp_all [encodeBool]
    · split at h
      · cases h; simp_all [encodeBool]
      · cases h

theorem readCell_ok {bytes rest : List Byte} {c : Cell} (h : readCell bytes = .ok (c, rest)) :
    bytes = encodeCell c :: rest := by
  cases bytes with
  | nil => cases h
  | cons b bytes =>
    simp only [readCell] at h
    split at h
    · cases h; simp_all [encodeCell]
    · split at h
      · cases h; simp_all [encodeCell]
      · cases h

theorem readPin_ok {bytes rest : List Byte} {p : Pin} (h : readPin bytes = .ok (p, rest)) :
    bytes = encodePin p :: rest := by
  cases bytes with
  | nil => cases h
  | cons b bytes =>
    simp only [readPin] at h
    split at h
    · cases h; simp_all [encodePin]
    · split at h
      · cases h; simp [encodePin]
      · cases h

theorem readPinMap_ok {bytes rest : List Byte} {m : PinMap} (h : readPinMap bytes = .ok (m, rest)) :
    bytes = encodePinMap m ++ rest := by
  simp only [readPinMap, bind_eq_ok, Prod.exists] at h
  obtain ⟨rs, _, h1, rw, _, h2, en, _, h3, d0, _, h4, d1, _, h5, d2, _, h6, d3, _, h7, d4, _, h8, d5, _, h9, d6, _, h10,
    d7, _, h11, hm⟩ := h
  cases hm
  simp [encodePinMap, readPin_ok h1, readPin_ok h2, readPin_ok h3, readPin_ok h4, readPin_ok h5, readPin_ok h6,
    readPin_ok h7, readPin_ok h8, readPin_ok h9, readPin_ok h10, readPin_ok h11]

theorem readGlyph_ok {bytes rest : List Byte} {g : Glyph} (h : readGlyph bytes = .ok (g, rest)) :
    bytes = g.bytes ++ rest := by
  unfold readGlyph at h
  split at h
  · cases h; rfl
  · cases h

/-! #### Host operations -/

theorem decodeHost_encode {i : Instr} (hport : i.port = .host) (hwf : i.wellFormed = true) (rest : List Byte) :
    decodeHost (encode i ++ rest) = .ok (i, rest) := by
  cases i with
  | writeString text =>
    simp [encode, decodeHost, readText_append text rest hwf, bind, Except.bind, pure, Except.pure]
  | clearDisplay | returnHome _ | entryModeSet _ _ | displayControl _ _ _ | cursorShift _ _ _ | functionSet _ _ _ _
  | setCgramAddress _ _ | setDdramAddress _ => cases hport
  | _ => simp [encode, decodeHost, bind, Except.bind, pure, Except.pure]

/-- A byte is known by its number. -/
theorem byte_eq {b : Byte} {n : Nat} (h : b.toNat = n) : b = BitVec.ofNat 8 n := by
  rw [← h, BitVec.ofNat_toNat, BitVec.setWidth_eq]

theorem encode_of_decodeHost {bytes rest : List Byte} {i : Instr} (h : decodeHost bytes = .ok (i, rest)) :
    i.port = .host ∧ i.wellFormed = true ∧ bytes = encode i ++ rest := by
  cases bytes with
  | nil => cases h
  | cons op bytes =>
    simp only [decodeHost] at h
    split at h
    case h_1 hop =>
      simp only [bind_eq_ok, Prod.exists] at h
      obtain ⟨bus8, _, hbus8, pins, _, hpins, h⟩ := h
      cases h
      exact ⟨rfl, rfl, by rw [byte_eq hop, readBool_ok hbus8, readPinMap_ok hpins]; rfl⟩
    case h_2 hop =>
      simp only [bind_eq_ok, Prod.exists] at h
      obtain ⟨cols, _, hcols, lines, _, hlines, cell, _, hcell, h⟩ := h
      cases h
      exact ⟨rfl, rfl, by rw [byte_eq hop, readByte_ok hcols, readByte_ok hlines, readCell_ok hcell]; rfl⟩
    case h_5 hop =>
      simp only [bind_eq_ok, Prod.exists] at h
      obtain ⟨col, _, hcol, row, _, hrow, h⟩ := h
      cases h
      exact ⟨rfl, rfl, by rw [byte_eq hop, readByte_ok hcol, readByte_ok hrow]; rfl⟩
    case h_18 hop =>
      simp only [bind_eq_ok, Prod.exists] at h
      obtain ⟨b, _, hb, h⟩ := h
      cases h
      exact ⟨rfl, rfl, by rw [byte_eq hop, readByte_ok hb]; rfl⟩
    case h_19 hop =>
      simp only [bind_eq_ok, Prod.exists] at h
      obtain ⟨text, _, htext, h⟩ := h
      cases h
      obtain ⟨hwf, hbytes⟩ := readText_ok htext
      exact ⟨rfl, hwf, by rw [byte_eq hop, hbytes]; simp [encode]⟩
    case h_20 hop =>
      simp only [bind_eq_ok, Prod.exists] at h
      obtain ⟨slot, _, hslot, pattern, _, hpattern, h⟩ := h
      cases h
      exact ⟨rfl, rfl, by rw [byte_eq hop, readByte_ok hslot, readGlyph_ok hpattern]; rfl⟩
    case h_21 hop =>
      simp only [bind_eq_ok, Prod.exists] at h
      obtain ⟨on, _, hon, h⟩ := h
      cases h
      exact ⟨rfl, rfl, by rw [byte_eq hop, readBool_ok hon]; rfl⟩
    case h_22 => cases h
    all_goals
      rename_i hop
      cases h
      exact ⟨rfl, rfl, by rw [byte_eq hop]; rfl⟩

/-! #### Both streams -/

/-- Settles O1: the operand readers undo the operand encoders, and an instruction byte is read by its highest bit. -/
theorem decodeEncodeRoundTrip : Obligations.DecodeEncodeRoundTrip := by
  intro i rest hwf
  cases hport : i.port with
  | host => exact decodeHost_encode hport hwf rest
  | command =>
    obtain ⟨b, hencode, hdecode⟩ := decodeCommand_encode hport
    simp only [hencode, List.singleton_append, decodeAt, hdecode]

/-- Settles O2: an operand that is read is the encoding of what is read, for every reader. -/
theorem decodedBytesAreTheEncoding : Obligations.DecodedBytesAreTheEncoding := by
  intro port bytes rest i h
  cases port with
  | host => exact encode_of_decodeHost h
  | command =>
    cases bytes with
    | nil => cases h
    | cons c bytes =>
      simp only [decodeAt] at h
      split at h
      · rename_i hdecode
        cases h
        obtain ⟨hport, hwf, hencode⟩ := encode_of_decodeCommand hdecode
        exact ⟨hport, hwf, by rw [hencode]; rfl⟩
      · cases h

/-- Settles O3: the decoders evaluated on each word. -/
theorem writtenOutWordsDecode : Obligations.WrittenOutWordsDecode := by
  unfold Obligations.WrittenOutWordsDecode
  decide

/-- Settles O4: the fields of each kind, for every value of them. -/
theorem instructionByteLayout : Obligations.InstructionByteLayout :=
  ⟨rfl, rfl, fun _ _ => ⟨_, rfl, by decide +revert⟩, fun _ _ _ => ⟨_, rfl, by decide +revert⟩,
    fun _ _ => ⟨_, rfl, by decide +revert⟩, fun _ _ _ => ⟨_, rfl, by decide +revert⟩,
    fun _ => ⟨_, rfl, by decide +revert⟩, fun _ => ⟨_, rfl, by decide +revert⟩⟩

/-- Settles O5: a mask and match pair says which bit is the highest that is set. -/
theorem commandKindByHighestBit : Obligations.CommandKindByHighestBit := by
  intro c
  have hbits : (c &&& 0x80 = 0x80 → c.getLsbD 7 = true)
      ∧ (c &&& 0xC0 = 0x40 → c.getLsbD 7 = false ∧ c.getLsbD 6 = true)
      ∧ (c &&& 0xE0 = 0x20 → c.getLsbD 7 = false ∧ c.getLsbD 6 = false ∧ c.getLsbD 5 = true)
      ∧ (c &&& 0xF0 = 0x10 → c.getLsbD 7 = false ∧ c.getLsbD 6 = false ∧ c.getLsbD 5 = false ∧ c.getLsbD 4 = true)
      ∧ (c &&& 0xF8 = 0x08 → c.getLsbD 7 = false ∧ c.getLsbD 6 = false ∧ c.getLsbD 5 = false ∧ c.getLsbD 4 = false
        ∧ c.getLsbD 3 = true)
      ∧ (c &&& 0xFC = 0x04 → c.getLsbD 7 = false ∧ c.getLsbD 6 = false ∧ c.getLsbD 5 = false ∧ c.getLsbD 4 = false
        ∧ c.getLsbD 3 = false ∧ c.getLsbD 2 = true)
      ∧ (c &&& 0xFE = 0x02 → c.getLsbD 7 = false ∧ c.getLsbD 6 = false ∧ c.getLsbD 5 = false ∧ c.getLsbD 4 = false
        ∧ c.getLsbD 3 = false ∧ c.getLsbD 2 = false ∧ c.getLsbD 1 = true) := by
    revert c
    decide
  obtain ⟨hddram, hcgram, hfunction, hshift, hdisplay, hentry, hhome⟩ := hbits
  refine ⟨fun h => ?_, fun h => ?_, fun h => ?_, fun h => ?_, fun h => ?_, fun h => ?_, fun h => ?_, ?_, ?_⟩
  · exact ⟨_, by simp only [decodeCommand, hddram h, if_true]; rfl⟩
  · exact ⟨_, _, by simp only [decodeCommand, hcgram h, Bool.false_eq_true, if_false, if_true]; rfl⟩
  · exact ⟨_, _, _, _, by simp only [decodeCommand, hfunction h, Bool.false_eq_true, if_false, if_true]; rfl⟩
  · exact ⟨_, _, _, by simp only [decodeCommand, hshift h, Bool.false_eq_true, if_false, if_true]; rfl⟩
  · exact ⟨_, _, _, by simp only [decodeCommand, hdisplay h, Bool.false_eq_true, if_false, if_true]; rfl⟩
  · exact ⟨_, _, by simp only [decodeCommand, hentry h, Bool.false_eq_true, if_false, if_true]; rfl⟩
  · exact ⟨_, by simp only [decodeCommand, hhome h, Bool.false_eq_true, if_false, if_true]; rfl⟩
  · rintro rfl; rfl
  · rintro rfl; rfl

end Sys2Proof.Proofs.RoundTrip

/-! ### Proofs: host bytes that begin no operation (30_encoding.md R81, R92) -/

namespace Sys2Proof.Proofs.Rejections

open Sys2Proof Sys2Proof.Machine

/-! #### Operands outside their values -/

theorem decodeHost_unassigned {op : Byte} (hop : 0x15 ≤ op) (bytes : List Byte) :
    decodeHost (op :: bytes) = .error (.unassignedOpcode op) := by
  have hle : 21 ≤ op.toNat := BitVec.le_def.mp hop
  simp only [decodeHost]
  split
  case h_22 => rfl
  all_goals omega

theorem ne_zero_and_one {b : Byte} (hb : 1 < b) : b ≠ 0x00 ∧ b ≠ 0x01 := by
  constructor <;> rintro rfl <;> exact absurd hb (by decide)

theorem readBool_bad {b : Byte} (hb : 1 < b) (bytes : List Byte) : readBool (b :: bytes) = .error (.badBool b) := by
  obtain ⟨hzero, hone⟩ := ne_zero_and_one hb
  simp only [readBool, if_neg hzero, if_neg hone]

theorem readCell_bad {b : Byte} (hb : 1 < b) (bytes : List Byte) : readCell (b :: bytes) = .error (.badCell b) := by
  obtain ⟨hzero, hone⟩ := ne_zero_and_one hb
  simp only [readCell, if_neg hzero, if_neg hone]

theorem readBool_good {b : Byte} (hb : b ≤ 1) (bytes : List Byte) : ∃ v, readBool (b :: bytes) = .ok (v, bytes) := by
  have hcases : b = 0x00 ∨ b = 0x01 := by
    revert b
    decide
  rcases hcases with rfl | rfl
  · exact ⟨false, rfl⟩
  · exact ⟨true, rfl⟩

/-- A byte that is no pin value (10_state.md R25). -/
def BadPin (b : Byte) : Prop := 0x08 ≤ b ∧ b ≠ 0xFF

theorem readPin_bad {b : Byte} (hb : BadPin b) (bytes : List Byte) : readPin (b :: bytes) = .error (.badPin b) := by
  obtain ⟨hle, hne⟩ := hb
  have hlt : ¬ b.toNat < 8 := Nat.not_lt.mpr (BitVec.le_def.mp hle)
  simp only [readPin, if_neg hne, dif_neg hlt]

theorem readPin_good {b : Byte} (hb : ¬ BadPin b) (bytes : List Byte) : ∃ p, readPin (b :: bytes) = .ok (p, bytes) := by
  by_cases hunused : b = 0xFF
  · exact ⟨none, by simp only [readPin, if_pos hunused]⟩
  · have hlt : b.toNat < 8 := Nat.lt_of_not_le fun hle => hb ⟨BitVec.le_def.mpr hle, hunused⟩
    exact ⟨some ⟨b.toNat, hlt⟩, by simp only [readPin, if_neg hunused, dif_pos hlt]⟩

/-- A run that begins with a pin operand is rejected for a bad pin of it, if it is rejected for one of the later pins
whenever one of those is bad. -/
theorem readPin_bind_bad {β : Type} {k : Pin × List Byte → Except Reject β} {b : Byte} {pins bytes : List Byte}
    (hbad : ∃ x ∈ b :: pins, BadPin x)
    (hk : ∀ p, (∃ x ∈ pins, BadPin x) → ∃ x ∈ pins, BadPin x ∧ k (p, pins ++ bytes) = .error (.badPin x)) :
    ∃ x ∈ b :: pins, BadPin x ∧ (readPin (b :: (pins ++ bytes)) >>= k) = .error (.badPin x) := by
  by_cases hb : BadPin b
  · exact ⟨b, List.mem_cons_self, hb, by rw [readPin_bad hb]; rfl⟩
  · obtain ⟨p, hp⟩ := readPin_good hb (pins ++ bytes)
    have hlater : ∃ x ∈ pins, BadPin x := by
      obtain ⟨x, hx, hbadx⟩ := hbad
      rcases List.mem_cons.mp hx with rfl | hx
      · exact absurd hbadx hb
      · exact ⟨x, hx, hbadx⟩
    obtain ⟨x, hx, hbadx, hxk⟩ := hk p hlater
    exact ⟨x, List.mem_cons_of_mem b hx, hbadx, by rw [hp]; exact hxk⟩

theorem readPinMap_bad {pins : List Byte} (bytes : List Byte) (hlength : pins.length = 11)
    (hbad : ∃ x ∈ pins, BadPin x) : ∃ x ∈ pins, BadPin x ∧ readPinMap (pins ++ bytes) = .error (.badPin x) := by
  obtain ⟨b0, b1, b2, b3, b4, b5, b6, b7, b8, b9, b10, rfl⟩ :
      ∃ b0 b1 b2 b3 b4 b5 b6 b7 b8 b9 b10, pins = [b0, b1, b2, b3, b4, b5, b6, b7, b8, b9, b10] :=
    match pins, hlength with
    | [b0, b1, b2, b3, b4, b5, b6, b7, b8, b9, b10], _ => ⟨b0, b1, b2, b3, b4, b5, b6, b7, b8, b9, b10, rfl⟩
  unfold readPinMap
  iterate 11 refine readPin_bind_bad (bytes := bytes) hbad fun _ hbad => ?_
  obtain ⟨x, hx, -⟩ := hbad
  cases hx

/-! #### Incomplete operations (log 17) -/

theorem readPinMap_truncated (m : PinMap) {n : Nat} (hn : n < 11) :
    readPinMap ((encodePinMap m).take n) = .error .truncated := by
  interval_cases n <;> simp [readPinMap, encodePinMap, bind, Except.bind] <;> rfl

theorem readGlyph_truncated (g : Glyph) {n : Nat} (hn : n < 8) : readGlyph (g.bytes.take n) = .error .truncated := by
  interval_cases n <;> rfl

theorem readText_unterminated {text : List Byte} (h : text.all (· != 0x00) = true) :
    readText text = .error .unterminated := by
  induction text with
  | nil => rfl
  | cons c text ih =>
    simp only [List.all_cons, Bool.and_eq_true, bne_iff_ne] at h
    obtain ⟨hc, htext⟩ := h
    rw [readText, if_neg hc, ih htext]

theorem decodeHost_truncated {i : Instr} {n : Nat} (hport : i.port = .host) (hn : n + 1 < (encode i).length)
    (hi : ∀ text, i ≠ .writeString text) : decodeHost ((encode i).take (n + 1)) = .error .truncated := by
  cases i with
  | init bus8 pins =>
    cases n with
    | zero => rfl
    | succ n =>
      have hpins : n < 11 := by simp [encode, encodePinMap] at hn; omega
      simp [encode, decodeHost, readPinMap_truncated pins hpins, bind, Except.bind]
  | begin cols lines cell =>
    have hlt : n < 3 := by simp [encode] at hn; omega
    interval_cases n <;> rfl
  | setCursor col row =>
    have hlt : n < 2 := by simp [encode] at hn; omega
    interval_cases n <;> rfl
  | writeChar b | setBacklight on =>
    have hlt : n < 1 := by simp [encode] at hn; omega
    interval_cases n
    rfl
  | writeString text => exact absurd rfl (hi text)
  | createChar slot pattern =>
    cases n with
    | zero => rfl
    | succ n =>
      have hpattern : n < 8 := by simp [encode, Glyph.bytes] at hn; omega
      simp [encode, decodeHost, readGlyph_truncated pattern hpattern, bind, Except.bind]
  | clearDisplay | returnHome _ | entryModeSet _ _ | displayControl _ _ _ | cursorShift _ _ _ | functionSet _ _ _ _
  | setCgramAddress _ _ | setDdramAddress _ => cases hport
  | _ => simp [encode] at hn

theorem decodeHost_unterminated {text : List Byte} {n : Nat} (hwf : (Instr.writeString text).wellFormed = true)
    (hn : n + 1 < (encode (.writeString text)).length) :
    decodeHost ((encode (.writeString text)).take (n + 1)) = .error .unterminated := by
  have hle : n ≤ text.length := by
    simp [encode] at hn
    omega
  have htext : (text.take n).all (· != 0x00) = true :=
    List.all_eq_true.mpr fun c hc => List.all_eq_true.mp hwf c (List.mem_of_mem_take hc)
  simp [encode, List.take_append_of_le_length hle, decodeHost, readText_unterminated htext, bind, Except.bind]

/-- Settles O6: each reader rejects what it has no value for, and a beginning ends inside one of the readers. -/
theorem hostBytesWithoutMeaningRefused : Obligations.HostBytesWithoutMeaningRefused := by
  refine ⟨fun op bytes hop => decodeHost_unassigned hop bytes, fun b bytes hb => ⟨?_, ?_, fun cols lines => ?_⟩,
    ?_, ?_, ?_⟩
  · simp [decodeHost, readBool_bad hb, bind, Except.bind]
  · simp [decodeHost, readBool_bad hb, bind, Except.bind]
  · simp [decodeHost, readCell_bad hb, bind, Except.bind]
  · intro bus8 pins bytes hbus8 hlength hbad
    obtain ⟨v, hv⟩ := readBool_good hbus8 (pins ++ bytes)
    obtain ⟨b, hb, ⟨hle, hne⟩, hmap⟩ := readPinMap_bad bytes hlength hbad
    exact ⟨b, hb, hle, hne, by simp [decodeHost, hv, hmap, bind, Except.bind]⟩
  · intro i n hport _ hn htext
    cases n with
    | zero => rfl
    | succ n => exact decodeHost_truncated hport hn (htext.resolve_left (Nat.succ_ne_zero n))
  · intro text n hwf hpos hn
    cases n with
    | zero => cases hpos
    | succ n => exact decodeHost_unterminated hwf hn

end Sys2Proof.Proofs.Rejections

/-! ### Proofs: what a step takes from the ports (10_state.md R22, 70_reset_and_hazards.md R246, R248) -/

namespace Sys2Proof.Proofs.Steps

open Sys2Proof Sys2Proof.Machine Sys2Proof.Proofs.RoundTrip

/-! #### The step -/

theorem step_waiting {s : State} (h : s.waiting = true) : step s = .fault .transactionUnanswered := by
  simp [step, fetch, h]

theorem step_idle {s : State} (hwaiting : s.waiting = false) (hcommand : s.commandPort = []) (hhost : s.hostPort = []) :
    step s = .next s := by
  simp [step, fetch, hwaiting, hcommand, hhost]

/-- What the step does with the answer of a decoder. -/
theorem step_command {s : State} {c : Byte} {bytes : List Byte} (hwaiting : s.waiting = false)
    (hcommand : s.commandPort = c :: bytes) :
    step s = match decodeAt .command (c :: bytes) with
      | .ok (i, rest) => exec i (s.setCommandPort rest)
      | .error why => .refused (.undecodable why) := by
  simp only [step, fetch, hwaiting, hcommand, takeFrom, Bool.false_eq_true, if_false]
  cases decodeAt .command (c :: bytes) <;> rfl

theorem step_host {s : State} {b : Byte} {bytes : List Byte} (hwaiting : s.waiting = false)
    (hcommand : s.commandPort = []) (hhost : s.hostPort = b :: bytes) :
    step s = match decodeAt .host (b :: bytes) with
      | .ok (i, rest) => exec i (s.setHostPort rest)
      | .error why => .refused (.undecodable why) := by
  simp only [step, fetch, hwaiting, hcommand, hhost, takeFrom, Bool.false_eq_true, if_false]
  cases decodeAt .host (b :: bytes) <;> rfl

/-- No instruction stands on an empty stream. -/
theorem decodeAt_nil (port : Port) : decodeAt port [] = .error .truncated := by
  cases port <;> rfl

theorem cons_of_decodeAt_ok {port : Port} {bytes : List Byte} {r : Instr × List Byte}
    (h : decodeAt port bytes = .ok r) : ∃ b rest, bytes = b :: rest := by
  cases bytes with
  | nil => rw [decodeAt_nil] at h; cases h
  | cons b rest => exact ⟨b, rest, rfl⟩

/-- What stands first at the command port decodes, so the port is not empty and the step takes it. -/
theorem step_command_decoded {s : State} {i : Instr} {rest : List Byte} (hwaiting : s.waiting = false)
    (h : decodeAt .command s.commandPort = .ok (i, rest)) : step s = exec i (s.setCommandPort rest) := by
  obtain ⟨c, bytes, hbytes⟩ := cons_of_decodeAt_ok h
  rw [step_command hwaiting hbytes, ← hbytes, h]

/-- The same of the host port, if no command waits. -/
theorem step_host_decoded {s : State} {i : Instr} {rest : List Byte} (hwaiting : s.waiting = false)
    (hcommand : s.commandPort = []) (h : decodeAt .host s.hostPort = .ok (i, rest)) :
    step s = exec i (s.setHostPort rest) := by
  obtain ⟨b, bytes, hbytes⟩ := cons_of_decodeAt_ok h
  rw [step_host hwaiting hcommand hbytes, ← hbytes, h]

/-- Settles O9: the step takes what decodes at a port. -/
theorem stepRunsTheDecodedInstruction : Obligations.StepRunsTheDecodedInstruction :=
  fun _ _ _ hwaiting => ⟨step_command_decoded hwaiting, step_host_decoded hwaiting⟩

/-- Settles O10: the presented bytes decode to the operation (O1), and the step runs what decodes (O9). -/
theorem presentedOperationRuns : Obligations.PresentedOperationRuns := by
  intro s i rest hwaiting hcommand hport hwf hhost
  have hdecode : decodeAt .host s.hostPort = .ok (i, rest) := by
    rw [hhost]
    exact decodeHost_encode hport hwf rest
  exact step_host_decoded hwaiting hcommand hdecode

/-- Settles O11: the four ways in which `fetch` takes no instruction. -/
theorem stepWithoutAnInstruction : Obligations.StepWithoutAnInstruction := by
  refine fun s => ⟨step_waiting, step_idle, fun b bytes why hwaiting hcommand hhost hdecode => ?_,
    fun bytes hwaiting hcommand => ?_⟩
  · rw [step_host hwaiting hcommand hhost]
    simp only [decodeAt, hdecode]
  · rw [step_command hwaiting hcommand]
    rfl

/-! #### A placed table word -/

/-- The bytes a decoded table word takes up are the encoding of its instruction, for the port they are read at. -/
theorem tableWordBytes_eq_encode {nbits w : Nat} {i : Instr} (h : decodeTableWord nbits w = some i) :
    tablePort nbits w = i.port ∧ i.wellFormed = true ∧ tableWordBytes nbits w = encode i := by
  unfold decodeTableWord at h
  split at h
  · rename_i j rest hdecode
    cases h
    obtain ⟨hport, hwf, hbytes⟩ := decodedBytesAreTheEncoding _ _ _ _ hdecode
    refine ⟨hport.symm, hwf, ?_⟩
    simp only [tableWordBytes, hdecode]
    rw [hbytes]
    simp
  · cases h

/-- Settles O12: the placed bytes are the instruction's encoding, so they decode to it (O1) and the step runs it. -/
theorem placedWordRuns : Obligations.PlacedWordRuns := by
  intro s nbits w i h
  obtain ⟨hport, hwf, hbytes⟩ := tableWordBytes_eq_encode h
  have hdecode (rest : List Byte) : decodeAt i.port (encode i ++ rest) = .ok (i, rest) :=
    decodeEncodeRoundTrip i rest hwf
  constructor <;> intro hi <;> rw [hi] at hport hdecode <;> simp only [State.withFetchWord, placeWord, hport, hbytes]
  · exact step_host_decoded rfl rfl (hdecode s.hostPort)
  · exact step_command_decoded rfl (hdecode s.commandPort)

/-! #### Reset -/

/-- Settles O8: nothing is presented at reset, and INIT is the one host operation defined in `Unconfigured`. -/
theorem resetCreatesAnIdleUnconfiguredBlock : Obligations.ResetCreatesAnIdleUnconfiguredBlock := by
  refine fun latch0 => ⟨rfl, rfl, rfl, rfl, rfl, step_idle rfl rfl rfl, fun i t hport h => ?_⟩
  have hadmitted : admittedIn i .unconfigured = true := exec_next_admitted h
  cases i with
  | init bus8 pins => exact ⟨bus8, pins, rfl⟩
  | clearDisplay | returnHome _ | entryModeSet _ _ | displayControl _ _ _ | cursorShift _ _ _ | functionSet _ _ _ _
  | setCgramAddress _ _ | setDdramAddress _ => cases hport
  | _ => cases hadmitted

end Sys2Proof.Proofs.Steps

/-! ### Proofs: every instruction is a field write and one run of actions (20_memory.md R62) -/

namespace Sys2Proof.Proofs.Runs

open Sys2Proof Sys2Proof.Machine

/-! #### Field writes -/

/-- A write of the block's own fields: it touches neither what the block puts out nor the proxy's answers, and commutes
with every update a run of actions makes. -/
structure FieldWrite (f : State → State) : Prop where
  latch : ∀ s, (f s).latch = s.latch
  replies : ∀ s, (f s).replies = s.replies
  trace : ∀ s, (f s).trace = s.trace
  sent : ∀ s, (f s).sent = s.sent
  status : ∀ s, (f s).status = s.status
  waiting : ∀ s, (f s).waiting = s.waiting
  setLatch : ∀ s v, f (s.setLatch v) = (f s).setLatch v
  setReplies : ∀ s v, f (s.setReplies v) = (f s).setReplies v
  setStatus : ∀ s v, f (s.setStatus v) = (f s).setStatus v
  setWaiting : ∀ s v, f (s.setWaiting v) = (f s).setWaiting v
  log : ∀ s v, f (s.log v) = (f s).log v
  recordSent : ∀ s v, f (s.recordSent v) = (f s).recordSent v

theorem fieldWrite_id : FieldWrite fun s => s := by constructor <;> intros <;> rfl
theorem fieldWrite_setFsm (v : Fsm) : FieldWrite fun s => s.setFsm v := by constructor <;> intros <;> rfl
theorem fieldWrite_setPinMap (v : PinMap) : FieldWrite fun s => s.setPinMap v := by constructor <;> intros <;> rfl
theorem fieldWrite_setModeFlags (v : Byte) : FieldWrite fun s => s.setModeFlags v := by
  constructor <;> intros <;> rfl
theorem fieldWrite_setDisplayControlFlags (v : Byte) : FieldWrite fun s => s.setDisplayControlFlags v := by
  constructor <;> intros <;> rfl
theorem fieldWrite_setEntryModeFlags (v : Byte) : FieldWrite fun s => s.setEntryModeFlags v := by
  constructor <;> intros <;> rfl
theorem fieldWrite_setLineCount (v : Byte) : FieldWrite fun s => s.setLineCount v := by constructor <;> intros <;> rfl
theorem fieldWrite_setCurrentLine (v : Byte) : FieldWrite fun s => s.setCurrentLine v := by
  constructor <;> intros <;> rfl
theorem fieldWrite_storeGeometry (lines : Byte) (cell : Cell) : FieldWrite (storeGeometry lines cell) := by
  constructor <;> intros <;> rfl

theorem FieldWrite.comp {f g : State → State} (hf : FieldWrite f) (hg : FieldWrite g) :
    FieldWrite fun s => f (g s) where
  latch s := by rw [hf.latch, hg.latch]
  replies s := by rw [hf.replies, hg.replies]
  trace s := by rw [hf.trace, hg.trace]
  sent s := by rw [hf.sent, hg.sent]
  status s := by rw [hf.status, hg.status]
  waiting s := by rw [hf.waiting, hg.waiting]
  setLatch s v := by rw [hg.setLatch, hf.setLatch]
  setReplies s v := by rw [hg.setReplies, hf.setReplies]
  setStatus s v := by rw [hg.setStatus, hf.setStatus]
  setWaiting s v := by rw [hg.setWaiting, hf.setWaiting]
  log s v := by rw [hg.log, hf.log]
  recordSent s v := by rw [hg.recordSent, hf.recordSent]

/-- A field write after a progress. -/
def mapState (f : State → State) : Progress → Progress
  | .going s => .going (f s)
  | .ended s => .ended (f s)

@[simp] theorem mapState_going (f : State → State) (s : State) : mapState f (.going s) = .going (f s) := rfl

section
variable {f : State → State} (hf : FieldWrite f)
include hf

theorem FieldWrite.nextReply (s : State) : nextReply (f s) = nextReply s := by
  rw [Machine.nextReply, hf.replies, Machine.nextReply]

theorem FieldWrite.dropReply (s : State) : dropReply (f s) = f (dropReply s) := by
  rw [Machine.dropReply, hf.replies, ← hf.setReplies, Machine.dropReply]

theorem FieldWrite.wrReg (v : Byte) (s : State) : wrReg v (f s) = mapState f (wrReg v s) := by
  simp only [Machine.wrReg, hf.nextReply, hf.dropReply, raiseBusError]
  cases Machine.nextReply s <;>
    simp only [mapState, hf.setLatch, hf.log, hf.setStatus, hf.setWaiting]

theorem FieldWrite.readModifyWrite (p : Fin 8) (level : Bool) (s : State) :
    readModifyWrite p level (f s) = mapState f (readModifyWrite p level s) := by
  simp only [Machine.readModifyWrite, rdReg, hf.nextReply, hf.dropReply, hf.latch, raiseBusError]
  cases Machine.nextReply s <;>
    simp only [mapState, ← hf.log, ← hf.setStatus, ← hf.setWaiting, hf.wrReg]

theorem FieldWrite.runAction (a : Action) (s : State) : runAction a (f s) = mapState f (runAction a s) := by
  rcases a with ⟨_ | p, level⟩ | ms | ⟨b, isData⟩
  · rfl
  · exact hf.readModifyWrite p level s
  · simp only [Machine.runAction, delay, mapState, hf.log]
  · simp only [Machine.runAction, mapState, hf.recordSent]

/-- A run of actions does not look at the fields. -/
theorem FieldWrite.runActions (as : List Action) (s : State) : runActions as (f s) = mapState f (runActions as s) := by
  induction as generalizing s with
  | nil => rfl
  | cons a rest ih =>
    rw [runActions_cons, runActions_cons, hf.runAction]
    cases Machine.runAction a s with
    | going t => exact ih t
    | ended t => rfl

end

/-! #### What the plans write and send -/

/-- The six operations on `display_control_flags` (43_display_cursor_ops.md section 4). -/
def displayOps : List Instr := [.displayOn, .displayOff, .cursorOn, .cursorOff, .blinkOn, .blinkOff]

/-- The four operations on `entry_mode_flags` (43_display_cursor_ops.md section 6). -/
def entryOps : List Instr := [.leftToRight, .rightToLeft, .autoscrollOn, .autoscrollOff]

theorem not_lifecycle_of_mem_displayOps {i : Instr} (hi : i ∈ displayOps) :
    (∀ b p, i ≠ .init b p) ∧ ∀ c l ce, i ≠ .begin c l ce := by
  constructor
  · rintro b p rfl
    simp [displayOps] at hi
  · rintro c l ce rfl
    simp [displayOps] at hi

theorem not_lifecycle_of_mem_entryOps {i : Instr} (hi : i ∈ entryOps) :
    (∀ b p, i ≠ .init b p) ∧ ∀ c l ce, i ≠ .begin c l ce := by
  constructor
  · rintro b p rfl
    simp [entryOps] at hi
  · rintro c l ce rfl
    simp [entryOps] at hi

/-- A display-control operation writes its register and sends it, and its unused bits stay 0 (10_state.md R28). -/
theorem plan_displayOps {i : Instr} (hi : i ∈ displayOps) (s : State) :
    ∃ flags, plan s i = (s.setDisplayControlFlags flags, s.command (displayControlByte flags))
      ∧ (s.displayControlFlags &&& 0xF8 = 0 → flags &&& 0xF8 = 0) := by
  simp only [displayOps, List.mem_cons, List.not_mem_nil, or_false] at hi
  rcases hi with rfl | rfl | rfl | rfl | rfl | rfl
  · exact ⟨_, rfl, fun h => mergeFlag_reserved _ _ _ h rfl⟩
  · exact ⟨_, rfl, clearFlag_reserved _ _ _⟩
  · exact ⟨_, rfl, fun h => mergeFlag_reserved _ _ _ h rfl⟩
  · exact ⟨_, rfl, clearFlag_reserved _ _ _⟩
  · exact ⟨_, rfl, fun h => mergeFlag_reserved _ _ _ h rfl⟩
  · exact ⟨_, rfl, clearFlag_reserved _ _ _⟩

/-- An entry-mode operation writes its register and sends it, and its unused bits stay 0 (10_state.md R29). -/
theorem plan_entryOps {i : Instr} (hi : i ∈ entryOps) (s : State) :
    ∃ flags, plan s i = (s.setEntryModeFlags flags, s.command (entryModeByte flags))
      ∧ (s.entryModeFlags &&& 0xFC = 0 → flags &&& 0xFC = 0) := by
  simp only [entryOps, List.mem_cons, List.not_mem_nil, or_false] at hi
  rcases hi with rfl | rfl | rfl | rfl
  · exact ⟨_, rfl, fun h => mergeFlag_reserved _ _ _ h rfl⟩
  · exact ⟨_, rfl, clearFlag_reserved _ _ _⟩
  · exact ⟨_, rfl, fun h => mergeFlag_reserved _ _ _ h rfl⟩
  · exact ⟨_, rfl, clearFlag_reserved _ _ _⟩

/-- The other plans write no field. -/
theorem plan_state {i : Instr} (hdisplay : i ∉ displayOps) (hentry : i ∉ entryOps) (s : State) : (plan s i).1 = s := by
  cases i with
  | setCursor col row =>
    simp only [plan]
    split <;> rfl
  | displayOn | displayOff | cursorOn | cursorOff | blinkOn | blinkOff => exact absurd (by decide) hdisplay
  | leftToRight | rightToLeft | autoscrollOn | autoscrollOff => exact absurd (by decide) hentry
  | _ => rfl

/-- Every plan begins with a field write. -/
theorem plan_fieldWrite (i : Instr) (s : State) : ∃ f, FieldWrite f ∧ (plan s i).1 = f s := by
  by_cases hdisplay : i ∈ displayOps
  · obtain ⟨flags, hplan, -⟩ := plan_displayOps hdisplay s
    exact ⟨_, fieldWrite_setDisplayControlFlags flags, by rw [hplan]⟩
  · by_cases hentry : i ∈ entryOps
    · obtain ⟨flags, hplan, -⟩ := plan_entryOps hentry s
      exact ⟨_, fieldWrite_setEntryModeFlags flags, by rw [hplan]⟩
    · exact ⟨_, fieldWrite_id, plan_state hdisplay hentry s⟩

/-! #### BEGIN as one run -/

theorem sameFields_of_going {as : List Action} {s u : State} (h : runActions as s = .going u) : s.SameFields u := by
  obtain ⟨hframe, -⟩ := runActions_spec as s
  rwa [h] at hframe

theorem sameFields_of_ended {as : List Action} {s u : State} (h : runActions as s = .ended u) : s.SameFields u := by
  obtain ⟨hframe, -⟩ := runActions_spec as s
  rwa [h] at hframe

/-- Everything BEGIN does at its interfaces, `g` being the state after its first field writes. -/
def bringUpActions (g : State) : List Action := wakeUp g ++ displayPhase g ++ g.command 0x06

/-- The framing of a Send depends on the pin map, the delays and `mode_flags` only. -/
theorem send_congr {s t : State} (hpins : t.pinMap = s.pinMap) (htiming : t.timing = s.timing)
    (hmode : t.modeFlags = s.modeFlags) (b : Byte) (isData : Bool) : t.send b isData = s.send b isData := by
  rw [State.send, hpins, htiming, hmode, State.send]

theorem displayPhase_congr {s t : State} (hpins : t.pinMap = s.pinMap) (htiming : t.timing = s.timing)
    (hmode : t.modeFlags = s.modeFlags) : displayPhase t = displayPhase s := by
  simp only [displayPhase, State.command, send_congr hpins htiming hmode, htiming]

/-- BEGIN's field writes between its phases can be made after the whole run: no action looks at them. -/
theorem bringUp_eq_run (lines : Byte) (cell : Cell) (s : State) :
    ∃ f, FieldWrite f
      ∧ bringUp lines cell s = mapState f (runActions (bringUpActions (storeGeometry lines cell s)) s) := by
  have hgeometry := fieldWrite_storeGeometry lines cell
  have hdisplay := (fieldWrite_setDisplayControlFlags 0x04).comp hgeometry
  have hentry := (fieldWrite_setEntryModeFlags 0x02).comp hdisplay
  simp only [bringUp_eq, bringUpActions, runActions_append]
  rw [hgeometry.runActions]
  cases hwake : runActions (wakeUp (storeGeometry lines cell s)) s with
  | ended t => exact ⟨_, hgeometry, rfl⟩
  | going u =>
    have hframe : s.SameFields u := sameFields_of_going hwake
    have hmode : beginMode lines cell u.modeFlags = beginMode lines cell s.modeFlags := by rw [hframe.modeFlags]
    have hphase : displayPhase ((storeGeometry lines cell u).setDisplayControlFlags 0x04)
        = displayPhase (storeGeometry lines cell s) := displayPhase_congr hframe.pinMap hframe.timing hmode
    simp only [mapState_going, Progress.andThen_going, hphase]
    rw [hdisplay.runActions]
    cases hshow : runActions (displayPhase (storeGeometry lines cell s)) u with
    | ended t => exact ⟨_, hdisplay, rfl⟩
    | going v =>
      replace hframe : s.SameFields v := hframe.trans (sameFields_of_going hshow)
      have hmode' : beginMode lines cell v.modeFlags = beginMode lines cell s.modeFlags := by
        rw [hframe.modeFlags]
      have hsend : (((storeGeometry lines cell v).setDisplayControlFlags 0x04).setEntryModeFlags 0x02).command 0x06
          = (storeGeometry lines cell s).command 0x06 := by
        apply send_congr
        · exact hframe.pinMap
        · exact hframe.timing
        · exact hmode'
      simp only [mapState_going, Progress.andThen_going, hsend]
      rw [hentry.runActions]
      cases runActions ((storeGeometry lines cell s).command 0x06) v with
      | ended t => exact ⟨_, hentry, rfl⟩
      | going w => exact ⟨_, (fieldWrite_setFsm .ready).comp hentry, rfl⟩

/-! #### Every instruction as one run -/

/-- The actions of an instruction, from the state in which it has been accepted. -/
def program (s : State) : Instr → List Action
  | .begin _ lines cell => bringUpActions (storeGeometry lines cell s)
  | i => (plan s i).2

/-- What an instruction that has run to its end returns. -/
def result : Instr → Status
  | .begin _ _ _ => .okFlag true
  | _ => .ok

theorem program_of_ne_begin {i : Instr} (hi : ∀ c l ce, i ≠ .begin c l ce) (s : State) :
    program s i = (plan s i).2 := by
  cases i with
  | begin c l ce => exact absurd rfl (hi c l ce)
  | _ => rfl

theorem result_of_ne_begin {i : Instr} (hi : ∀ c l ce, i ≠ .begin c l ce) : result i = .ok := by
  cases i with
  | begin c l ce => exact absurd rfl (hi c l ce)
  | _ => rfl

theorem result_ok (i : Instr) : some (result i) = some Status.ok ∨ some (result i) = some (Status.okFlag true) := by
  cases i with
  | begin c l ce => exact .inr rfl
  | _ => exact .inl rfl

theorem init_or_begin_or_other (i : Instr) :
    (∃ b p, i = .init b p) ∨ (∃ c l ce, i = .begin c l ce)
      ∨ ((∀ b p, i ≠ .init b p) ∧ ∀ c l ce, i ≠ .begin c l ce) := by
  cases i <;> simp

theorem exec_eq_run {i : Instr} {s : State} (hadmitted : admittedIn i s.fsm = true) (hrow : ¬ rowless s i) :
    ∃ f, FieldWrite f
      ∧ exec i s = finish (result i) (mapState f (runActions (program (accept s) i) (accept s))) := by
  rcases init_or_begin_or_other i with ⟨bus8, pins, rfl⟩ | ⟨cols, lines, cell, rfl⟩ | ⟨hinit, hbegin⟩
  · have hfsm : s.fsm = .unconfigured := by simpa [admittedIn] using hadmitted
    refine ⟨_, (fieldWrite_setFsm .roleAssigned).comp ((fieldWrite_setLineCount 1).comp
      ((fieldWrite_setModeFlags (initMode bus8)).comp (fieldWrite_setPinMap pins))), ?_⟩
    simp only [exec, execInit]
    rw [inUnconfigured_unconfigured hfsm]
    rfl
  · obtain ⟨f, hf, hrun⟩ := bringUp_eq_run lines cell (accept s)
    exact ⟨f, hf, by rw [exec_begin (by simpa [admittedIn] using hadmitted), hrun]; rfl⟩
  · obtain ⟨f, hf, hplan⟩ := plan_fieldWrite i (accept s)
    refine ⟨f, hf, ?_⟩
    rw [exec_plan i s hadmitted hinit hbegin hrow, hplan, hf.runActions, program_of_ne_begin hbegin,
      result_of_ne_begin hbegin]

/-- SETCURSOR with a row outside the table reaches no next state (43_display_cursor_ops.md R165). -/
theorem not_rowless_of_next {i : Instr} {s t : State} (h : exec i s = .next t) : ¬ rowless s i := by
  rcases exec_next h with ⟨b, p, rfl, -⟩ | ⟨c, l, ce, rfl, -⟩ | ⟨-, -, hrow, -⟩
  · exact id
  · exact id
  · exact hrow

/-- What the block puts out and what it gets are in `t` as in `u`. -/
structure SameOutputs (u t : State) : Prop where
  trace : t.trace = u.trace
  sent : t.sent = u.sent
  latch : t.latch = u.latch
  replies : t.replies = u.replies
  waiting : t.waiting = u.waiting

theorem FieldWrite.sameOutputs {f : State → State} (hf : FieldWrite f) (u : State) : SameOutputs u (f u) :=
  ⟨hf.trace u, hf.sent u, hf.latch u, hf.replies u, hf.waiting u⟩

/-- An instruction that reaches a next state has run its program to the end and returned its result, or the program has
ended early. -/
theorem exec_run {i : Instr} {s t : State} (h : exec i s = .next t) :
    ∃ u, SameOutputs u t
      ∧ ((runActions (program (accept s) i) (accept s) = .going u ∧ t.status = some (result i))
        ∨ (runActions (program (accept s) i) (accept s) = .ended u ∧ t.status = u.status)) := by
  obtain ⟨f, hf, hexec⟩ := exec_eq_run (exec_next_admitted h) (not_rowless_of_next h)
  rw [hexec] at h
  cases hrun : runActions (program (accept s) i) (accept s) with
  | going u =>
    rw [hrun] at h
    cases h
    obtain ⟨htrace, hsent, hlatch, hreplies, hwaiting⟩ := hf.sameOutputs u
    exact ⟨u, ⟨htrace, hsent, hlatch, hreplies, hwaiting⟩, .inl ⟨rfl, rfl⟩⟩
  | ended u =>
    rw [hrun] at h
    cases h
    exact ⟨u, hf.sameOutputs u, .inr ⟨rfl, hf.status u⟩⟩

/-! #### How an operation ends -/

/-- It has returned a result other than a BusError. -/
structure Returned (s t : State) (events : List Event) : Prop where
  status : t.returnedOk
  waiting : t.waiting = s.waiting
  noFailure : ∀ e ∈ events, e.isFailure = false

/-- It has ended in a BusError (60_exceptions.md R201, R203): the last event, and no other, is a failed transaction. -/
def Failed (s t : State) (events : List Event) : Prop :=
  ∃ before e cause detail after, events = before ++ [e] ∧ (∀ x ∈ before, x.isFailure = false)
    ∧ FailsAs t.latch e cause after ∧ t.status = some (.busError cause detail) ∧ t.waiting = s.waiting
    ∧ Reply.fail after detail ∈ s.replies

/-- It stands at a transaction that is never answered (log 10). -/
structure Hung (s t : State) (events : List Event) : Prop where
  status : t.status = none
  waiting : t.waiting = true
  noFailure : ∀ e ∈ events, e.isFailure = false
  unanswered : ∃ after, Reply.silent after ∈ s.replies

/-- Whatever the proxy answers: the events an instruction adds, and the three ways in which it can end. -/
theorem exec_ends {i : Instr} {s t : State} (h : exec i s = .next t) :
    ∃ events, t.trace = s.trace ++ events ∧ writesFollowReads events
      ∧ (Returned s t events ∨ Failed s t events ∨ Hung s t events) := by
  obtain ⟨u, hout, hend⟩ := exec_run h
  obtain ⟨-, events, bytes, hspec, -, -⟩ := runActions_spec (program (accept s) i) (accept s)
  rcases hend with ⟨hrun, hstatus⟩ | ⟨hrun, hstatus⟩ <;> rw [hrun] at hspec <;>
    refine ⟨events, hout.trace.trans hspec.trace, hspec.law, ?_⟩
  · obtain ⟨-, hwaiting, hnoFailure⟩ := hspec.going u rfl
    exact .inl ⟨by rw [State.returnedOk, hstatus]; exact result_ok i, hout.waiting.trans hwaiting, hnoFailure⟩
  · rcases hspec.ended u rfl with ⟨before, e, cause, detail, after, hevents, hbefore, hfails, hbus, hwaiting, hreply⟩ |
        ⟨hnone, hwaiting, hnoFailure, hsilent⟩
    · exact .inr (.inl ⟨before, e, cause, detail, after, hevents, hbefore, hout.latch ▸ hfails, hstatus.trans hbus,
        hout.waiting.trans hwaiting, hreply⟩)
    · exact .inr (.inr ⟨hstatus.trans hnone, hout.waiting.trans hwaiting, hnoFailure, hsilent⟩)

end Sys2Proof.Proofs.Runs

/-! ### Proofs: which fields an instruction leaves how (10_state.md section 10) -/

namespace Sys2Proof.Proofs.Fields

open Sys2Proof Sys2Proof.Machine Sys2Proof.Proofs.Runs Sys2Proof.Proofs.ReadyOperations

/-! #### What a run sends -/

/-- A byte sent with RS low. -/
def commandSent (b : Byte) : Sent := { byte := b, isData := false }

/-- An operation that ends early inside a list of actions that ends in a Send has not completed that Send. -/
theorem sent_of_ended {as : List Action} {b : Byte} {isData : Bool} {s t : State}
    (h : runActions (as ++ [.delivered b isData]) s = .ended t) :
    ∃ n ≤ (sentOf as).length, t.sent = s.sent ++ (sentOf as).take n := by
  obtain ⟨-, events, bytes, hspec, -, hprefix⟩ := runActions_spec as s
  rw [runActions_delivered_ended h] at hspec
  exact ⟨bytes.length, hprefix.length_le, by rw [← List.prefix_iff_eq_take.mp hprefix]; exact hspec.sent⟩

theorem sent_of_going {as : List Action} {s t : State} (h : runActions as s = .going t) :
    t.sent = s.sent ++ sentOf as := by
  obtain ⟨-, events, bytes, hspec, hall, -⟩ := runActions_spec as s
  rw [← hall t h]
  rw [h] at hspec
  exact hspec.sent

/-- A Send ends in its record. -/
theorem send_eq_append (s : State) (b : Byte) (isData : Bool) :
    ∃ as, s.send b isData = as ++ [.delivered b isData] ∧ sentOf as = [] := by
  refine ⟨_, rfl, ?_⟩
  split <;> rfl

/-! #### BEGIN -/

/-- The number of function-set instructions BEGIN sends: once in 4-bit mode, four times in 8-bit mode. -/
def wakeSends (mode : Byte) : Nat := if isBus8 mode then 4 else 1

/-- The last action of the wake-up completes its last function-set. -/
theorem wakeUp_eq_append (g : State) :
    ∃ as, wakeUp g = as ++ [.delivered (functionSetByte g.modeFlags) false]
      ∧ sentOf as = List.replicate (wakeSends g.modeFlags - 1) (commandSent (functionSetByte g.modeFlags)) := by
  obtain ⟨as, hsend, hnone⟩ := send_eq_append g (functionSetByte g.modeFlags) false
  refine ⟨_, by rw [wakeUp, State.command, hsend, ← List.append_assoc], ?_⟩
  simp only [sentOf_append, hnone, wakeSends]
  split <;> simp [resetSequence8, resetSequence4, sentOf_append, sentOf, actionSent, commandSent]

theorem sentOf_wakeUp (g : State) :
    sentOf (wakeUp g) = List.replicate (wakeSends g.modeFlags) (commandSent (functionSetByte g.modeFlags)) := by
  obtain ⟨as, hwake, hsent⟩ := wakeUp_eq_append g
  have hpos : wakeSends g.modeFlags - 1 + 1 = wakeSends g.modeFlags := by
    unfold wakeSends
    split <;> rfl
  rw [hwake, sentOf_append, hsent, ← hpos, List.replicate_succ']
  rfl

/-- The instruction bytes of a BEGIN that leaves `mode` in `mode_flags`. -/
def beginCommands (mode : Byte) : List Sent :=
  List.replicate (wakeSends mode) (commandSent (functionSetByte mode))
    ++ [commandSent 0x0C, commandSent 0x01, commandSent 0x06]

/-- What every BEGIN leaves, wherever it has ended: the geometry written first, and what it never writes. -/
structure GeometryStored (lines : Byte) (cell : Cell) (s t : State) : Prop where
  pinMap : t.pinMap = s.pinMap
  timing : t.timing = s.timing
  hostPort : t.hostPort = s.hostPort
  commandPort : t.commandPort = s.commandPort
  lineCount : t.lineCount = lines
  currentLine : t.currentLine = 0
  modeFlags : t.modeFlags = beginMode lines cell s.modeFlags

/-- A BEGIN that has sent the first `n` of its instructions and has not sent the next. -/
structure BeginEnded (lines : Byte) (cell : Cell) (s t : State) (n : Nat) : Prop where
  geometry : GeometryStored lines cell s t
  fsm : t.fsm = s.fsm
  lt : n < wakeSends t.modeFlags + 3
  sent : t.sent = s.sent ++ (beginCommands t.modeFlags).take n
  displayControlFlags : t.displayControlFlags = if wakeSends t.modeFlags ≤ n then 0x04 else s.displayControlFlags
  entryModeFlags : t.entryModeFlags = if wakeSends t.modeFlags + 2 ≤ n then 0x02 else s.entryModeFlags

/-- A BEGIN that has run to its end. -/
structure BeginDone (lines : Byte) (cell : Cell) (s t : State) : Prop where
  geometry : GeometryStored lines cell s t
  fsm : t.fsm = .ready
  sent : t.sent = s.sent ++ beginCommands t.modeFlags
  displayControlFlags : t.displayControlFlags = 0x04
  entryModeFlags : t.entryModeFlags = 0x02

section
variable {lines : Byte} {cell : Cell} {s t u : State}

theorem geometryStored_storeGeometry (lines : Byte) (cell : Cell) (s : State) :
    GeometryStored lines cell s (storeGeometry lines cell s) := ⟨rfl, rfl, rfl, rfl, rfl, rfl, rfl⟩

theorem GeometryStored.trans (h : GeometryStored lines cell s u) (k : u.SameFields t) :
    GeometryStored lines cell s t :=
  ⟨k.pinMap.trans h.pinMap, k.timing.trans h.timing, k.hostPort.trans h.hostPort, k.commandPort.trans h.commandPort,
    k.lineCount.trans h.lineCount, k.currentLine.trans h.currentLine, k.modeFlags.trans h.modeFlags⟩

theorem GeometryStored.setDisplayControlFlags (h : GeometryStored lines cell s u) (v : Byte) :
    GeometryStored lines cell s (u.setDisplayControlFlags v) :=
  ⟨h.pinMap, h.timing, h.hostPort, h.commandPort, h.lineCount, h.currentLine, h.modeFlags⟩

theorem GeometryStored.setEntryModeFlags (h : GeometryStored lines cell s u) (v : Byte) :
    GeometryStored lines cell s (u.setEntryModeFlags v) :=
  ⟨h.pinMap, h.timing, h.hostPort, h.commandPort, h.lineCount, h.currentLine, h.modeFlags⟩

theorem GeometryStored.setFsm (h : GeometryStored lines cell s u) (v : Fsm) :
    GeometryStored lines cell s (u.setFsm v) :=
  ⟨h.pinMap, h.timing, h.hostPort, h.commandPort, h.lineCount, h.currentLine, h.modeFlags⟩

end

/-- What a cut-short wake-up has sent. -/
theorem sent_of_wakeUp_ended {g t : State} (h : runActions (wakeUp g) g = .ended t) :
    ∃ n < wakeSends g.modeFlags, t.sent = g.sent ++ (beginCommands g.modeFlags).take n := by
  obtain ⟨as, hwake, hsentOf⟩ := wakeUp_eq_append g
  rw [hwake] at h
  obtain ⟨n, hn, hsent⟩ := sent_of_ended h
  rw [hsentOf, List.length_replicate] at hn
  have hpos : 0 < wakeSends g.modeFlags := by
    unfold wakeSends
    split <;> decide
  refine ⟨n, by omega, ?_⟩
  rw [hsent, hsentOf, beginCommands, List.take_append_of_le_length (by rw [List.length_replicate]; omega),
    List.take_replicate, List.take_replicate, Nat.min_eq_left hn, Nat.min_eq_left (by omega)]

/-- What a cut-short second phase has sent: nothing, or 0x0C. -/
theorem sent_of_displayPhase_ended {d t : State} (h : runActions (displayPhase d) d = .ended t) :
    ∃ n ≤ 1, t.sent = d.sent ++ [commandSent 0x0C].take n := by
  obtain ⟨as, hsend, hnone⟩ := send_eq_append d 0x01 false
  have hcut := runActions_wait_ended h
  rw [State.command, State.command, hsend, ← List.append_assoc] at hcut
  obtain ⟨n, hn, hsent⟩ := sent_of_ended hcut
  rw [sentOf_append, hnone, State.send, sentOf_send] at hn hsent
  exact ⟨n, hn, hsent⟩

/-- A Send alone that is cut short has sent nothing. -/
theorem sent_of_command_ended {e t : State} {b : Byte} (h : runActions (e.command b) e = .ended t) :
    t.sent = e.sent := by
  obtain ⟨as, hsend, hnone⟩ := send_eq_append e b false
  rw [State.command, hsend] at h
  obtain ⟨n, -, hsent⟩ := sent_of_ended h
  rw [hsent, hnone, List.take_nil, List.append_nil]

theorem sentOf_displayPhase (d : State) : sentOf (displayPhase d) = [commandSent 0x0C, commandSent 0x01] := by
  simp [displayPhase, sentOf_append, sentOf, actionSent, commandSent]

/-- After the whole wake-up, the next of BEGIN's instructions. -/
theorem take_beginCommands (mode : Byte) (n : Nat) :
    (beginCommands mode).take (wakeSends mode + n)
      = List.replicate (wakeSends mode) (commandSent (functionSetByte mode))
        ++ [commandSent 0x0C, commandSent 0x01, commandSent 0x06].take n := by
  simp [beginCommands, List.take_append]

/-- A BEGIN that ends early, phase by phase. -/
theorem bringUp_ended {lines : Byte} {cell : Cell} {s t : State} (h : bringUp lines cell s = .ended t) :
    ∃ n, BeginEnded lines cell s t n := by
  have hgeometry := geometryStored_storeGeometry lines cell s
  rcases bringUp_cases lines cell s with ⟨t', hwake, hend⟩ | ⟨u, hwake, hrest⟩
  · cases hend.symm.trans h
    have hframe := sameFields_of_ended hwake
    obtain ⟨n, hn, hsent⟩ := sent_of_wakeUp_ended hwake
    rw [← hframe.modeFlags] at hn hsent
    exact ⟨n, hgeometry.trans hframe, hframe.fsm, by omega, hsent,
      hframe.displayControlFlags.trans (if_neg (by omega)).symm, hframe.entryModeFlags.trans (if_neg (by omega)).symm⟩
  · have hframeU := sameFields_of_going hwake
    have hgeometryU := (hgeometry.trans hframeU).setDisplayControlFlags 0x04
    have hsentU := sent_of_going hwake
    rw [sentOf_wakeUp] at hsentU
    rcases hrest with ⟨t', hshow, hend⟩ | ⟨v, hshow, hrest⟩
    · cases hend.symm.trans h
      have hframe := sameFields_of_ended hshow
      have hmode : t.modeFlags = (storeGeometry lines cell s).modeFlags := hframe.modeFlags.trans hframeU.modeFlags
      obtain ⟨n, hn, hsent⟩ := sent_of_displayPhase_ended hshow
      refine ⟨wakeSends t.modeFlags + n, hgeometryU.trans hframe, hframe.fsm.trans hframeU.fsm, by omega, ?_,
        hframe.displayControlFlags.trans (if_pos (by omega)).symm,
        (hframe.entryModeFlags.trans hframeU.entryModeFlags).trans (if_neg (by omega)).symm⟩
      have htake : [commandSent 0x0C].take n = [commandSent 0x0C, commandSent 0x01, commandSent 0x06].take n := by
        interval_cases n <;> rfl
      rw [take_beginCommands, hsent, State.setDisplayControlFlags_sent, hsentU, htake, hmode, List.append_assoc]
      rfl
    · have hframeV := sameFields_of_going hshow
      have hgeometryV := (hgeometryU.trans hframeV).setEntryModeFlags 0x02
      have hsentV := sent_of_going hshow
      rw [sentOf_displayPhase] at hsentV
      rcases hrest with ⟨t', hentry, hend⟩ | ⟨w, hentry, hend⟩
      · cases hend.symm.trans h
        have hframe := sameFields_of_ended hentry
        have hmode : t.modeFlags = (storeGeometry lines cell s).modeFlags :=
          hframe.modeFlags.trans (hframeV.modeFlags.trans hframeU.modeFlags)
        refine ⟨wakeSends t.modeFlags + 2, hgeometryV.trans hframe, hframe.fsm.trans (hframeV.fsm.trans hframeU.fsm),
          by omega, ?_, (hframe.displayControlFlags.trans hframeV.displayControlFlags).trans (if_pos (by omega)).symm,
          hframe.entryModeFlags.trans (if_pos (by omega)).symm⟩
        rw [take_beginCommands, sent_of_command_ended hentry, State.setEntryModeFlags_sent, hsentV,
          State.setDisplayControlFlags_sent, hsentU, hmode, List.append_assoc]
        rfl
      · cases hend.symm.trans h

/-- A BEGIN that runs to its end has run each phase to its end. -/
theorem bringUp_going {lines : Byte} {cell : Cell} {s t : State} (h : bringUp lines cell s = .going t) :
    BeginDone lines cell s t := by
  rcases bringUp_cases lines cell s with ⟨t', -, hend⟩ | ⟨u, hwake, ⟨t', -, hend⟩ | ⟨v, hshow, ⟨t', -, hend⟩ |
      ⟨w, hentry, hend⟩⟩⟩ <;> cases hend.symm.trans h
  have hframeU := sameFields_of_going hwake
  have hframeV := sameFields_of_going hshow
  have hframe := sameFields_of_going hentry
  have hmode : w.modeFlags = (storeGeometry lines cell s).modeFlags :=
    hframe.modeFlags.trans (hframeV.modeFlags.trans hframeU.modeFlags)
  have hgeometry :=
    (((geometryStored_storeGeometry lines cell s).trans hframeU).setDisplayControlFlags 0x04).trans hframeV
  refine ⟨((hgeometry.setEntryModeFlags 0x02).trans hframe).setFsm .ready, rfl, ?_,
    hframe.displayControlFlags.trans hframeV.displayControlFlags, hframe.entryModeFlags⟩
  rw [State.setFsm_sent, State.setFsm_modeFlags, sent_of_going hentry, State.setEntryModeFlags_sent,
    sent_of_going hshow, State.setDisplayControlFlags_sent, sent_of_going hwake, sentOf_wakeUp, sentOf_displayPhase,
    sentOf_command, hmode, beginCommands, List.append_assoc, List.append_assoc]
  rfl

/-- A state in which an operation has ended early has no result. -/
theorem not_returnedOk_of_ended {s t : State} {es : List Event} {bs : List Sent} {p : Progress}
    (h : RunSpec (accept s) es bs p) (hend : p = .ended t) : ¬ t.returnedOk := by
  rcases h.ended t hend with ⟨-, -, cause, detail, -, -, -, -, hstatus, -⟩ | ⟨hstatus, -⟩ <;>
    rw [State.returnedOk, hstatus]
  · simp
  · simp [accept]

/-- A BEGIN that reaches a next state. -/
theorem begin_next {cols lines : Byte} {cell : Cell} {s t : State} (h : exec (.begin cols lines cell) s = .next t) :
    (t.status = some (.okFlag true) ∧ BeginDone lines cell s t)
      ∨ (¬ t.returnedOk ∧ ∃ n, BeginEnded lines cell s t n) := by
  have hfsm : s.fsm = .roleAssigned := by simpa [admittedIn] using exec_next_admitted h
  rw [exec_begin hfsm] at h
  obtain ⟨events, bytes, hspec, -⟩ := bringUp_spec lines cell (accept s)
  rcases finish_next h with ⟨u, hrun, rfl⟩ | hrun
  · obtain ⟨⟨hpins, htiming, hhost, hcommand, hlines, hline, hmode⟩, hready, hsent, hdisplay, hentry⟩ :=
      bringUp_going hrun
    exact .inl ⟨rfl, ⟨hpins, htiming, hhost, hcommand, hlines, hline, hmode⟩, hready, hsent, hdisplay, hentry⟩
  · obtain ⟨n, ⟨hpins, htiming, hhost, hcommand, hlines, hline, hmode⟩, hfsm, hlt, hsent, hdisplay, hentry⟩ :=
      bringUp_ended hrun
    exact .inr ⟨not_returnedOk_of_ended hspec hrun, n,
      ⟨⟨hpins, htiming, hhost, hcommand, hlines, hline, hmode⟩, hfsm, hlt, hsent, hdisplay, hentry⟩⟩

/-- What every BEGIN leaves of the geometry. -/
theorem begin_geometryStored {cols lines : Byte} {cell : Cell} {s t : State}
    (h : exec (.begin cols lines cell) s = .next t) : GeometryStored lines cell s t := by
  rcases begin_next h with ⟨-, hdone⟩ | ⟨-, n, hended⟩
  · exact hdone.geometry
  · exact hended.geometry

/-! #### The other instructions -/

/-- Every instruction but INIT and BEGIN leaves the fields as its plan wrote them. -/
theorem plan_sameFields {i : Instr} {s t : State} (hinit : ∀ b p, i ≠ .init b p) (hbegin : ∀ c l ce, i ≠ .begin c l ce)
    (h : exec i s = .next t) : (plan (accept s) i).1.SameFields t := by
  rcases exec_next h with ⟨b, p, rfl, -⟩ | ⟨c, l, ce, rfl, -⟩ | ⟨-, -, -, -, hplan⟩
  · exact absurd rfl (hinit b p)
  · exact absurd rfl (hbegin c l ce)
  · exact perform_sameFields hplan

/-- Who writes what (10_state.md section 10), in the five ways there are. -/
inductive Writes (i : Instr) (s t : State) : Prop where
  | init (bus8 : Bool) (pins : PinMap) (instr : i = .init bus8 pins) (fsm : s.fsm = .unconfigured)
      (next : t = { s with pinMap := pins, modeFlags := initMode bus8, lineCount := 1, fsm := .roleAssigned,
                           status := some .ok })
  | begin (cols lines : Byte) (cell : Cell) (instr : i = .begin cols lines cell) (fsm : s.fsm = .roleAssigned)
      (next : (t.status = some (.okFlag true) ∧ BeginDone lines cell s t)
        ∨ (¬ t.returnedOk ∧ ∃ n, BeginEnded lines cell s t n))
  | displayControl (flags : Byte) (instr : i ∈ displayOps)
      (actions : (plan (accept s) i).2 = s.command (displayControlByte flags))
      (reserved : s.displayControlFlags &&& 0xF8 = 0 → flags &&& 0xF8 = 0)
      (fields : (s.setDisplayControlFlags flags).SameFields t)
  | entryMode (flags : Byte) (instr : i ∈ entryOps)
      (actions : (plan (accept s) i).2 = s.command (entryModeByte flags))
      (reserved : s.entryModeFlags &&& 0xFC = 0 → flags &&& 0xFC = 0)
      (fields : (s.setEntryModeFlags flags).SameFields t)
  | nothing (notInit : ∀ b p, i ≠ .init b p) (notBegin : ∀ c l ce, i ≠ .begin c l ce) (notDisplay : i ∉ displayOps)
      (notEntry : i ∉ entryOps) (fields : s.SameFields t)

theorem exec_writes {i : Instr} {s t : State} (h : exec i s = .next t) : Writes i s t := by
  rcases exec_next h with ⟨bus8, pins, hi, hfsm, ht⟩ | ⟨cols, lines, cell, rfl, hfsm, -⟩ | ⟨hinit, hbegin, -, -, -⟩
  · exact .init bus8 pins hi hfsm ht
  · exact .begin cols lines cell rfl hfsm (begin_next h)
  · have hfields := plan_sameFields hinit hbegin h
    by_cases hdisplay : i ∈ displayOps
    · obtain ⟨flags, hplan, hreserved⟩ := plan_displayOps hdisplay (accept s)
      rw [hplan] at hfields
      exact .displayControl flags hdisplay (by rw [hplan]; rfl) hreserved ((sameFields_accept _).trans hfields)
    · by_cases hentry : i ∈ entryOps
      · obtain ⟨flags, hplan, hreserved⟩ := plan_entryOps hentry (accept s)
        rw [hplan] at hfields
        exact .entryMode flags hentry (by rw [hplan]; rfl) hreserved ((sameFields_accept _).trans hfields)
      · rw [plan_state hdisplay hentry] at hfields
        exact .nothing hinit hbegin hdisplay hentry ((sameFields_accept s).trans hfields)

/-- Settles O46: the five ways of `exec_writes`, field by field. -/
theorem onlyNamedInstructionsWriteAField : Obligations.OnlyNamedInstructionsWriteAField := by
  intro i s t h
  cases exec_writes h with
  | init bus8 pins instr fsm next =>
    subst next
    exact ⟨rfl, rfl, rfl, fun hi => absurd instr (hi bus8 pins), fun hi => absurd instr (hi bus8 pins), fun _ => rfl,
      fun _ _ => rfl, fun _ _ => rfl⟩
  | begin cols lines cell instr fsm next =>
    subst instr
    have hgeometry := begin_geometryStored h
    exact ⟨hgeometry.timing, hgeometry.hostPort, hgeometry.commandPort, fun _ => hgeometry.pinMap,
      fun _ hi => absurd rfl (hi cols lines cell), fun hi => absurd rfl (hi cols lines cell),
      fun hi => absurd rfl (hi cols lines cell), fun hi => absurd rfl (hi cols lines cell)⟩
  | displayControl flags instr actions reserved fields =>
    exact ⟨fields.timing, fields.hostPort, fields.commandPort, fun _ => fields.pinMap,
      fun _ _ => ⟨fields.fsm, fields.modeFlags, fields.lineCount⟩, fun _ => fields.currentLine,
      fun _ hi => absurd instr hi, fun _ _ => fields.entryModeFlags⟩
  | entryMode flags instr actions reserved fields =>
    exact ⟨fields.timing, fields.hostPort, fields.commandPort, fun _ => fields.pinMap,
      fun _ _ => ⟨fields.fsm, fields.modeFlags, fields.lineCount⟩, fun _ => fields.currentLine,
      fun _ _ => fields.displayControlFlags, fun _ hi => absurd instr hi⟩
  | nothing notInit notBegin notDisplay notEntry fields =>
    exact ⟨fields.timing, fields.hostPort, fields.commandPort, fun _ => fields.pinMap,
      fun _ _ => ⟨fields.fsm, fields.modeFlags, fields.lineCount⟩, fun _ => fields.currentLine,
      fun _ _ => fields.displayControlFlags, fun _ _ => fields.entryModeFlags⟩

/-- Settles O23: INIT is over, BEGIN keeps bit 4, and no other instruction writes `mode_flags`. -/
theorem busWidthFixedFromInit : Obligations.BusWidthFixedFromInit := by
  intro i s t h hconfigured
  cases exec_writes h with
  | init bus8 pins instr fsm next => exact absurd fsm hconfigured
  | begin cols lines cell instr fsm next =>
    subst instr
    rw [(begin_geometryStored h).modeFlags]
    exact isBus8_beginMode lines cell s.modeFlags
  | displayControl flags instr actions reserved fields => rw [fields.modeFlags]; rfl
  | entryMode flags instr actions reserved fields => rw [fields.modeFlags]; rfl
  | nothing notInit notBegin notDisplay notEntry fields => rw [fields.modeFlags]

/-- Settles O15: of the five ways only INIT and a completed BEGIN write the lifecycle state. -/
theorem twoLifecycleTransitions : Obligations.TwoLifecycleTransitions := by
  intro i s t h
  have hother (hfsm : t.fsm = s.fsm) (hinit : ∀ b p, i ≠ .init b p) (hbegin : ∀ c l ce, i ≠ .begin c l ce) :
      (∀ bus8 pins, i = .init bus8 pins → s.fsm = .unconfigured ∧ t.fsm = .roleAssigned)
      ∧ (∀ cols lines cell, i = .begin cols lines cell →
          s.fsm = .roleAssigned ∧ (t.status = some (.okFlag true) → t.fsm = .ready)
            ∧ (t.status ≠ some (.okFlag true) → t.fsm = .roleAssigned))
      ∧ ((∀ bus8 pins, i ≠ .init bus8 pins) → (∀ cols lines cell, i ≠ .begin cols lines cell) → t.fsm = s.fsm) :=
    ⟨fun b p hi => absurd hi (hinit b p), fun c l ce hi => absurd hi (hbegin c l ce), fun _ _ => hfsm⟩
  cases exec_writes h with
  | init bus8 pins instr fsm next =>
    subst instr next
    exact ⟨fun _ _ _ => ⟨fsm, rfl⟩, by rintro _ _ _ ⟨⟩, fun hi _ => absurd rfl (hi bus8 pins)⟩
  | begin cols lines cell instr fsm next =>
    subst instr
    refine ⟨by rintro _ _ ⟨⟩, fun _ _ _ _ => ⟨fsm, ?_⟩, fun _ hi => absurd rfl (hi cols lines cell)⟩
    rcases next with ⟨hstatus, hdone⟩ | ⟨hnot, n, hended⟩
    · exact ⟨fun _ => hdone.fsm, fun hne => absurd hstatus hne⟩
    · exact ⟨fun hok => absurd (.inr hok) hnot, fun _ => hended.fsm.trans fsm⟩
  | displayControl flags instr actions reserved fields =>
    obtain ⟨hinit, hbegin⟩ := not_lifecycle_of_mem_displayOps instr
    exact hother fields.fsm hinit hbegin
  | entryMode flags instr actions reserved fields =>
    obtain ⟨hinit, hbegin⟩ := not_lifecycle_of_mem_entryOps instr
    exact hother fields.fsm hinit hbegin
  | nothing notInit notBegin notDisplay notEntry fields => exact hother fields.fsm notInit notBegin

/-- Settles O21: BEGIN cut short leaves the flags of the phases it has entered and the Sends it has completed. -/
theorem beginAbortKeepsItsWrites : Obligations.BeginAbortKeepsItsWrites := by
  intro cols lines cell s t cause detail h hstatus
  have hfsm : s.fsm = .roleAssigned := by simpa [admittedIn] using exec_next_admitted h
  rcases begin_next h with ⟨hok, -⟩ | ⟨-, n, hgeometry, hkept, hlt, hsent, hdisplay, hentry⟩
  · rw [hstatus] at hok
    cases hok
  · have hsends : wakeSends t.modeFlags = if s.modeFlags.getLsbD 4 then 4 else 1 := by
      rw [wakeSends, hgeometry.modeFlags, isBus8_beginMode]
      rfl
    rw [hsends] at hlt hdisplay hentry
    refine ⟨hkept.trans hfsm, hgeometry.lineCount, hgeometry.currentLine, hgeometry.modeFlags,
      ⟨n, by simpa using hlt, ?_, hdisplay, hentry⟩, hgeometry.pinMap, hgeometry.timing, hgeometry.hostPort,
      hgeometry.commandPort⟩
    rw [hsent, List.map_take, List.map_append, List.map_replicate, beginCommands, hsends, hgeometry.modeFlags]
    rfl

end Sys2Proof.Proofs.Fields

/-! ### Proofs: the invariants (10_state.md section 5, 30_encoding.md R86) -/

namespace Sys2Proof.Proofs.Invariants

open Sys2Proof Sys2Proof.Machine Sys2Proof.Proofs.RoundTrip Sys2Proof.Proofs.Steps Sys2Proof.Proofs.Runs
  Sys2Proof.Proofs.Fields

/-! #### From a step to an instruction -/

/-- A step that reaches a next state leaves an idle block as it is, or has run an instruction from one of the ports. -/
theorem step_next {s t : State} (h : step s = .next t) :
    t = s ∨ (∃ i bytes, s.commandPort ≠ [] ∧ exec i (s.setCommandPort bytes) = .next t)
      ∨ ∃ i bytes, s.commandPort = [] ∧ i.port = .host ∧ exec i (s.setHostPort bytes) = .next t := by
  cases hwaiting : s.waiting with
  | true =>
    rw [step_waiting hwaiting] at h
    cases h
  | false =>
    cases hcommand : s.commandPort with
    | cons c bytes =>
      rw [step_command hwaiting hcommand] at h
      split at h
      · exact .inr (.inl ⟨_, _, by simp, h⟩)
      · cases h
    | nil =>
      cases hhost : s.hostPort with
      | nil =>
        rw [step_idle hwaiting hcommand hhost] at h
        cases h
        exact .inl rfl
      | cons b bytes =>
        rw [step_host hwaiting hcommand hhost] at h
        split at h
        · rename_i i rest hdecode
          obtain ⟨hport, -⟩ := decodedBytesAreTheEncoding _ _ _ _ hdecode
          exact .inr (.inr ⟨i, rest, rfl, hport, h⟩)
        · cases h

/-- A property that does not look at the ports is kept by every step if every instruction keeps it. -/
theorem step_keeps {P : State → Prop} (hcommand : ∀ s bytes, P s → P (s.setCommandPort bytes))
    (hhost : ∀ s bytes, P s → P (s.setHostPort bytes)) (hexec : ∀ i s t, P s → exec i s = .next t → P t)
    {s t : State} (hs : P s) (h : step s = .next t) : P t := by
  rcases step_next h with rfl | ⟨i, bytes, -, h⟩ | ⟨i, bytes, -, -, h⟩
  · exact hs
  · exact hexec i _ t (hcommand s bytes hs) h
  · exact hexec i _ t (hhost s bytes hs) h

/-! #### The machine's invariant -/

/-- INIT leaves the unused bits of `mode_flags` clear (10_state.md R27). -/
theorem initMode_reserved (bus8 : Bool) : initMode bus8 &&& 0xE3 = 0 := by
  revert bus8
  decide

/-- No instruction sets an unused flag bit (10_state.md R27 to R29). -/
theorem exec_reservedZero {i : Instr} {s t : State} (hs : s.ReservedZero) (h : exec i s = .next t) :
    t.ReservedZero := by
  obtain ⟨hmode, hdisplay, hentry⟩ := hs
  cases exec_writes h with
  | init bus8 pins instr fsm next =>
    subst next
    exact ⟨initMode_reserved bus8, hdisplay, hentry⟩
  | begin cols lines cell instr fsm next =>
    subst instr
    refine ⟨by rw [(begin_geometryStored h).modeFlags]; exact beginMode_reserved lines cell s.modeFlags hmode, ?_⟩
    rcases next with ⟨-, hdone⟩ | ⟨-, n, hended⟩
    · exact ⟨by rw [hdone.displayControlFlags]; rfl, by rw [hdone.entryModeFlags]; rfl⟩
    · constructor
      · rw [hended.displayControlFlags]
        split
        · rfl
        · exact hdisplay
      · rw [hended.entryModeFlags]
        split
        · rfl
        · exact hentry
  | displayControl flags instr actions reserved fields =>
    exact ⟨by rw [fields.modeFlags]; exact hmode, by rw [fields.displayControlFlags]; exact reserved hdisplay,
      by rw [fields.entryModeFlags]; exact hentry⟩
  | entryMode flags instr actions reserved fields =>
    exact ⟨by rw [fields.modeFlags]; exact hmode, by rw [fields.displayControlFlags]; exact hdisplay,
      by rw [fields.entryModeFlags]; exact reserved hentry⟩
  | nothing notInit notBegin notDisplay notEntry fields =>
    exact ⟨by rw [fields.modeFlags]; exact hmode, by rw [fields.displayControlFlags]; exact hdisplay,
      by rw [fields.entryModeFlags]; exact hentry⟩

/-- A success flag that is returned is true, however the operation has ended (42_initialization.md R148). -/
theorem exec_okFlag {i : Instr} {s t : State} {flag : Bool} (h : exec i s = .next t)
    (hstatus : t.status = some (.okFlag flag)) : flag = true := by
  obtain ⟨events, -, -, hreturned | ⟨-, -, cause, detail, -, -, -, -, hbus, -⟩ | hhung⟩ := exec_ends h
  · rcases hreturned.status with hok | hok <;> rw [hok] at hstatus <;> cases hstatus
    rfl
  · rw [hbus] at hstatus
    cases hstatus
  · rw [hhung.status] at hstatus
    cases hstatus

theorem exec_keeps_inv (i : Instr) (s t : State) (hs : s.Inv) (h : exec i s = .next t) : t.Inv := by
  obtain ⟨htiming, hreserved, hlaw, -⟩ := hs
  obtain ⟨htimingKept, -⟩ := onlyNamedInstructionsWriteAField i s t h
  obtain ⟨events, htrace, hevents, -⟩ := exec_ends h
  refine ⟨?_, exec_reservedZero hreserved h, ?_, fun flag => exec_okFlag h⟩
  · rw [htimingKept]
    exact htiming
  · rw [htrace]
    exact writesFollowReads_append hlaw hevents

/-- Settles O56: the ports are no part of the invariant, and every instruction keeps it. -/
theorem stepKeepsInv : Obligations.StepKeepsInv :=
  fun _ _ hs h => step_keeps (P := State.Inv) (fun _ _ h => h) (fun _ _ h => h) exec_keeps_inv hs h

/-! #### The instruction bytes that are sent -/

/-- An instruction byte of 30_encoding.md R86. -/
def emits (b : Byte) : Bool := (decodeCommand b).toOption.any Instr.emittable

theorem emits_iff (b : Byte) : emits b = true ↔ ∃ i, decodeCommand b = .ok i ∧ i.emittable = true := by
  unfold emits
  cases decodeCommand b <;> simp [Except.toOption]

/-- A byte that is none of the three kinds of instruction that carry a flag register (10_state.md R32). -/
def quiet (b : Byte) : Bool := b &&& 0xF8 != 0x08 && b &&& 0xFC != 0x04 && b &&& 0xE0 != 0x20

/-- A byte sent as data, or an instruction byte of R86 that carries no flag register. -/
def Plain (x : Sent) : Prop := x.isData = false → emits x.byte = true ∧ quiet x.byte = true

theorem plain_ddramByte (col offset : Byte) : Plain (commandSent (ddramByte col offset)) := by
  have hall : ∀ b : Byte, emits (0x80 ||| b) = true ∧ quiet (0x80 ||| b) = true := by decide
  exact fun _ => hall (col + offset)

theorem plain_cgramByte (slot : Byte) : Plain (commandSent (cgramByte slot)) := by
  have hall : ∀ b : Byte, emits (cgramByte b) = true ∧ quiet (cgramByte b) = true := by decide
  exact fun _ => hall slot

theorem plain_data (bytes : List Byte) :
    ∀ x ∈ bytes.map (fun b => ({ byte := b, isData := true } : Sent)), Plain x := by
  intro x hx hdata
  obtain ⟨b, -, rfl⟩ := List.mem_map.mp hx
  cases hdata

/-- A host operation that writes no field sends plain bytes only. -/
theorem plain_of_program {i : Instr} (hport : i.port = .host) (hinit : ∀ b p, i ≠ .init b p)
    (hbegin : ∀ c l ce, i ≠ .begin c l ce) (hdisplay : i ∉ displayOps) (hentry : i ∉ entryOps) (s : State) :
    ∀ x ∈ sentOf (program s i), Plain x := by
  have hone {b : Byte} (hb : Plain (commandSent b)) : ∀ x ∈ sentOf (s.command b), Plain x := by
    rw [sentOf_command]
    exact List.forall_mem_singleton.mpr hb
  have hwait {b : Byte} {ms : Nat} (hb : Plain (commandSent b)) :
      ∀ x ∈ sentOf (s.command b ++ [.wait ms]), Plain x := by
    rw [sentOf_append, sentOf_command]
    exact List.forall_mem_singleton.mpr hb
  cases i with
  | init b p => exact absurd rfl (hinit b p)
  | begin c l ce => exact absurd rfl (hbegin c l ce)
  | clear => exact hwait fun _ => by decide
  | home => exact hwait fun _ => by decide
  | setCursor col row =>
    simp only [program, plan]
    split
    · exact hone (plain_ddramByte _ _)
    · exact fun _ hx => by cases hx
  | displayOn | displayOff | cursorOn | cursorOff | blinkOn | blinkOff => exact absurd (by decide) hdisplay
  | leftToRight | rightToLeft | autoscrollOn | autoscrollOff => exact absurd (by decide) hentry
  | scrollLeft => exact hone fun _ => by decide
  | scrollRight => exact hone fun _ => by decide
  | writeChar b =>
    simp only [program, plan, State.send, sentOf_send]
    exact plain_data [b]
  | writeString text =>
    simp only [program, plan, sentOf_dataBytes]
    exact plain_data text
  | createChar slot pattern =>
    simp only [program, plan, sentOf_append, sentOf_command, sentOf_dataBytes]
    exact List.forall_mem_append.mpr ⟨List.forall_mem_singleton.mpr (plain_cgramByte slot), plain_data pattern.bytes⟩
  | setBacklight on => exact fun _ hx => by cases hx
  | clearDisplay | returnHome _ | entryModeSet _ _ | displayControl _ _ _ | cursorShift _ _ _ | functionSet _ _ _ _
  | setCgramAddress _ _ | setDdramAddress _ => cases hport

/-- What an instruction has sent: the first bytes of its program, all of them if it has returned. -/
theorem exec_sent {i : Instr} {s t : State} (h : exec i s = .next t) :
    ∃ bytes, t.sent = s.sent ++ bytes ∧ bytes <+: sentOf (program (accept s) i)
      ∧ (t.returnedOk → bytes = sentOf (program (accept s) i)) := by
  obtain ⟨u, hout, hend⟩ := exec_run h
  obtain ⟨-, events, bytes, hspec, hall, hprefix⟩ := runActions_spec (program (accept s) i) (accept s)
  rcases hend with ⟨hrun, -⟩ | ⟨hrun, hstatus⟩
  · have hbytes := hall u hrun
    rw [hrun] at hspec
    exact ⟨bytes, hout.sent.trans hspec.sent, hprefix, fun _ => hbytes⟩
  · have hnot : ¬ u.returnedOk := not_returnedOk_of_ended hspec hrun
    rw [hrun] at hspec
    refine ⟨bytes, hout.sent.trans hspec.sent, hprefix, fun hok => absurd ?_ hnot⟩
    rwa [State.returnedOk, hstatus] at hok

/-- BEGIN's program sends the bytes of `beginCommands`. -/
theorem sentOf_program_begin (cols lines : Byte) (cell : Cell) (s : State) :
    sentOf (program s (.begin cols lines cell)) = beginCommands (beginMode lines cell s.modeFlags) := by
  simp only [program, bringUpActions, sentOf_append, sentOf_wakeUp, sentOf_displayPhase, sentOf_command, beginCommands,
    List.append_assoc]
  rfl

theorem emits_functionSetByte {mode : Byte} (h : mode &&& 0xE3 = 0) : emits (functionSetByte mode) = true := by
  revert mode
  decide

theorem emits_displayControlByte {flags : Byte} (h : flags &&& 0xF8 = 0) : emits (displayControlByte flags) = true := by
  revert flags
  decide

theorem emits_entryModeByte {flags : Byte} (h : flags &&& 0xFC = 0) : emits (entryModeByte flags) = true := by
  revert flags
  decide

theorem emits_beginCommands {mode : Byte} (h : mode &&& 0xE3 = 0) : ∀ x ∈ beginCommands mode, emits x.byte = true := by
  refine List.forall_mem_append.mpr ⟨fun x hx => ?_, by decide⟩
  rw [List.eq_of_mem_replicate hx]
  exact emits_functionSetByte h

/-- Every instruction byte of a host operation's program is one of R86. -/
theorem emits_of_program {i : Instr} {s t : State} (hport : i.port = .host) (hs : s.ReservedZero)
    (h : exec i s = .next t) : ∀ x ∈ sentOf (program (accept s) i), x.isData = false → emits x.byte = true := by
  obtain ⟨hmode, hdisplay, hentry⟩ := hs
  cases exec_writes h with
  | init bus8 pins instr fsm next =>
    subst instr
    exact fun _ hx => by cases hx
  | begin cols lines cell instr fsm next =>
    subst instr
    rw [sentOf_program_begin]
    exact fun x hx _ => emits_beginCommands (beginMode_reserved lines cell s.modeFlags hmode) x hx
  | displayControl flags instr actions reserved fields =>
    obtain ⟨-, hbegin⟩ := not_lifecycle_of_mem_displayOps instr
    rw [program_of_ne_begin hbegin, actions, sentOf_command]
    exact List.forall_mem_singleton.mpr fun _ => emits_displayControlByte (reserved hdisplay)
  | entryMode flags instr actions reserved fields =>
    obtain ⟨-, hbegin⟩ := not_lifecycle_of_mem_entryOps instr
    rw [program_of_ne_begin hbegin, actions, sentOf_command]
    exact List.forall_mem_singleton.mpr fun _ => emits_entryModeByte (reserved hentry)
  | nothing notInit notBegin notDisplay notEntry fields =>
    intro x hx hcommand
    obtain ⟨hemits, -⟩ := plain_of_program hport notInit notBegin notDisplay notEntry (accept s) x hx hcommand
    exact hemits

/-- What the invariants over a block to which nothing but host operations is presented have in common. -/
theorem exec_commandPort {i : Instr} {s t : State} (h : exec i s = .next t) : t.commandPort = s.commandPort := by
  obtain ⟨-, -, hcommand, -⟩ := onlyNamedInstructionsWriteAField i s t h
  exact hcommand

theorem exec_keeps_emittedInv {i : Instr} {s t : State} (hhost : i.port = .host) (hs : s.EmittedInv)
    (h : exec i s = .next t) : t.EmittedInv := by
  obtain ⟨hport, hreserved, hsent⟩ := hs
  obtain ⟨new, hnew, hprefix, -⟩ := exec_sent h
  refine ⟨(exec_commandPort h).trans hport, exec_reservedZero hreserved h, ?_⟩
  rw [hnew]
  exact List.forall_mem_append.mpr ⟨hsent, fun x hx hcommand =>
    (emits_iff x.byte).mp (emits_of_program hhost hreserved h x (hprefix.subset hx) hcommand)⟩

/-- Settles O58: whatever has been sent of a host operation's program, its instruction bytes are of R86. -/
theorem stepKeepsEmitted : Obligations.StepKeepsEmitted := by
  intro s t hs h
  rcases step_next h with rfl | ⟨-, -, hcommand, -⟩ | ⟨i, bytes, -, hhost, hexec⟩
  · exact hs
  · obtain ⟨hport, -⟩ := hs
    exact absurd hport hcommand
  · exact exec_keeps_emittedInv (s := s.setHostPort bytes) hhost hs hexec

/-! #### The flags that were last sent -/

theorem lastInstruction_append (mask pattern : Byte) (xs ys : List Sent) :
    lastInstruction mask pattern (xs ++ ys)
      = (lastInstruction mask pattern ys).or (lastInstruction mask pattern xs) := by
  simp only [lastInstruction, List.reverse_append, List.find?_append]
  cases List.find? _ ys.reverse <;> rfl

/-- Bytes of no kind that carries a flag register leave what was last sent. -/
theorem lastInstruction_plain {xs ys : List Sent} (h : ∀ x ∈ ys, Plain x) :
    lastInstruction 0xF8 0x08 (xs ++ ys) = lastInstruction 0xF8 0x08 xs
      ∧ lastInstruction 0xFC 0x04 (xs ++ ys) = lastInstruction 0xFC 0x04 xs
      ∧ lastInstruction 0xE0 0x20 (xs ++ ys) = lastInstruction 0xE0 0x20 xs := by
  have hnone {mask pattern : Byte} (hmask : ∀ x ∈ ys, x.isData = false → x.byte &&& mask ≠ pattern) :
      lastInstruction mask pattern (xs ++ ys) = lastInstruction mask pattern xs := by
    have hfind : lastInstruction mask pattern ys = none := by
      simp only [lastInstruction, Option.map_eq_none_iff, List.find?_eq_none, List.mem_reverse]
      intro x hx
      cases hdata : x.isData with
      | true => simp
      | false => simpa using hmask x hx hdata
    rw [lastInstruction_append, hfind, Option.none_or]
  have hquiet (x : Sent) (hx : x ∈ ys) (hdata : x.isData = false) :
      x.byte &&& 0xF8 ≠ 0x08 ∧ x.byte &&& 0xFC ≠ 0x04 ∧ x.byte &&& 0xE0 ≠ 0x20 := by
    obtain ⟨-, hq⟩ := h x hx hdata
    simpa [quiet, and_assoc] using hq
  refine ⟨hnone fun x hx hdata => ?_, hnone fun x hx hdata => ?_, hnone fun x hx hdata => ?_⟩ <;>
    obtain ⟨hdisplay, hentry, hfunction⟩ := hquiet x hx hdata
  · exact hdisplay
  · exact hentry
  · exact hfunction

/-- A byte of one kind is of no other (30_encoding.md R94), so its Send replaces what was last sent of its own kind
only. -/
theorem lastInstruction_displayControl {flags : Byte} (h : flags &&& 0xF8 = 0) (xs : List Sent) :
    lastInstruction 0xF8 0x08 (xs ++ [commandSent (displayControlByte flags)]) = some (displayControlByte flags)
      ∧ lastInstruction 0xFC 0x04 (xs ++ [commandSent (displayControlByte flags)]) = lastInstruction 0xFC 0x04 xs
      ∧ lastInstruction 0xE0 0x20 (xs ++ [commandSent (displayControlByte flags)]) = lastInstruction 0xE0 0x20 xs := by
  have hkinds : ∀ flags : Byte, flags &&& 0xF8 = 0 →
      lastInstruction 0xF8 0x08 [commandSent (displayControlByte flags)] = some (displayControlByte flags)
        ∧ lastInstruction 0xFC 0x04 [commandSent (displayControlByte flags)] = none
        ∧ lastInstruction 0xE0 0x20 [commandSent (displayControlByte flags)] = none := by decide
  obtain ⟨hdisplay, hentry, hfunction⟩ := hkinds flags h
  simp only [lastInstruction_append, hdisplay, hentry, hfunction, Option.some_or, Option.none_or, and_self]

theorem lastInstruction_entryMode {flags : Byte} (h : flags &&& 0xFC = 0) (xs : List Sent) :
    lastInstruction 0xF8 0x08 (xs ++ [commandSent (entryModeByte flags)]) = lastInstruction 0xF8 0x08 xs
      ∧ lastInstruction 0xFC 0x04 (xs ++ [commandSent (entryModeByte flags)]) = some (entryModeByte flags)
      ∧ lastInstruction 0xE0 0x20 (xs ++ [commandSent (entryModeByte flags)]) = lastInstruction 0xE0 0x20 xs := by
  have hkinds : ∀ flags : Byte, flags &&& 0xFC = 0 →
      lastInstruction 0xF8 0x08 [commandSent (entryModeByte flags)] = none
        ∧ lastInstruction 0xFC 0x04 [commandSent (entryModeByte flags)] = some (entryModeByte flags)
        ∧ lastInstruction 0xE0 0x20 [commandSent (entryModeByte flags)] = none := by decide
  obtain ⟨hdisplay, hentry, hfunction⟩ := hkinds flags h
  simp only [lastInstruction_append, hdisplay, hentry, hfunction, Option.some_or, Option.none_or, and_self]

/-- The three instructions a completed BEGIN leaves as the last of their kinds. -/
theorem lastInstruction_beginCommands {mode : Byte} (h : mode &&& 0xE3 = 0) (xs : List Sent) :
    lastInstruction 0xF8 0x08 (xs ++ beginCommands mode) = some 0x0C
      ∧ lastInstruction 0xFC 0x04 (xs ++ beginCommands mode) = some 0x06
      ∧ lastInstruction 0xE0 0x20 (xs ++ beginCommands mode) = some (functionSetByte mode) := by
  have hkind : ∀ mode : Byte, mode &&& 0xE3 = 0 →
      lastInstruction 0xE0 0x20 [commandSent (functionSetByte mode)] = some (functionSetByte mode) := by decide
  have hwake : lastInstruction 0xE0 0x20 (List.replicate (wakeSends mode) (commandSent (functionSetByte mode)))
      = some (functionSetByte mode) := by
    unfold wakeSends
    split
    · rw [show (4 : Nat) = 3 + 1 from rfl, List.replicate_succ', lastInstruction_append, hkind mode h]
      rfl
    · exact hkind mode h
  have hdisplay : lastInstruction 0xF8 0x08 [commandSent 0x0C, commandSent 0x01, commandSent 0x06] = some 0x0C := rfl
  have hentry : lastInstruction 0xFC 0x04 [commandSent 0x0C, commandSent 0x01, commandSent 0x06] = some 0x06 := rfl
  have hfunction : lastInstruction 0xE0 0x20 [commandSent 0x0C, commandSent 0x01, commandSent 0x06] = none := rfl
  simp only [beginCommands, lastInstruction_append, hdisplay, hentry, hfunction, hwake, Option.some_or, Option.none_or,
    and_self]

theorem exec_keeps_flagsSentInv {i : Instr} {s t : State} (hhost : i.port = .host) (hs : s.FlagsSentInv)
    (h : exec i s = .next t) (hok : t.returnedOk) : t.FlagsSentInv := by
  obtain ⟨hport, hreserved, hsent⟩ := hs
  have hreserved' := exec_reservedZero hreserved h
  refine ⟨(exec_commandPort h).trans hport, hreserved', fun hready => ?_⟩
  obtain ⟨-, hdisplay, hentry⟩ := hreserved
  obtain ⟨hmode, -, -⟩ := hreserved'
  obtain ⟨new, hnew, -, hall⟩ := exec_sent h
  rw [hall hok] at hnew
  cases exec_writes h with
  | init bus8 pins instr fsm next =>
    rw [next] at hready
    cases hready
  | begin cols lines cell instr fsm next =>
    rcases next with ⟨-, hdone⟩ | ⟨hnot, -⟩
    · rw [State.FlagsSent, hdone.sent, hdone.displayControlFlags, hdone.entryModeFlags]
      exact lastInstruction_beginCommands hmode s.sent
    · exact absurd hok hnot
  | displayControl flags instr actions reserved fields =>
    obtain ⟨-, hlastEntry, hlastFunction⟩ := hsent (fields.fsm.symm.trans hready)
    obtain ⟨-, hbegin⟩ := not_lifecycle_of_mem_displayOps instr
    rw [program_of_ne_begin hbegin, actions, sentOf_command] at hnew
    obtain ⟨hlast, hkeptEntry, hkeptFunction⟩ := lastInstruction_displayControl (reserved hdisplay) s.sent
    rw [State.FlagsSent, hnew, fields.displayControlFlags, fields.entryModeFlags, fields.modeFlags]
    exact ⟨hlast, hkeptEntry.trans hlastEntry, hkeptFunction.trans hlastFunction⟩
  | entryMode flags instr actions reserved fields =>
    obtain ⟨hlastDisplay, -, hlastFunction⟩ := hsent (fields.fsm.symm.trans hready)
    obtain ⟨-, hbegin⟩ := not_lifecycle_of_mem_entryOps instr
    rw [program_of_ne_begin hbegin, actions, sentOf_command] at hnew
    obtain ⟨hkeptDisplay, hlast, hkeptFunction⟩ := lastInstruction_entryMode (reserved hentry) s.sent
    rw [State.FlagsSent, hnew, fields.displayControlFlags, fields.entryModeFlags, fields.modeFlags]
    exact ⟨hkeptDisplay.trans hlastDisplay, hlast, hkeptFunction.trans hlastFunction⟩
  | nothing notInit notBegin notDisplay notEntry fields =>
    obtain ⟨hlastDisplay, hlastEntry, hlastFunction⟩ := hsent (fields.fsm.symm.trans hready)
    obtain ⟨hkeptDisplay, hkeptEntry, hkeptFunction⟩ := lastInstruction_plain (xs := s.sent)
      (plain_of_program hhost notInit notBegin notDisplay notEntry (accept s))
    rw [State.FlagsSent, hnew, fields.displayControlFlags, fields.entryModeFlags, fields.modeFlags]
    exact ⟨hkeptDisplay.trans hlastDisplay, hkeptEntry.trans hlastEntry, hkeptFunction.trans hlastFunction⟩

/-- Settles O57: what an instruction that returned has sent is its program, and that ends in the flags it wrote. -/
theorem stepKeepsFlagsSent : Obligations.StepKeepsFlagsSent := by
  intro s t hs h hok
  rcases step_next h with rfl | ⟨-, -, hcommand, -⟩ | ⟨i, bytes, -, hhost, hexec⟩
  · exact hs
  · obtain ⟨hport, -⟩ := hs
    exact absurd hport hcommand
  · exact exec_keeps_flagsSentInv (s := s.setHostPort bytes) hhost hs hexec hok

/-- Settles O59: at reset the flags are 0, and nothing has been sent and no event has happened. -/
theorem invariantsAtReset : Obligations.InvariantsAtReset := by
  have hreserved (latch0 : Byte) : (State.resetWith latch0).ReservedZero :=
    show (0x00 : Byte) &&& 0xE3 = 0 ∧ (0x00 : Byte) &&& 0xF8 = 0 ∧ (0x00 : Byte) &&& 0xFC = 0 by decide
  refine fun latch0 => ⟨⟨?_, hreserved latch0, trivial, by rintro flag ⟨⟩⟩, ⟨rfl, hreserved latch0, by rintro ⟨⟩⟩,
    ⟨rfl, hreserved latch0, by rintro x ⟨⟩⟩⟩
  rw [State.resetWith_timing]
  decide

end Sys2Proof.Proofs.Invariants

/-! ### Proofs: where an instruction is defined, and what it does not look at (42_initialization.md R143) -/

namespace Sys2Proof.Proofs.Definedness

open Sys2Proof Sys2Proof.Machine Sys2Proof.Proofs.ReadyOperations Sys2Proof.Proofs.Runs

/-! #### Refusals -/

theorem inUnconfigured_refused {s : State} (hfsm : s.fsm ≠ .unconfigured) (run : State → Outcome) :
    inUnconfigured s run = .refused (.outsideLifecycle s.fsm) := by
  cases h : s.fsm with
  | unconfigured => exact absurd h hfsm
  | roleAssigned => simp [inUnconfigured, h]
  | ready => simp [inUnconfigured, h]

theorem inRoleAssigned_refused {s : State} (hfsm : s.fsm ≠ .roleAssigned) (run : State → Outcome) :
    inRoleAssigned s run = .refused (.outsideLifecycle s.fsm) := by
  cases h : s.fsm with
  | unconfigured => simp [inRoleAssigned, h]
  | roleAssigned => exact absurd h hfsm
  | ready => simp [inRoleAssigned, h]

theorem onceConfigured_refused {s : State} (hfsm : s.fsm = .unconfigured) (run : State → Outcome) :
    onceConfigured s run = .refused (.outsideLifecycle .unconfigured) := by
  simp [onceConfigured, hfsm]

/-- Settles O13: each instruction begins with the guard of its lifecycle state. -/
theorem refusedOutsideTheLifecycle : Obligations.RefusedOutsideTheLifecycle := by
  intro i s h
  cases i with
  | init bus8 pins =>
    simp only [exec, execInit]
    exact inUnconfigured_refused (by simpa [admittedIn] using h) _
  | begin cols lines cell =>
    simp only [exec, execBegin]
    exact inRoleAssigned_refused (by simpa [admittedIn] using h) _
  | clearDisplay | returnHome _ | entryModeSet _ _ | displayControl _ _ _ | cursorShift _ _ _ | functionSet _ _ _ _
  | setCgramAddress _ _ | setDdramAddress _ =>
    have hfsm : s.fsm = .unconfigured := by simpa [admittedIn] using h
    rw [hfsm]
    exact onceConfigured_refused hfsm _
  | _ =>
    simp only [exec, execClear, execHome, execSetCursor, execScrollLeft, execScrollRight, execDisplayOn, execDisplayOff,
      execCursorOn, execCursorOff, execBlinkOn, execBlinkOff, execLeftToRight, execRightToLeft, execAutoscrollOn,
      execAutoscrollOff, execWriteChar, execWriteString, execCreateChar, execSetBacklight]
    exact inReady_refused (by simpa [admittedIn] using h) _

/-- SETCURSOR with a row that has no entry in the table after the clamp (43_display_cursor_ops.md R165). -/
theorem setCursor_refused {s : State} {row : Byte} (hfsm : s.fsm = .ready)
    (hrow : rowOffset (clampRow s.lineCount row) = none) (col : Byte) :
    exec (.setCursor col row) s = .refused (.rowOutsideTable (clampRow s.lineCount row)) := by
  have hrow' : rowOffset (clampRow (accept s).lineCount row) = none := hrow
  simp only [exec, execSetCursor]
  rw [inReady_ready hfsm]
  simp only [hrow']
  rfl

theorem exists_finish_next (result : Status) (p : Progress) : ∃ t, finish result p = .next t := by
  cases p with
  | going u => exact ⟨_, rfl⟩
  | ended u => exact ⟨_, rfl⟩

theorem exists_next {i : Instr} {s : State} (hadmitted : admittedIn i s.fsm = true) (hrow : ¬ rowless s i) :
    ∃ t, exec i s = .next t := by
  obtain ⟨f, -, hexec⟩ := exec_eq_run hadmitted hrow
  rw [hexec]
  exact exists_finish_next _ _

/-- Settles O14: an instruction that is defined is one run of actions, and a run always ends in a state. -/
theorem definedInstructionsHaveANextState : Obligations.DefinedInstructionsHaveANextState := by
  intro i s hadmitted hrow
  refine exists_next hadmitted ?_
  cases i with
  | setCursor col row => exact hrow col row rfl
  | _ => exact id

/-- Settles O16: INIT's field writes, with nothing to run. -/
theorem initCompletes : Obligations.InitCompletes := by
  intro bus8 pins s hfsm
  simp only [exec, execInit]
  rw [inUnconfigured_unconfigured hfsm]
  rfl

/-! #### What is never read -/

/-- Settles O50: accepting an operation forgets the earlier result, and no guard looks at it. -/
theorem earlierResultIsNeverRead : Obligations.EarlierResultIsNeverRead := by
  intro i s v
  cases i <;> rfl

/-- Settles O55: BEGIN does not use the column count. -/
theorem columnCountIsNeverRead : Obligations.ColumnCountIsNeverRead := fun _ _ _ _ _ => rfl

/-- No plan reads or writes `current_line` (10_state.md R31). -/
theorem plan_setCurrentLine (i : Instr) (s : State) (v : Byte) :
    plan (s.setCurrentLine v) i = ((plan s i).1.setCurrentLine v, (plan s i).2) := by
  cases i with
  | setCursor col row =>
    simp only [plan, State.setCurrentLine_lineCount]
    split <;> rfl
  | _ => rfl

/-- BEGIN writes `current_line` before anything else. -/
theorem bringUp_setCurrentLine (lines : Byte) (cell : Cell) (s : State) (v : Byte) :
    bringUp lines cell (s.setCurrentLine v) = bringUp lines cell s := rfl

/-- Two outcomes that differ in `current_line` at most. -/
inductive SameButLine : Outcome → Outcome → Prop where
  | next (t u : State) (h : u.setCurrentLine 0 = t.setCurrentLine 0) : SameButLine (.next t) (.next u)
  | refused (r : Refusal) : SameButLine (.refused r) (.refused r)

theorem sameButLine_finish (result : Status) (p : Progress) (v : Byte) :
    SameButLine (finish result p) (finish result (mapState (fun s => s.setCurrentLine v) p)) := by
  cases p with
  | going u => exact .next _ _ rfl
  | ended u => exact .next _ _ rfl

/-- Where an instruction is defined, its field writes and its actions are the same whatever `current_line` is. -/
theorem exec_setCurrentLine_of_defined {i : Instr} {s : State} (hadmitted : admittedIn i s.fsm = true)
    (hrow : ¬ rowless s i) (v : Byte) : SameButLine (exec i s) (exec i (s.setCurrentLine v)) := by
  have haccept : accept (s.setCurrentLine v) = (accept s).setCurrentLine v := rfl
  rcases init_or_begin_or_other i with ⟨bus8, pins, rfl⟩ | ⟨cols, lines, cell, rfl⟩ | ⟨hinit, hbegin⟩
  · have hfsm : s.fsm = .unconfigured := by simpa [admittedIn] using hadmitted
    rw [initCompletes bus8 pins s hfsm, initCompletes bus8 pins (s.setCurrentLine v) hfsm]
    exact .next _ _ rfl
  · have hfsm : s.fsm = .roleAssigned := by simpa [admittedIn] using hadmitted
    rw [exec_begin hfsm, exec_begin (s := s.setCurrentLine v) hfsm, haccept, bringUp_setCurrentLine]
    obtain ⟨t, ht⟩ := exists_finish_next (.okFlag true) (bringUp lines cell (accept s))
    rw [ht]
    exact .next t t rfl
  · have hrow' : ¬ rowless (s.setCurrentLine v) i := by
      cases i with
      | setCursor col row => exact hrow
      | _ => exact id
    rw [exec_plan i s hadmitted hinit hbegin hrow, exec_plan i (s.setCurrentLine v) hadmitted hinit hbegin hrow',
      haccept, plan_setCurrentLine, (fieldWrite_setCurrentLine v).runActions]
    exact sameButLine_finish _ _ v

theorem exec_setCurrentLine (i : Instr) (s : State) (v : Byte) :
    SameButLine (exec i s) (exec i (s.setCurrentLine v)) := by
  cases hadmitted : admittedIn i s.fsm with
  | false =>
    rw [refusedOutsideTheLifecycle i s hadmitted, refusedOutsideTheLifecycle i (s.setCurrentLine v) hadmitted]
    exact .refused _
  | true =>
    by_cases hrow : rowless s i
    · cases i with
      | setCursor col row =>
        have hfsm : s.fsm = .ready := by simpa [admittedIn] using hadmitted
        rw [setCursor_refused hfsm hrow, setCursor_refused (s := s.setCurrentLine v) hfsm hrow]
        exact .refused _
      | _ => exact hrow.elim
    · exact exec_setCurrentLine_of_defined hadmitted hrow v

/-- Settles O54: a run of actions commutes with a write of `current_line`. -/
theorem currentLineIsNeverRead : Obligations.CurrentLineIsNeverRead := by
  intro i s v
  have h := exec_setCurrentLine i s v
  generalize exec i s = o at h
  generalize exec i (s.setCurrentLine v) = o' at h
  cases h with
  | next t u h => exact ⟨fun t' ht => ⟨u, rfl, by cases ht; exact h⟩, by rintro r ⟨⟩⟩
  | refused r => exact ⟨by rintro t ⟨⟩, by rintro r' ⟨⟩; rfl⟩

end Sys2Proof.Proofs.Definedness

/-! ### Proofs: SetPin, transaction by transaction (40_pin_io.md R110 to R112) -/

namespace Sys2Proof.Proofs.SetPin

open Sys2Proof Sys2Proof.Machine

/-! #### The two transactions -/

/-- The answer `r` to a read from `s` returns the byte `v`: the latch, or a foreign byte. -/
abbrev Answers (s : State) (r : Reply) (v : Byte) : Prop := (r = .ok ∧ v = s.latch) ∨ r = .answer v

section
variable {s : State} {first : Reply} {rest : List Reply} {v after : Byte} {detail : Nat}

theorem rdReg_answered (h : s.replies = first :: rest) (hv : Answers s first v) :
    rdReg s = .got v { s with replies := rest, trace := s.trace ++ [.rd v] } := by
  rcases hv with ⟨rfl, rfl⟩ | rfl <;>
    simp [rdReg, nextReply, dropReply, h, State.setReplies, State.log]

theorem rdReg_failed (h : s.replies = .fail after detail :: rest) :
    rdReg s = .ended { s with
      replies := rest, trace := s.trace ++ [.rdFail], status := some (.busError .read detail) } := by
  simp [rdReg, nextReply, dropReply, h, State.setReplies, State.log, State.setStatus, raiseBusError]

theorem rdReg_unanswered (h : s.replies = .silent after :: rest) :
    rdReg s = .ended { s with replies := rest, waiting := true } := by
  simp [rdReg, nextReply, dropReply, h, State.setReplies, State.setWaiting]

theorem wrReg_answered (h : s.replies = .ok :: rest) (w : Byte) :
    wrReg w s = .going { s with replies := rest, latch := w, trace := s.trace ++ [.wr w] } := by
  simp [wrReg, nextReply, dropReply, h, State.setReplies, State.setLatch, State.log]

theorem wrReg_failed (h : s.replies = .fail after detail :: rest) (w : Byte) :
    wrReg w s = .ended { s with
      replies := rest, latch := after, trace := s.trace ++ [.wrFail w],
      status := some (.busError .write detail) } := by
  simp [wrReg, nextReply, dropReply, h, State.setReplies, State.setLatch, State.log, State.setStatus, raiseBusError]

theorem wrReg_unanswered (h : s.replies = .silent after :: rest) (w : Byte) :
    wrReg w s = .ended { s with replies := rest, latch := after, waiting := true } := by
  simp [wrReg, nextReply, dropReply, h, State.setReplies, State.setLatch, State.setWaiting]

theorem setPin_answered (h : s.replies = first :: rest) (hv : Answers s first v) (p : Fin 8) (level : Bool) :
    setPin (some p) level s =
      wrReg (setBit v p level) { s with replies := rest, trace := s.trace ++ [.rd v] } := by
  simp only [setPin, readModifyWrite, rdReg_answered h hv]

/-- Two transactions under the contract, whatever comes after them. -/
theorem runAction_drive_answered (h : s.replies = .ok :: .ok :: rest) (p : Fin 8) (level : Bool) :
    runAction (.drive (some p) level) s = .going (s.after [.drive (some p) level]) := by
  rw [runAction, setPin_answered h (.inl ⟨rfl, rfl⟩), wrReg_answered rfl]
  simp [State.after, h, eventsOf, actionEvents, latchOf, actionLatch, callsOf, actionCalls, sentOf, actionSent]

end

/-! #### SetPin -/

/-- Settles O26: the failure or the silence is met by the read, or by the write after an answered read. -/
theorem setPinFailures : Obligations.SetPinFailures := by
  refine fun p level s v after detail first rest => ⟨fun h => ?_, fun h => ?_, fun hv => ⟨fun h => ?_, fun h => ?_⟩⟩
  · simp only [setPin, readModifyWrite, rdReg_failed h]
  · simp only [setPin, readModifyWrite, rdReg_unanswered h]
  · rw [setPin_answered h hv, wrReg_failed rfl, List.append_assoc]
    rfl
  · rw [setPin_answered h hv, wrReg_unanswered rfl]

/-- Settles O27: the byte that the read answered is the one the write replaces a bit of. -/
theorem foreignWriteIsLost : Obligations.ForeignWriteIsLost := by
  intro p level s v rest h
  rw [setPin_answered h (.inr rfl), wrReg_answered rfl, List.append_assoc]
  rfl

/-- Settles O25: under the contract SetPin is the one action `drive`, and `setBit` replaces one bit. -/
theorem setPinIsolation : Obligations.SetPinIsolation := by
  intro p level s hbus
  refine ⟨s.after [.drive (some p) level], readModifyWrite_busOk hbus p level, rfl, setBit_getLsbD_self s.latch p level,
    fun q hq => setBit_getLsbD_ne s.latch p q level hq, ⟨rfl, rfl, rfl, rfl, rfl, rfl, rfl, rfl, rfl, rfl⟩, rfl⟩

end Sys2Proof.Proofs.SetPin

/-! ### Proofs: what no instruction does at its interfaces (60_exceptions.md, 20_memory.md section 1, 40_pin_io.md) -/

namespace Sys2Proof.Proofs.Safety

open Sys2Proof Sys2Proof.Machine Sys2Proof.Proofs.Runs Sys2Proof.Proofs.Fields
  Sys2Proof.Proofs.SetPin

/-! #### How an operation ends -/

/-- Settles O48: whatever the proxy answers, a run of actions adds events that keep the write law. -/
theorem everyWriteFollowsItsRead : Obligations.EveryWriteFollowsItsRead := by
  intro i s t h
  obtain ⟨events, htrace, hlaw, -⟩ := exec_ends h
  exact ⟨events, htrace, hlaw⟩

/-- An operation that ends in a BusError leaves the lifecycle state (60_exceptions.md R204). -/
theorem fsm_of_busError {i : Instr} {s t : State} {cause : Cause} {detail : Nat} (h : exec i s = .next t)
    (hstatus : t.status = some (.busError cause detail)) : t.fsm = s.fsm := by
  cases exec_writes h with
  | init bus8 pins instr fsm next =>
    rw [next] at hstatus
    cases hstatus
  | begin cols lines cell instr fsm next =>
    rcases next with ⟨hok, -⟩ | ⟨-, n, hended⟩
    · rw [hstatus] at hok
      cases hok
    · exact hended.fsm
  | displayControl flags instr actions reserved fields => exact fields.fsm
  | entryMode flags instr actions reserved fields => exact fields.fsm
  | nothing notInit notBegin notDisplay notEntry fields => exact fields.fsm

/-- Settles O49: of the three ways to end, only `Failed` leaves a BusError and only `Returned` an `Ok`. -/
theorem busErrorEndsTheOperation : Obligations.BusErrorEndsTheOperation := by
  intro i s t h
  obtain ⟨events, htrace, -, hends⟩ := exec_ends h
  refine ⟨fun cause detail hstatus => ⟨fsm_of_busError h hstatus, ?_⟩, fun hok => ⟨events, htrace, ?_⟩⟩
  · rcases hends with hreturned |
        ⟨before, e, cause', detail', after, hevents, hbefore, hfails, hbus, hwaiting, hreply⟩ | hhung
    · rcases hreturned.status with hok | hok <;> rw [hstatus] at hok <;> cases hok
    · rw [hstatus] at hbus
      cases hbus
      exact ⟨hwaiting, before, e, after, by rw [htrace, hevents, List.append_assoc], hbefore, hreply, hfails⟩
    · cases hstatus.symm.trans hhung.status
  · rcases hends with hreturned | ⟨before, e, cause, detail, after, -, -, -, hbus, -⟩ | hhung
    · exact hreturned.noFailure
    · rcases hok with hok | hok <;> cases hok.symm.trans hbus
    · rcases hok with hok | hok <;> cases hok.symm.trans hhung.status

/-- Settles O52: an operation that has not returned stands at a transaction that is never answered. -/
theorem operationsEndIfAnswered : Obligations.OperationsEndIfAnswered := by
  intro i s t hanswered h
  obtain ⟨events, -, -, hreturned | ⟨-, -, cause, detail, -, -, -, -, hbus, hwaiting, -⟩ | hhung⟩ := exec_ends h
  · refine ⟨hreturned.waiting, ?_⟩
    rcases hreturned.status with hok | hok <;> rw [hok] <;> exact Option.some_ne_none _
  · exact ⟨hwaiting, by rw [hbus]; exact Option.some_ne_none _⟩
  · obtain ⟨after, hsilent⟩ := hhung.unanswered
    cases hanswered _ hsilent

/-! #### The single-owner premise -/

/-- BEGIN and every other instruction but SET_BACKLIGHT drive pins of roles only. -/
theorem rolesOnly_program {i : Instr} (hi : ∀ on, i ≠ .setBacklight on) (s : State) :
    rolesOnly s.pinMap (program s i) := by
  cases i with
  | begin cols lines cell =>
    exact rolesOnly_append (rolesOnly_append (rolesOnly_wakeUp (storeGeometry lines cell s))
      (rolesOnly_append (rolesOnly_append (rolesOnly_command (storeGeometry lines cell s) 0x0C)
        (rolesOnly_command (storeGeometry lines cell s) 0x01)) (rolesOnly_wait _ _)))
      (rolesOnly_command (storeGeometry lines cell s) 0x06)
  | _ => exact rolesOnly_plan s _ hi

/-- A position an instruction may write is that of a role, or the backlight's. -/
theorem writable_program {i : Instr} {s : State} {q : Fin 8} (h : writable (program s i) q) :
    onMap s.pinMap q ∨ (q = 7 ∧ ∃ on, i = .setBacklight on) := by
  by_cases hi : ∃ on, i = .setBacklight on
  · obtain ⟨on, rfl⟩ := hi
    obtain ⟨level, hlevel⟩ := h
    have hdrive : Action.drive (some q) level = .drive (some 7) on := List.mem_singleton.mp hlevel
    cases hdrive
    exact .inr ⟨rfl, on, rfl⟩
  · exact .inl (rolesOnly_writable (rolesOnly_program (fun on hon => hi ⟨on, hon⟩) s) q h)

/-- What an instruction does to the latch under the single-owner premise. -/
theorem exec_own {i : Instr} {s t : State} (howner : s.soleOwner) (h : exec i s = .next t) :
    ∃ events, t.trace = s.trace ++ events ∧ t.soleOwner ∧ readsReturnLatch s.latch events
      ∧ (t.returnedOk ∨ (∃ detail, t.status = some (.busError .read detail)) → t.latch = lastWritten s.latch events)
      ∧ ∀ q : Fin 8, ¬ writable (program (accept s) i) q →
          ∀ w, Event.wr w ∈ events ∨ Event.wrFail w ∈ events → w.getLsbD q.val = s.latch.getLsbD q.val := by
  obtain ⟨u, hout, hend⟩ := exec_run h
  obtain ⟨events, hown⟩ := runActions_own (s := accept s) howner (program (accept s) i)
  obtain ⟨-, _, _, hspec, -, -⟩ := runActions_spec (program (accept s) i) (accept s)
  have hkept := hown.kept
  have hreads := hown.reads
  refine ⟨events, ?_, ?_, hreads, fun hstatus => ?_, hkept⟩ <;>
    rcases hend with ⟨hrun, hresult⟩ | ⟨hrun, hended⟩ <;> rw [hrun] at hown
  · exact hout.trace.trans hown.trace
  · exact hout.trace.trans hown.trace
  · rw [State.soleOwner, hout.replies]
    exact hown.soleOwner
  · rw [State.soleOwner, hout.replies]
    exact hown.soleOwner
  · exact hout.latch.trans (hown.latch (.inl ⟨u, rfl⟩))
  · rw [State.returnedOk, hended] at hstatus
    rcases hstatus with hok | ⟨detail, hread⟩
    · exact absurd hok (not_returnedOk_of_ended hspec hrun)
    · exact hout.latch.trans (hown.latch (.inr ⟨detail, hread, rfl⟩))

/-- Settles O60: the clauses of `exec_own` on the trace, the reads and the latch. -/
theorem soleOwnerReadsLastWritten : Obligations.SoleOwnerReadsLastWritten := by
  intro i s t howner h
  obtain ⟨events, htrace, howner', hreads, hlatch, -⟩ := exec_own howner h
  exact ⟨howner', events, htrace, hreads, hlatch⟩

/-- An instruction with nothing to run leaves the latch. -/
theorem latch_of_program_nil {i : Instr} {s t : State} (hprogram : program (accept s) i = [])
    (h : exec i s = .next t) : t.latch = s.latch := by
  obtain ⟨u, hout, hend⟩ := exec_run h
  rw [hprogram] at hend
  rcases hend with ⟨hrun, -⟩ | ⟨hrun, -⟩ <;> cases hrun
  exact hout.latch

/-- Settles O47: an unowned position is none an instruction may write, so no byte written changes its bit. -/
theorem unownedLatchBitsKept : Obligations.UnownedLatchBitsKept := by
  intro i s t h
  refine ⟨fun p howner hunowned hbacklight => ?_, ?_⟩
  · obtain ⟨events, htrace, -, -, hlatch, hkept⟩ := exec_own howner h
    have hnot : ¬ writable (program (accept s) i) p := by
      intro hw
      rcases writable_program hw with ⟨role, hrole, hpin⟩ | ⟨hseven, on, hi⟩
      · exact hunowned role hrole hpin
      · rcases hbacklight with hne | hne
        · exact hne on hi
        · exact hne hseven
    exact ⟨⟨events, htrace, hkept p hnot⟩, fun hstatus => by rw [hlatch hstatus]; exact lastWritten_kept (hkept p hnot)⟩
  · rintro (⟨bus8, pins, rfl⟩ | rfl)
    · exact latch_of_program_nil rfl h
    · exact latch_of_program_nil rfl h

/-! #### Operations without a transaction -/

/-- The events of a list of actions contain one transaction per call. -/
theorem countP_eventsOf (as : List Action) (L : Byte) :
    (eventsOf as L).countP Event.isTransaction = callsOf as := by
  induction as generalizing L with
  | nil => rfl
  | cons a rest ih =>
    have haction : (actionEvents a L).countP Event.isTransaction = actionCalls a := by
      rcases a with ⟨_ | p, level⟩ | ms | ⟨b, isData⟩ <;> rfl
    rw [eventsOf, List.countP_append, haction, ih, callsOf]

/-- An action without a transaction does what it does under the contract. -/
theorem runAction_noCalls {a : Action} (h : actionCalls a = 0) (s : State) : runAction a s = .going (s.after [a]) := by
  rcases a with ⟨_ | p, level⟩ | ms | ⟨b, isData⟩
  · simp [runAction, setPin, State.after, eventsOf, actionEvents, latchOf, actionLatch, sentOf, actionSent, callsOf,
      actionCalls]
  · cases h
  · simp [runAction, delay, State.log, State.after, eventsOf, actionEvents, latchOf, actionLatch, sentOf, actionSent,
      callsOf, actionCalls]
  · simp [runAction, State.recordSent, State.after, eventsOf, actionEvents, latchOf, actionLatch, sentOf, actionSent,
      callsOf, actionCalls]

/-- A list of actions without a transaction runs to its end whatever the proxy answers. -/
theorem runActions_noCalls {as : List Action} (h : callsOf as = 0) (s : State) :
    runActions as s = .going (s.after as) := by
  induction as generalizing s with
  | nil => simp
  | cons a rest ih =>
    obtain ⟨ha, hrest⟩ : actionCalls a = 0 ∧ callsOf rest = 0 := by simpa [callsOf] using h
    rw [runActions_cons, runAction_noCalls ha, Progress.andThen_going, ih hrest, ← State.after_cons]

theorem latchOf_noCalls {as : List Action} (h : callsOf as = 0) (L : Byte) : latchOf as L = L := by
  induction as generalizing L with
  | nil => rfl
  | cons a rest ih =>
    obtain ⟨ha, hrest⟩ : actionCalls a = 0 ∧ callsOf rest = 0 := by simpa [callsOf] using h
    have hlatch : actionLatch a L = L := by
      rcases a with ⟨_ | p, level⟩ | ms | ⟨b, isData⟩
      · rfl
      · cases ha
      · rfl
      · rfl
    rw [latchOf, hlatch, ih hrest]

/-- On a map with every role unused the pins of roles make no transaction. -/
theorem callsOf_rolesOnly {m : PinMap} {as : List Action} (hunused : m.allUnused) (h : rolesOnly m as) :
    callsOf as = 0 := by
  induction as with
  | nil => rfl
  | cons a rest ih =>
    rw [callsOf, ih fun p level hp => h p level (List.mem_cons_of_mem a hp)]
    cases a with
    | drive p level =>
      obtain ⟨role, rfl⟩ := h p level List.mem_cons_self
      rw [hunused role (Role.mem_all role)]
      rfl
    | wait ms => rfl
    | delivered b isData => rfl

theorem callsOf_program {i : Instr} {s : State}
    (h : (s.pinMap.allUnused ∧ ∀ on, i ≠ .setBacklight on) ∨ (∃ b p, i = .init b p) ∨ i = .writeString []) :
    callsOf (program s i) = 0 := by
  rcases h with ⟨hunused, hi⟩ | ⟨b, p, rfl⟩ | rfl
  · exact callsOf_rolesOnly hunused (rolesOnly_program hi s)
  · rfl
  · rfl

/-- Settles O53: a program without a transaction runs to its end. -/
theorem noTransactionNoBusError : Obligations.NoTransactionNoBusError := by
  intro i s t h hnone
  have hcalls : callsOf (program (accept s) i) = 0 := callsOf_program (s := accept s) hnone
  obtain ⟨u, hout, hend⟩ := exec_run h
  rw [runActions_noCalls hcalls] at hend
  rcases hend with ⟨hu, hstatus⟩ | ⟨hu, -⟩ <;> cases hu
  refine ⟨by rw [State.returnedOk, hstatus]; exact result_ok i, hout.latch.trans (latchOf_noCalls hcalls s.latch), ?_,
    eventsOf (program (accept s) i) s.latch, hout.trace, by rw [countP_eventsOf, hcalls]⟩
  rw [hout.replies, State.after, hcalls]
  rfl

/-! #### The abort is precise (60_exceptions.md section 2) -/

/-- The proxy answers `n` transactions under the contract and fails the next. -/
def FailsAfter (s : State) (n : Nat) : Prop :=
  ∃ after detail rest, s.replies = List.replicate n .ok ++ .fail after detail :: rest

/-- The run `p` from `s` has ended at transaction `n + 1`, having done until then what `events` begin with. -/
def CutAt (s : State) (events : List Event) (n : Nat) (p : Progress) : Prop :=
  ∃ t before e, p = .ended t ∧ t.trace = s.trace ++ (before ++ [e]) ∧ before <+: events
    ∧ before.countP Event.isTransaction = n ∧ e.isTransaction = true

theorem failsAfter_after {s : State} {n : Nat} (h : FailsAfter s n) {as : List Action} (hcalls : callsOf as ≤ n) :
    FailsAfter (s.after as) (n - callsOf as) := by
  obtain ⟨after, detail, rest, hreplies⟩ := h
  refine ⟨after, detail, rest, ?_⟩
  have hlength : callsOf as ≤ (List.replicate n Reply.ok).length := by rwa [List.length_replicate]
  rw [State.after, hreplies, List.drop_append_of_le_length hlength, List.drop_replicate]

theorem runAction_failsAfter {s : State} {n : Nat} (h : FailsAfter s n) (a : Action) :
    (actionCalls a ≤ n ∧ runAction a s = .going (s.after [a]))
      ∨ CutAt s (actionEvents a s.latch) n (runAction a s) := by
  rcases a with ⟨_ | p, level⟩ | ms | ⟨b, isData⟩
  · exact .inl ⟨Nat.zero_le n, runAction_noCalls rfl s⟩
  · obtain ⟨after, detail, rest, hreplies⟩ := h
    obtain hzero | hone | ⟨m, hmore⟩ : n = 0 ∨ n = 1 ∨ ∃ m, n = m + 2 := by
      rcases n with _ | _ | m
      · exact .inl rfl
      · exact .inr (.inl rfl)
      · exact .inr (.inr ⟨m, rfl⟩)
    · subst hzero
      exact .inr ⟨_, [], .rdFail, by simp only [runAction, setPin, readModifyWrite, rdReg_failed hreplies]; rfl, rfl,
        List.nil_prefix, rfl, rfl⟩
    · subst hone
      have hrun := setPin_answered hreplies (.inl ⟨rfl, rfl⟩) p level
      rw [wrReg_failed rfl] at hrun
      exact .inr ⟨_, [.rd s.latch], .wrFail (setBit s.latch p level), hrun, List.append_assoc _ _ _, ⟨_, rfl⟩, rfl, rfl⟩
    · subst hmore
      exact .inl ⟨Nat.le_add_left 2 m, runAction_drive_answered hreplies p level⟩
  · exact .inl ⟨Nat.zero_le n, runAction_noCalls rfl s⟩
  · exact .inl ⟨Nat.zero_le n, runAction_noCalls rfl s⟩

/-- A list of actions, up to the first failure. -/
theorem runActions_failsAfter {s : State} {n : Nat} (h : FailsAfter s n) (as : List Action) :
    (∃ t, runActions as s = .going t) ∨ CutAt s (eventsOf as s.latch) n (runActions as s) := by
  induction as generalizing s n with
  | nil => exact .inl ⟨s, rfl⟩
  | cons a rest ih =>
    rw [runActions_cons]
    rcases runAction_failsAfter h a with ⟨hcalls, hrun⟩ | ⟨t, before, e, hrun, htrace, hprefix, hcount, he⟩
    · rw [hrun, Progress.andThen_going]
      rcases ih (failsAfter_after h (as := [a]) hcalls) with hgoing |
          ⟨t, before, e, hcut, htrace, hprefix, hcount, he⟩
      · exact .inl hgoing
      · refine .inr ⟨t, actionEvents a s.latch ++ before, e, hcut, ?_, ?_, ?_, he⟩
        · rw [htrace]
          simp [State.after, eventsOf]
        · exact (List.prefix_append_right_inj _).mpr hprefix
        · have haction := countP_eventsOf [a] s.latch
          simp only [eventsOf, callsOf, List.append_nil, Nat.add_zero] at haction hcount
          rw [List.countP_append, haction, hcount]
          omega
    · rw [hrun, Progress.andThen_ended]
      exact .inr ⟨t, before, e, rfl, htrace, hprefix.trans (List.prefix_append _ _), hcount, he⟩

/-- No program depends on the proxy's answers. -/
theorem program_setReplies (i : Instr) (s : State) (v : List Reply) : program (s.setReplies v) i = program s i := by
  cases i with
  | setCursor col row =>
    simp only [program, plan, State.setReplies_lineCount]
    split <;> rfl
  | _ => rfl

/-- Settles O51: the two runs have the same program, and the failing one is cut at its transaction `n + 1`. -/
theorem failedRunIsAPrefix : Obligations.FailedRunIsAPrefix := by
  intro i s t u n after detail rest cause hreplies h hstatus hfree
  have hfails : FailsAfter (accept s) n := ⟨after, detail, rest, hreplies⟩
  have hbus : (accept (s.setReplies [])).busOk := by
    rintro r ⟨⟩
  have hprogram : program (accept (s.setReplies [])) i = program (accept s) i := program_setReplies i (accept s) []
  have hfreeTrace : u.trace = s.trace ++ eventsOf (program (accept s) i) s.latch := by
    obtain ⟨w, hout, hend⟩ := exec_run hfree
    rw [runActions_busOk hbus, hprogram] at hend
    rcases hend with ⟨hw, -⟩ | ⟨hw, -⟩ <;> cases hw
    exact hout.trace
  obtain ⟨before, e, htrace, hprefix, hcount, he⟩ : ∃ before e, t.trace = s.trace ++ (before ++ [e])
      ∧ before <+: eventsOf (program (accept s) i) s.latch ∧ before.countP Event.isTransaction = n
      ∧ e.isTransaction = true := by
    obtain ⟨w, hout, hend⟩ := exec_run h
    rcases hend with ⟨-, hresult⟩ | ⟨hrun, -⟩
    · have hok := result_ok i
      rw [← hresult, hstatus] at hok
      rcases hok with hok | hok <;> cases hok
    · rcases runActions_failsAfter hfails (program (accept s) i) with ⟨x, hgoing⟩ |
          ⟨x, before, e, hended, htrace, hrest⟩
      · cases hrun.symm.trans hgoing
      · cases hrun.symm.trans hended
        exact ⟨before, e, hout.trace.trans htrace, hrest⟩
  rw [htrace, hfreeTrace, List.drop_left, List.drop_left, List.dropLast_concat, List.countP_append, hcount]
  exact ⟨hprefix, by simp [he]⟩

end Sys2Proof.Proofs.Safety

/-! ### Proofs: completion of the other operations of `Ready` and of the block's commands (43_display_cursor_ops.md) -/

namespace Sys2Proof.Proofs.Completion

open Sys2Proof Sys2Proof.Machine Sys2Proof.Proofs.Encoding Sys2Proof.Proofs.ReadyOperations
  Sys2Proof.Proofs.DisplayCursor Sys2Proof.Proofs.Runs Sys2Proof.Proofs.Fields Sys2Proof.Proofs.Definedness

/-- What an operation of `Ready` does depends on what it does once it has been accepted. -/
theorem inReady_congr {s : State} {run run' : State → Outcome} (h : run (accept s) = run' (accept s)) :
    inReady s run = inReady s run' := by
  unfold inReady
  rw [h]

/-! #### SETCURSOR -/

theorem setCursor_readyOperation {s : State} {row offset : Byte}
    (hrow : rowOffset (clampRow s.lineCount row) = some offset) (col : Byte) :
    ReadyOperation (.setCursor col row) s s (s.send (0x80 ||| (col + offset)) false) := by
  have hrow' : rowOffset (clampRow (accept s).lineCount row) = some offset := hrow
  simp only [ReadyOperation, exec, execSetCursor]
  refine inReady_congr ?_
  simp only [hrow']
  rfl

/-- Settles O34: the clamped row's table entry, added to the column, is the address sent. -/
theorem setCursorCompletes : Obligations.SetCursorCompletes := by
  intro s col row offset hfsm hrow
  have h := setCursor_readyOperation (s := s) hrow col
  exact ⟨h.completes hfsm, h.exists_next hfsm⟩

theorem three_lt_clampRow_zero (row : Byte) : 3 < clampRow 0 row := by
  revert row
  decide

/-- With one to four lines the clamp leaves a row of the table. -/
theorem clampRow_le_three {lineCount : Byte} (hone : 1 ≤ lineCount) (hfour : lineCount ≤ 4) (row : Byte) :
    clampRow lineCount row ≤ 3 := by
  unfold clampRow
  split <;> bv_omega

/-- With more than four lines the clamp moves no row across the table's end. -/
theorem three_lt_clampRow_iff {lineCount : Byte} (hfour : 4 < lineCount) (row : Byte) :
    3 < clampRow lineCount row ↔ 3 < row := by
  unfold clampRow
  split <;> bv_omega

/-- Settles O35: the row table has an entry exactly for the rows up to 3. -/
theorem setCursorRefusals : Obligations.SetCursorRefusals := by
  refine fun s col row hfsm => ⟨fun hrow => setCursor_refused hfsm (rowOffset_eq_none_of_three_lt hrow) col,
    fun hrow => exists_next (by rw [hfsm]; rfl) fun hnone => ?_, fun hzero => ?_,
    fun hone hfour => clampRow_le_three hone hfour row, fun hfour => three_lt_clampRow_iff hfour row⟩
  · have hsome := rowOffset_isSome (clampRow s.lineCount row)
    have hle : (clampRow s.lineCount row).toNat ≤ 3 := BitVec.le_def.mp hrow
    rw [hnone, decide_eq_true hle] at hsome
    cases hsome
  · rw [hzero]
    exact three_lt_clampRow_zero row

/-! #### The scrolls -/

/-- Settles O38: the two cursor-shift bytes. -/
theorem scrollsComplete : Obligations.ScrollsComplete := by
  intro s i b hmem hfsm
  have h : ReadyOperation i s s (s.send b false) := by
    simp only [List.mem_cons, List.not_mem_nil, or_false, Prod.mk.injEq] at hmem
    rcases hmem with ⟨rfl, rfl⟩ | ⟨rfl, rfl⟩ <;> rfl
  exact ⟨h.completes hfsm, h.exists_next hfsm⟩

/-! #### Characters -/

theorem writeString_readyOperation (s : State) (text : List Byte) :
    ReadyOperation (.writeString text) s s (s.dataBytes text) := rfl

/-- Settles O40: the characters are the actions, and an empty string has none. -/
theorem writeStringCompletes : Obligations.WriteStringCompletes := by
  intro s text hfsm
  have h := writeString_readyOperation s text
  refine ⟨h.completes hfsm, h.exists_next hfsm, ?_⟩
  rw [(writeString_readyOperation s []).exec_ready hfsm]
  rfl

/-- The framing of the characters depends on the pin map, the delays and `mode_flags` only. -/
theorem dataBytes_congr {s t : State} (h : s.SameFields t) (text : List Byte) : t.dataBytes text = s.dataBytes text :=
  congrArg text.flatMap (funext fun b => send_congr h.pinMap h.timing h.modeFlags b true)

/-- Settles O41: the string's actions are the first character's and then the rest's, which begin where it has ended. -/
theorem writeStringIsCharByChar : Obligations.WriteStringIsCharByChar := by
  intro s t c text h
  have hfsm : s.fsm = .ready := by simpa [admittedIn] using exec_next_admitted h
  have hchar : finish .ok (runActions (s.send c true) (accept s)) = .next t :=
    (writeChar_readyOperation s c).perform_next h
  have hstring : exec (.writeString (c :: text)) s =
      finish .ok ((runActions (s.send c true) (accept s)).andThen (runActions (s.dataBytes text))) := by
    rw [← runActions_append]
    exact (writeString_readyOperation s (c :: text)).exec_ready hfsm
  obtain ⟨-, events, bytes, hspec, -, -⟩ := runActions_spec (s.send c true) (accept s)
  rw [hstring]
  rcases finish_next hchar with ⟨u, hrun, rfl⟩ | hrun <;> rw [hrun] at hspec ⊢
  · refine ⟨fun _ => ?_, fun hne => absurd rfl hne⟩
    obtain ⟨hstatus, -⟩ := hspec.going u rfl
    have hframe : s.SameFields (u.setStatus (some .ok)) :=
      (sameFields_setStatus s u _).mpr ((sameFields_accept s).trans (sameFields_of_going hrun))
    have haccept : accept (u.setStatus (some .ok)) = u := by
      rw [accept, State.setStatus, State.setStatus, ← hstatus.trans (State.setStatus_status s none)]
    rw [(writeString_readyOperation _ text).exec_ready (hframe.fsm.trans hfsm), haccept, dataBytes_congr hframe]
    rfl
  · exact ⟨fun hok => absurd (.inl hok) (not_returnedOk_of_ended hspec rfl), fun _ => rfl⟩

/-! #### CREATE_CHAR -/

theorem createChar_readyOperation (s : State) (slot : Byte) (g : Glyph) :
    ReadyOperation (.createChar slot g) s s (s.send (0x40 ||| ((slot &&& 0x07) <<< 3)) false
      ++ s.send g.p0 true ++ s.send g.p1 true ++ s.send g.p2 true ++ s.send g.p3 true
      ++ s.send g.p4 true ++ s.send g.p5 true ++ s.send g.p6 true ++ s.send g.p7 true) := by
  have hactions : s.command (cgramByte slot) ++ s.dataBytes g.bytes = s.send (0x40 ||| ((slot &&& 0x07) <<< 3)) false
      ++ s.send g.p0 true ++ s.send g.p1 true ++ s.send g.p2 true ++ s.send g.p3 true
      ++ s.send g.p4 true ++ s.send g.p5 true ++ s.send g.p6 true ++ s.send g.p7 true := by
    simp only [State.dataBytes, Glyph.bytes, List.flatMap_cons, List.flatMap_nil, List.append_nil, List.append_assoc]
    rfl
  rw [← hactions]
  rfl

theorem cgramByte_masked (slot : Byte) : cgramByte (slot &&& 0x07) = cgramByte slot := by
  rw [cgramByte, BitVec.and_assoc, BitVec.and_self, cgramByte]

/-- Settles O42: the address of the masked slot and the eight pattern bytes; masking twice is masking once. -/
theorem createCharCompletes : Obligations.CreateCharCompletes := by
  intro s slot g
  have h := createChar_readyOperation s slot g
  refine ⟨h.refused, h.completes, h.exists_next, ?_⟩
  simp only [exec, execCreateChar, cgramByte_masked]

/-! #### SET_BACKLIGHT -/

theorem setBacklight_readyOperation (s : State) (on : Bool) :
    ReadyOperation (.setBacklight on) s s [.drive (some 7) on] := by
  simp only [ReadyOperation, exec, execSetBacklight]
  refine inReady_congr ?_
  rw [readModifyWrite_eq, perform]

/-- With no role on position 7 the backlight's write does not move Enable. -/
theorem strobes_backlight {pins : PinMap} (h : pins.WF7) (wide : Bool) (L : Byte) (on : Bool) :
    strobes pins wide L [.rd L, .wr (setBit L 7 on)] = [] := by
  obtain ⟨-, hseven⟩ := h
  have henable : lineLevel pins .en (setBit L 7 on) = lineLevel pins .en L := by
    unfold lineLevel
    cases hp : pins.pin .en with
    | none => rfl
    | some p =>
      refine setBit_getLsbD_ne L 7 p on ?_
      rintro rfl
      exact hseven .en (Role.mem_all .en) hp
  simp [strobes, henable]

/-- One SetPin under the contract, written out. -/
theorem after_backlight (s : State) (on : Bool) : s.after [.drive (some 7) on] = { s with
    latch := setBit s.latch 7 on, trace := s.trace ++ [.rd s.latch, .wr (setBit s.latch 7 on)],
    replies := s.replies.drop 2 } := by
  simp [State.after, latchOf, actionLatch, eventsOf, actionEvents, sentOf, actionSent, callsOf, actionCalls]

/-- Settles O43: SET_BACKLIGHT is SetPin on position 7. -/
theorem setBacklightCompletes : Obligations.SetBacklightCompletes := by
  intro s on hfsm
  have h := setBacklight_readyOperation s on
  refine ⟨fun hbus => ⟨?_, fun hmap wide => strobes_backlight hmap wide s.latch on⟩, h.exists_next hfsm⟩
  rw [h.completes hfsm hbus, after_backlight]
  rfl

/-- Setting a bit to what it is changes nothing. -/
theorem setBit_setBit (v : Byte) (p : Fin 8) (level : Bool) : setBit (setBit v p level) p level = setBit v p level := by
  refine BitVec.eq_of_getLsbD_eq fun i hi => ?_
  rw [setBit_getLsbD _ _ _ i hi]
  split
  · rename_i hip
    rw [hip, setBit_getLsbD_self]
  · rfl

/-- Settles O44: three times O43. -/
theorem backlightRoundTrip : Obligations.BacklightRoundTrip := by
  intro s hfsm hbus
  have hcompletes (on : Bool) (u : State) (hu : u.fsm = .ready) (hubus : u.busOk) :
      exec (.setBacklight on) u = .next ((u.after [.drive (some 7) on]).setStatus (some .ok)) :=
    (setBacklight_readyOperation u on).completes hu hubus
  have hbus' := busOk_after hbus [.drive (some 7) true]
  refine ⟨_, _, _, hcompletes true s hfsm hbus, hcompletes true _ hfsm hbus',
    hcompletes false _ hfsm (busOk_after hbus' [.drive (some 7) true]), ?_⟩
  simp only [State.setStatus_latch, after_backlight, setBit_setBit]
  exact ⟨setBit_getLsbD_self _ 7 true, trivial, setBit_getLsbD_self _ 7 false, fun q hq =>
    (setBit_getLsbD_ne _ 7 q false hq).trans (setBit_getLsbD_ne s.latch 7 q true hq)⟩

/-! #### The block's own commands (log 2) -/

/-- Each kind delivers its encoding. -/
theorem exec_command {i : Instr} (hport : i.port = .command) (s : State) :
    ∃ b, encode i = [b] ∧ exec i s = deliver b s := by
  have hbyte {b c : Byte} (h : b = c) : deliver b s = deliver c s := by rw [h]
  cases i with
  | clearDisplay => exact ⟨_, rfl, rfl⟩
  | returnHome unused => exact ⟨_, rfl, hbyte (by revert unused; decide)⟩
  | entryModeSet left shift => exact ⟨_, rfl, hbyte (by revert left shift; decide)⟩
  | displayControl display cursor blink => exact ⟨_, rfl, hbyte (by revert display cursor blink; decide)⟩
  | cursorShift move right unused => exact ⟨_, rfl, hbyte (by revert move right unused; decide)⟩
  | functionSet bus8 twoLine tallFont unused =>
    exact ⟨_, rfl, hbyte (by revert bus8 twoLine tallFont unused; decide)⟩
  | setCgramAddress slot unused => exact ⟨_, rfl, hbyte (by revert slot unused; decide)⟩
  | setDdramAddress address => exact ⟨_, rfl, hbyte (by revert address; decide)⟩
  | _ => cases hport

theorem deliver_configured {s : State} (hfsm : s.fsm ≠ .unconfigured) (b : Byte) :
    deliver b s = perform (s.send b false) (accept s) :=
  onceConfigured_configured hfsm _

/-- Settles O45: the byte that `encode` gives is delivered, by a Send with RS low. -/
theorem commandsComplete : Obligations.CommandsComplete := by
  intro i s hport
  obtain ⟨b, hencode, hexec⟩ := exec_command hport s
  rw [hexec]
  refine ⟨fun hfsm hbus => ⟨b, hencode, ?_⟩, fun hfsm => ?_, fun hfsm => onceConfigured_refused hfsm _⟩
  · rw [deliver_configured hfsm, perform_accept_busOk hbus]
  · rw [deliver_configured hfsm]
    obtain ⟨t, ht⟩ := exists_perform_next (s.send b false) (accept s)
    exact ⟨t, ht, (sameFields_accept s).trans (perform_sameFields ht)⟩

end Sys2Proof.Proofs.Completion

/-! ### Proofs: what a Send puts on the lines (41_byte_transmission.md R125, R128) -/

namespace Sys2Proof.Proofs.Transmission

open Sys2Proof Sys2Proof.Machine Sys2Proof.Proofs.Safety

/-! #### Counts -/

/-- Whether a pin is used, as a number. -/
def used (p : Pin) : Nat := if p = none then 0 else 1

section
variable (pins : PinMap) (t : Timing)

/-- The transactions of one SetPin: two on a position, none on an unused pin. -/
theorem actionCalls_drive (p : Pin) (level : Bool) : actionCalls (.drive p level) = 2 * used p := by
  cases p <;> rfl

theorem callsOf_drive_cons (p : Pin) (level : Bool) (rest : List Action) :
    callsOf (.drive p level :: rest) = 2 * used p + callsOf rest := by
  rw [callsOf, actionCalls_drive]

theorem callsOf_wait_cons (ms : Nat) (rest : List Action) : callsOf (.wait ms :: rest) = callsOf rest := by
  rw [callsOf, actionCalls, Nat.zero_add]

theorem callsOf_nil : callsOf [] = 0 := rfl

theorem callsOf_delivered (b : Byte) (isData : Bool) : callsOf [.delivered b isData] = 0 := rfl

theorem callsOf_pulseEnable : callsOf (pulseEnable pins t) = 6 * used pins.en := by
  simp only [pulseEnable, callsOf_drive_cons, callsOf_wait_cons, callsOf_nil, PinMap.pin]
  omega

theorem callsOf_write4Bits (n : BitVec 4) :
    callsOf (write4Bits pins t n) =
      2 * (used pins.d0 + used pins.d1 + used pins.d2 + used pins.d3) + 6 * used pins.en := by
  simp only [write4Bits, callsOf_append, callsOf_drive_cons, callsOf_nil, callsOf_pulseEnable, PinMap.pin]
  omega

theorem callsOf_write8Bits (b : Byte) :
    callsOf (write8Bits pins t b) =
      2 * (used pins.d0 + used pins.d1 + used pins.d2 + used pins.d3 + used pins.d4 + used pins.d5 + used pins.d6
        + used pins.d7) + 6 * used pins.en := by
  simp only [write8Bits, callsOf_append, callsOf_drive_cons, callsOf_nil, callsOf_pulseEnable, PinMap.pin]
  omega

theorem callsOf_select (isData : Bool) :
    callsOf [.drive (pins.pin .rs) isData, .drive (pins.pin .rw) false] = 2 * used pins.rs + 2 * used pins.rw := by
  simp only [callsOf_drive_cons, callsOf_nil, Nat.add_zero, PinMap.pin]

theorem callsOf_send4 (b : Byte) (isData : Bool) :
    callsOf (send pins t false b isData) = 2 * used pins.rs + 2 * used pins.rw
      + 4 * (used pins.d0 + used pins.d1 + used pins.d2 + used pins.d3) + 12 * used pins.en := by
  simp only [send, Bool.false_eq_true, if_false, callsOf_append, callsOf_select, callsOf_write4Bits, callsOf_delivered]
  omega

theorem callsOf_send8 (b : Byte) (isData : Bool) :
    callsOf (send pins t true b isData) = 2 * used pins.rs + 2 * used pins.rw
      + 2 * (used pins.d0 + used pins.d1 + used pins.d2 + used pins.d3 + used pins.d4 + used pins.d5 + used pins.d6
        + used pins.d7) + 6 * used pins.en := by
  simp only [send, if_true, callsOf_append, callsOf_select, callsOf_write8Bits, callsOf_delivered]
  omega

end

/-- The delays of one action. -/
def actionDelays : Action → Nat
  | .drive _ _ => 0
  | .wait _ => 1
  | .delivered _ _ => 0

/-- The events that are no transactions are the waits. -/
theorem countP_delays (as : List Action) (L : Byte) :
    (eventsOf as L).countP (fun e => !e.isTransaction) = (as.map actionDelays).sum := by
  induction as generalizing L with
  | nil => rfl
  | cons a rest ih =>
    have haction : (actionEvents a L).countP (fun e => !e.isTransaction) = actionDelays a := by
      rcases a with ⟨_ | p, level⟩ | ms | ⟨b, isData⟩ <;> rfl
    rw [eventsOf, List.countP_append, haction, ih, List.map_cons, List.sum_cons]

theorem delays_send (pins : PinMap) (t : Timing) (bus8 : Bool) (b : Byte) (isData : Bool) :
    ((send pins t bus8 b isData).map actionDelays).sum = if bus8 then 3 else 6 := by
  cases bus8 <;> simp [send, write4Bits, write8Bits, pulseEnable, actionDelays]

/-- Settles O29: the pins each action drives, and the waits of two pulses or one. -/
theorem sendCounts : Obligations.SendCounts := by
  intro pins t b L isData
  refine ⟨?_, ?_, ?_, ?_⟩
  · rw [countP_eventsOf]
    exact callsOf_send4 pins t b isData
  · rw [countP_eventsOf]
    exact callsOf_send8 pins t b isData
  · rw [countP_delays]
    exact delays_send pins t false b isData
  · rw [countP_delays]
    exact delays_send pins t true b isData

/-! #### The select lines -/

section
variable {pins : PinMap} (h : pins.WF)
include h

/-- RS and RW as a Send sets them first. -/
theorem lineLevel_select (isData : Bool) (q : Role) (L : Byte) :
    lineLevel pins q (latchOf [.drive (pins.pin .rs) isData, .drive (pins.pin .rw) false] L) =
      match q with
      | .rs => (pins.pin .rs).isSome && isData
      | .rw => false
      | q => lineLevel pins q L := by
  simp only [latchOf]
  rw [lineLevel_drive h, lineLevel_drive h]
  cases q <;> simp

theorem strobesOf_select (wide isData : Bool) (L : Byte) :
    strobesOf pins wide [.drive (pins.pin .rs) isData, .drive (pins.pin .rw) false] L = [] := by
  rw [strobesOf_cons, strobesOf_drive h wide .rs (by decide), strobesOf_drive h wide .rw (by decide)]
  rfl

end

/-! #### 4-bit mode -/

theorem highNibble_setWidth (b : Byte) : (highNibble b).setWidth 8 = b >>> 4 := by
  revert b
  decide

theorem lowNibble_setWidth (b : Byte) : (lowNibble b).setWidth 8 = b &&& 0x0F := by
  revert b
  decide

section
variable {pins : PinMap} (h : pins.WF) (hm : pins.mapped4)
include h hm

theorem lineLevel_send4 (t : Timing) (b : Byte) (isData : Bool) (q : Role) (L : Byte) :
    lineLevel pins q (latchOf (send pins t false b isData) L) =
      match q with
      | .rs => isData
      | .rw => false
      | .en => false
      | .d0 => b.getLsbD 0
      | .d1 => b.getLsbD 1
      | .d2 => b.getLsbD 2
      | .d3 => b.getLsbD 3
      | q => lineLevel pins q L := by
  have hrs : (pins.pin .rs).isSome = true := Option.isSome_iff_ne_none.mpr (hm .rs (by simp))
  simp only [send, Bool.false_eq_true, if_false, latchOf_append, latchOf_delivered]
  cases q <;> simp [lineLevel_write4Bits h hm, lineLevel_select h, hrs, lowNibble]

theorem strobesOf_send4 (t : Timing) (b : Byte) (isData : Bool) (L : Byte) :
    strobesOf pins false (send pins t false b isData) L =
      [{ select := isData, data := b >>> 4 }, { select := isData, data := b &&& 0x0F }] := by
  have hrs : (pins.pin .rs).isSome = true := Option.isSome_iff_ne_none.mpr (hm .rs (by simp))
  simp only [send, Bool.false_eq_true, if_false, strobesOf_append, strobesOf_select h, strobesOf_write4Bits h hm,
    lineLevel_write4Bits h hm, lineLevel_select h, strobesOf_delivered, hrs, highNibble_setWidth, lowNibble_setWidth]
  rfl

end

/-- Settles O30: the nibbles' strobes and levels, over the levels of the select lines. -/
theorem sendStrobesFourBit : Obligations.SendStrobesFourBit := by
  intro pins t b L isData h hm
  have hlow : ∀ b : Byte, 0#4 ++ BitVec.ofBool (b.getLsbD 3) ++ BitVec.ofBool (b.getLsbD 2)
      ++ BitVec.ofBool (b.getLsbD 1) ++ BitVec.ofBool (b.getLsbD 0) = b &&& 0x0F := by decide
  refine ⟨strobesOf_send4 h hm t b isData L, lineLevel_send4 h hm t b isData .en L,
    lineLevel_send4 h hm t b isData .rs L, lineLevel_send4 h hm t b isData .rw L, ?_⟩
  simp only [shown, dataLines, lineLevel_send4 h hm, Bool.false_eq_true, if_false]
  exact hlow b

/-! #### 8-bit mode -/

section
variable {pins : PinMap} (h : pins.WF)
include h

theorem lineLevel_send8_enable (t : Timing) (b : Byte) (isData : Bool) (L : Byte) :
    lineLevel pins .en (latchOf (send pins t true b isData) L) = false := by
  simp only [send, if_true, latchOf_append, latchOf_delivered]
  rw [lineLevel_write8Bits h]

theorem strobesOf_send8 (he : pins.en ≠ none) (t : Timing) (b : Byte) (isData : Bool) (L : Byte) :
    strobesOf pins true (send pins t true b isData) L =
      [{ select := (pins.pin .rs).isSome && isData, data := presented pins true b }] := by
  simp only [send, if_true, strobesOf_append, strobesOf_select h, strobesOf_write8Bits h he, lineLevel_select h,
    strobesOf_delivered]
  rfl

end

/-- Settles O31: the byte's strobe, over the levels of the select lines. -/
theorem sendStrobesEightBit : Obligations.SendStrobesEightBit := by
  intro pins t b L isData h he
  exact ⟨strobesOf_send8 h he t b isData L, lineLevel_send8_enable h t b isData L⟩

end Sys2Proof.Proofs.Transmission

/-! ### Proofs: a BEGIN that completes (42_initialization.md section 3) -/

namespace Sys2Proof.Proofs.BringUp

open Sys2Proof Sys2Proof.Machine Sys2Proof.Proofs.Runs Sys2Proof.Proofs.Transmission

/-! #### The geometry flags -/

theorem beginMode_eq (lines : Byte) (cell : Cell) (mode : Byte) :
    beginMode lines cell mode =
      mode ||| (if lines > 1 then 0x08 else 0x00) ||| (if cell = .tall ∧ lines = 1 then 0x04 else 0x00) := by
  unfold beginMode mergeFlag flagTwoLine flagTallFont
  dsimp only
  split <;> split <;> simp_all

/-- Settles O22: at most one of the two flags is merged, by the number of lines. -/
theorem beginMergesGeometry : Obligations.BeginMergesGeometry := by
  refine ⟨fun cell mode => ?_, fun lines cell mode hlines => ?_, fun mode => ⟨?_, ?_⟩⟩
  · rw [beginMode_eq]
    simp
  · have hone : lines ≠ 1 := by
      rintro rfl
      exact absurd hlines (by decide)
    rw [beginMode_eq, if_pos hlines, if_neg fun ⟨_, hlines⟩ => hone hlines]
    simp
  · rw [beginMode_eq]
    simp
  · rw [beginMode_eq]
    simp

/-! #### The next state -/

/-- The state a completed BEGIN leaves, `g` being the one after its first field writes. -/
def begun (g : State) : State :=
  ((((g.after (bringUpActions g)).setDisplayControlFlags 0x04).setEntryModeFlags 0x02).setFsm .ready).setStatus
    (some (.okFlag true))

theorem begin_completes {s : State} (hfsm : s.fsm = .roleAssigned) (hbus : s.busOk) (cols lines : Byte) (cell : Cell) :
    exec (.begin cols lines cell) s = .next (begun (storeGeometry lines cell (accept s))) := by
  have hg : (storeGeometry lines cell (accept s)).busOk := hbus
  rw [exec_begin hfsm, bringUp_eq]
  generalize storeGeometry lines cell (accept s) = g at hg ⊢
  have hd : ((g.after (wakeUp g)).setDisplayControlFlags 0x04).busOk := busOk_after hg (wakeUp g)
  have he :
      ((((g.after (wakeUp g)).setDisplayControlFlags 0x04).after (displayPhase g)).setEntryModeFlags 0x02).busOk :=
    busOk_after hd (displayPhase g)
  have hshow : displayPhase ((g.after (wakeUp g)).setDisplayControlFlags 0x04) = displayPhase g := rfl
  have hsend : ((((g.after (wakeUp g)).setDisplayControlFlags 0x04).after (displayPhase g)).setEntryModeFlags
      0x02).command 0x06 = g.command 0x06 := rfl
  rw [runActions_busOk hg, Progress.andThen_going, hshow, runActions_busOk hd, Progress.andThen_going, hsend,
    runActions_busOk he, Progress.andThen_going, finish_going, begun, bringUpActions, State.after_append,
    State.after_append]
  rfl

/-- BEGIN's actions in one list. -/
theorem bringUpActions_eq (g : State) :
    bringUpActions g =
      [.wait g.timing.powerUp, .drive (g.pinMap.pin .rs) false, .drive (g.pinMap.pin .en) false,
          .drive (g.pinMap.pin .rw) false]
        ++ (if isBus8 g.modeFlags then resetSequence8 g.pinMap g.timing g.modeFlags
            else resetSequence4 g.pinMap g.timing)
        ++ g.send (functionSetByte g.modeFlags) false ++ g.send 0x0C false ++ g.send 0x01 false
        ++ [.wait g.timing.long] ++ g.send 0x06 false := by
  simp only [bringUpActions, wakeUp, displayPhase, State.command, List.append_assoc]

/-- In 8-bit mode the reset sequence is three of the block's own Sends. -/
theorem resetSequence8_eq {g : State} (h : isBus8 g.modeFlags = true) :
    resetSequence8 g.pinMap g.timing g.modeFlags =
      g.send (functionSetByte g.modeFlags) false ++ [.wait g.timing.rst1] ++ g.send (functionSetByte g.modeFlags) false
        ++ [.wait g.timing.rst2] ++ g.send (functionSetByte g.modeFlags) false ++ [.wait g.timing.rst3] := by
  rw [State.send, h, resetSequence8]

/-- The state before BEGIN with the geometry written. -/
def withGeometry (lines : Byte) (cell : Cell) (s : State) : State :=
  { s with lineCount := lines, currentLine := 0, modeFlags := beginMode lines cell s.modeFlags }

theorem begun_eq (lines : Byte) (cell : Cell) (s : State) {actions : List Action}
    (h : bringUpActions (storeGeometry lines cell (accept s)) = actions) :
    begun (storeGeometry lines cell (accept s)) = { (withGeometry lines cell s).after actions with
      displayControlFlags := 0x04, entryModeFlags := 0x02, fsm := .ready, status := some (.okFlag true) } := by
  rw [begun, h]
  rfl

/-- Settles O17: under the contract each phase is run to its end, and the field writes between them move past it. -/
theorem beginCompletes : Obligations.BeginCompletes := by
  intro cols lines cell s hfsm hbus
  have hbit : isBus8 (beginMode lines cell s.modeFlags) = s.modeFlags.getLsbD 4 :=
    isBus8_beginMode lines cell s.modeFlags
  have hsend (b : Byte) (isData : Bool) :
      (withGeometry lines cell s).send b isData = (storeGeometry lines cell (accept s)).send b isData := rfl
  rw [begin_completes hfsm hbus]
  dsimp only
  rw [← beginMode_eq, ← withGeometry]
  refine congrArg Host.Outcome.next (begun_eq lines cell s ?_)
  rw [bringUpActions_eq]
  cases hmode : s.modeFlags.getLsbD 4 with
  | false =>
    have hfour : isBus8 (storeGeometry lines cell (accept s)).modeFlags = false := hbit.trans hmode
    simp only [hfour, hsend, Bool.false_eq_true, if_false]
    rfl
  | true =>
    have height : isBus8 (storeGeometry lines cell (accept s)).modeFlags = true := hbit.trans hmode
    simp only [height, hsend, if_true, resetSequence8_eq height]
    rfl

/-! #### The strobes -/

/-- What a completed BEGIN adds to the trace. -/
theorem begun_trace (g : State) : (begun g).trace = g.trace ++ eventsOf (bringUpActions g) g.latch := rfl

/-- RS, Enable and RW low, and nothing strobed. -/
theorem lineLevel_quiesce {pins : PinMap} (h : pins.WF) (n : Nat) (L : Byte) :
    lineLevel pins .rs (latchOf [.wait n, .drive (pins.pin .rs) false, .drive (pins.pin .en) false,
      .drive (pins.pin .rw) false] L) = false := by
  simp only [latchOf, actionLatch_wait]
  rw [lineLevel_drive h, lineLevel_drive h, lineLevel_drive h]
  simp

theorem strobesOf_quiesce {pins : PinMap} (h : pins.WF) (wide : Bool) (n : Nat) (L : Byte) :
    strobesOf pins wide [.wait n, .drive (pins.pin .rs) false, .drive (pins.pin .en) false,
      .drive (pins.pin .rw) false] L = [] := by
  rw [strobesOf_cons, strobesOf_cons, strobesOf_cons, strobesOf_drive h wide .rs (by decide), strobesOf_enableLow h,
    strobesOf_drive h wide .rw (by decide)]
  rfl

/-- The nibbles of the 4-bit reset sequence, with RS as it stands. -/
theorem strobesOf_resetSequence4 {pins : PinMap} (h : pins.WF) (hm : pins.mapped4) (t : Timing) (L : Byte) :
    strobesOf pins false (resetSequence4 pins t) L =
      ([0x3, 0x3, 0x3, 0x2] : List Byte).map fun n => { select := lineLevel pins .rs L, data := n } := by
  simp only [resetSequence4, strobesOf_append, strobesOf_write4Bits h hm, latchOf_append, latchOf_wait,
    lineLevel_write4Bits h hm, strobesOf_wait]
  rfl

/-- Everything a completed BEGIN strobes in 4-bit mode. -/
theorem strobesOf_bringUp4 {g : State} (h : g.pinMap.WF) (hm : g.pinMap.mapped4) (hmode : isBus8 g.modeFlags = false)
    (L : Byte) :
    strobesOf g.pinMap false (bringUpActions g) L =
      ([0x3, 0x3, 0x3, 0x2, (0x20 ||| g.modeFlags) >>> 4, g.modeFlags &&& 0x0F, 0x0, 0xC, 0x0, 0x1, 0x0, 0x6] :
        List Byte).map (fun data => ({ select := false, data := data } : Strobe)) := by
  have hlow : ∀ mode : Byte, functionSetByte mode &&& 0x0F = mode &&& 0x0F := by decide
  rw [bringUpActions_eq, hmode]
  simp only [State.send, hmode, Bool.false_eq_true, if_false, strobesOf_append, strobesOf_quiesce h,
    strobesOf_resetSequence4 h hm, lineLevel_quiesce h, strobesOf_send4 h hm, strobesOf_wait, hlow]
  rfl

/-- The control lines a completed BEGIN leaves in 4-bit mode are those of its last Send. -/
theorem lineLevel_bringUp4 {g : State} (h : g.pinMap.WF) (hm : g.pinMap.mapped4) (hmode : isBus8 g.modeFlags = false)
    (L : Byte) :
    lineLevel g.pinMap .rs (latchOf (bringUpActions g) L) = false
      ∧ lineLevel g.pinMap .rw (latchOf (bringUpActions g) L) = false
      ∧ lineLevel g.pinMap .en (latchOf (bringUpActions g) L) = false := by
  rw [bringUpActions_eq, latchOf_append, State.send, State.send, State.send, State.send, hmode]
  simp only [lineLevel_send4 h hm, and_self]

/-- Everything a completed BEGIN strobes in 8-bit mode. -/
theorem strobesOf_bringUp8 {g : State} (h : g.pinMap.WF) (he : g.pinMap.en ≠ none) (hmode : isBus8 g.modeFlags = true)
    (L : Byte) :
    strobesOf g.pinMap true (bringUpActions g) L =
      ([0x20 ||| g.modeFlags, 0x20 ||| g.modeFlags, 0x20 ||| g.modeFlags, 0x20 ||| g.modeFlags, 0x0C, 0x01, 0x06] :
        List Byte).map (fun b => ({ select := false, data := presented g.pinMap true b } : Strobe)) := by
  rw [bringUpActions_eq, if_pos hmode, resetSequence8_eq hmode]
  simp only [State.send, hmode, strobesOf_append, strobesOf_quiesce h, strobesOf_send8 h he, strobesOf_wait,
    Bool.and_false]
  rfl

/-- Settles O19: the strobes and the levels of BEGIN's actions, piece by piece. -/
theorem beginStrobesFourBit : Obligations.BeginStrobesFourBit := by
  intro cols lines cell s hfsm hbus h hm hmode
  have hmode4 : isBus8 (storeGeometry lines cell (accept s)).modeFlags = false :=
    (isBus8_beginMode lines cell s.modeFlags).trans hmode
  exact ⟨_, _, begin_completes hfsm hbus cols lines cell, begun_trace _,
    strobesOf_bringUp4 (g := storeGeometry lines cell (accept s)) h hm hmode4 s.latch,
    lineLevel_bringUp4 (g := storeGeometry lines cell (accept s)) h hm hmode4 s.latch⟩

/-- Settles O20: the strobes of BEGIN's seven Sends. -/
theorem beginStrobesEightBit : Obligations.BeginStrobesEightBit := by
  intro cols lines cell s hfsm hbus h he hmode
  have hmode8 : isBus8 (storeGeometry lines cell (accept s)).modeFlags = true :=
    (isBus8_beginMode lines cell s.modeFlags).trans hmode
  exact ⟨_, _, begin_completes hfsm hbus cols lines cell, begun_trace _,
    strobesOf_bringUp8 (g := storeGeometry lines cell (accept s)) h he hmode8 s.latch⟩

end Sys2Proof.Proofs.BringUp
